-- ==== Sys2Proof/Word.lean ====
section
/-! DEFINITION. The word types of the block (spec/00_scope.md R9, R11). -/

namespace Sys2Proof

/-- u8: one wire byte, one asset byte, a line thickness, a rotation operand (R9, R11). -/
abbrev Byte := BitVec 8

/-- u16: a coordinate, a dimension, a colour, one word of an operation descriptor (R9, R11). -/
abbrev Word := BitVec 16

/-- u32: the pixel count of FILL_COLOR and the wide working registers (R9, R37, R38). -/
abbrev Long := BitVec 32

/-- The opaque 32-bit name of an asset (R47). -/
abbrev Handle := BitVec 32

end Sys2Proof
end

