-- ==== Sys2Proof/Config.lean ====
section
/-! DEFINITION. What one implementation fixes (spec/00_scope.md R9, spec/92_eei_decisions.md D7, D8, D17, D21) and the
free values of the model.

The parameters are ONE record of plain data, `Params`, which State carries unchanged: a statement about every state is
a statement about every legal value of every parameter, as R9 asks for the OPEN ones. -/

namespace Sys2Proof

/-- CS_MODE (R9, R31; D7): whether the block drives chip select. -/
inductive CsMode
  | none      -- the line is not driven and no chip-select event occurs
  | perGroup  -- every command or data group is bracketed by the line
  deriving DecidableEq, Repr, Inhabited

/-- LAYOUT_ORDER (D21): which of the two edge tests of a printable character comes first. -/
inductive LayoutOrder
  | bottomFirst
  | wrapFirst
  deriving DecidableEq, Repr, Inhabited

/-- WRAP_ADVANCE (D21): how far a right-edge wrap moves down. -/
inductive WrapAdvance
  | spaceH
  | glyphH
  deriving DecidableEq, Repr, Inhabited

/-- The implementation parameters of R9 and D21 that a rule of the block uses. ASSET_RESOLVE is the asset store of
State (R47), ROT_DIMS is `rotDims` over panelW and panelH (R166). -/
structure Params where
  panelW : Word                 -- PANEL_W
  panelH : Word                 -- PANEL_H
  csMode : CsMode               -- CS_MODE, OPEN
  madctlPat : Vector Byte 4     -- MADCTL_PAT, OPEN
  glyphColumnRealign : Bool     -- GLYPH_COLUMN_REALIGN
  layoutOrder : LayoutOrder     -- LAYOUT_ORDER, OPEN with a default
  wrapAdvance : WrapAdvance     -- WRAP_ADVANCE, OPEN with a default
  deriving DecidableEq, Repr

/-- CS_MODE of the block that `State.reset` is. OPEN (D7): no value is chosen, so the constant has no body. -/
opaque Config.csMode : CsMode

/-- MADCTL_PAT of the block that `State.reset` is. OPEN (D8): no value is chosen, so the constant has no body. -/
opaque Config.madctlPat : Vector Byte 4

/-- The parameters of the block that `State.reset` is: the source's 240 by 240 panel (R9; D11), the two OPEN constants
above, and the defaults the spec gives for the rest (R9; D17, D21). -/
def Config.params : Params where
  panelW := 240
  panelH := 240
  csMode := Config.csMode
  madctlPat := Config.madctlPat
  glyphColumnRealign := false
  layoutOrder := .bottomFirst
  wrapAdvance := .spaceH

/-- ORIENT_INIT (R9; D9). -/
def Config.orientInit : BitVec 2 := 0

/-- SETTLE_ITER (R9, R210): timing only, used by no rule (R212). -/
def Config.settleIter : Nat := 50000

/-- FILL_BLOCK and FILL_UNROLL (R9, R102): not observable. They are used only to state that they are not. -/
def Config.fillBlock : Nat := 64
@[inherit_doc Config.fillBlock] def Config.fillUnroll : Nat := 4

/-! Free values: constants without a body, applied to the counter `State.free`. Nothing can be proved of one, so what is
proved of a step that takes one holds whatever it is (spec/93_implementation_defined.md I13, I14, I15, I16). -/

/-- A free line level or a free choice of two (I14, I16). -/
opaque Config.freeBit : Nat → Bool
/-- A free byte (I15). -/
opaque Config.freeByte : Nat → Byte
/-- A free 16-bit value (I13, I15). -/
opaque Config.freeWord : Nat → Word
/-- A free 32-bit value (I15). -/
opaque Config.freeLong : Nat → Long
/-- A free integer (I13, I15). -/
opaque Config.freeInt : Nat → Int
/-- Free 16-bit values, however many (I15). -/
opaque Config.freeWords : Nat → List Word

end Sys2Proof
end

