-- ==== Sys2Proof/Syntax.lean ====
section
/-! DEFINITION. The instructions: one constructor per row of spec/opcode_table.json.

Fifteen operations of the operation port (spec/30_encoding.md R81), the two pseudo-operations of the assembler (R87),
and the ten wire commands the block emits (R89). The table marks the last ten `output_only`: they are bytes on the wire
and never descriptors of the operation port (assumption 3). -/

namespace Sys2Proof

/-- One instruction. Operands stand in the order of the source's call (R86). -/
inductive Instr
  -- R81: the operations of the block
  | init
  | setWindow (x1 y1 x2 y2 : Word)
  | fillColor (color : Word) (n : Long)
  | drawPixel (x y color : Word)
  | fillRect (x y w h color : Word)
  | fillRectFast (x y w h color : Word)
  | fillScreen (color : Word)
  | drawRectangle (x y w h color : Word)
  | drawFastHLine (x0 y0 x1 : Word) (t : Byte) (color : Word)
  | drawFastVLine (x0 y0 y1 : Word) (t : Byte) (color : Word)
  | drawLine (x0 y0 x1 y1 : Word) (t : Byte) (color : Word)
  | drawChar (x y fg bg : Word) (glyph : Handle) (hasBg : Bool)
  | drawStringMain (x y : Word) (str : Handle) (fg bg : Word) (font : Handle) (hasBg : Bool)
  | drawBitmap (x y : Word) (bitmap : Handle)
  | rotateDisplay (rotation : Byte)
  -- R87: the pseudo-operations of the assembler
  | drawString (x y : Word) (str : Handle) (fg bg : Word) (font : Handle)
  | drawStringWithbg (x y : Word) (str : Handle) (fg bg : Word) (font : Handle)
  -- R89: the wire commands, each with the data bytes it leaves open
  | wireSoftwareReset
  | wireSleepOut
  | wireColorMode
  | wireMemoryAccessControl (pat : Byte)
  | wireInversionOn
  | wireNormalDisplayOn
  | wireDisplayOn
  | wireColumnAddressSet (x1 x2 : Word)
  | wireRowAddressSet (y1 y2 : Word)
  | wireMemoryWrite
  deriving DecidableEq, Repr

/-- The operation codes of R81, by name. -/
inductive Op
  | init | setWindow | fillColor | drawPixel | fillRect | fillRectFast | fillScreen | drawRectangle
  | drawFastHLine | drawFastVLine | drawLine | drawChar | drawStringMain | drawBitmap | rotateDisplay
  deriving DecidableEq, Repr

/-- The header formats of R78. -/
inductive Format
  | n | t | b | r
  deriving DecidableEq, Repr

/-- One row of R81: the operation code, the header format and the number of words of the whole descriptor. -/
structure OpRow where
  opc : Byte
  fmt : Format
  words : Nat
  deriving DecidableEq, Repr

/-- What is fetched: the descriptor latched from the operation port (R76), or a wire command (R89), which only
`State.withFetchWord` places (assumption 3). -/
inductive Fetched
  | descriptor (words : List Word)
  | wire (bytes : List Byte)
  deriving DecidableEq, Repr

/-- Why decoding rejects what was fetched. For a descriptor every reason is the one fault ILLEGAL_OP (R83). -/
inductive Reject
  | noHeader             -- an empty list of words: no header (R76)
  | unknownOpcode        -- OPC is not in the map (R83)
  | wrongWordCount       -- the word count differs from R81 (R83)
  | reservedSub          -- SUB breaks its format's rule (R83, R84)
  | unknownWireCommand   -- not one of the ten codes of R89
  | wrongWireLength      -- other than the command's open data bytes (R89)
  deriving DecidableEq, Repr

end Sys2Proof
end

