-- ==== Sys2Proof/WellFormed.lean ====
section
/-! DEFINITION. Well-formed instructions: the ones a decoder can answer.

Every operand has exactly the width its encoding gives it (R79, R80), and no operand value is illegal (R94), so the one
check left is that the instruction is no pseudo-operation: those exist for the assembler alone (R87). -/

namespace Sys2Proof

/-- The two pseudo-operations of R87. -/
def Instr.isPseudo : Instr → Bool
  | .drawString .. | .drawStringWithbg .. => true
  | .init | .setWindow .. | .fillColor .. | .drawPixel .. | .fillRect .. | .fillRectFast .. | .fillScreen ..
  | .drawRectangle .. | .drawFastHLine .. | .drawFastVLine .. | .drawLine .. | .drawChar .. | .drawStringMain ..
  | .drawBitmap .. | .rotateDisplay .. => false
  | .wireSoftwareReset | .wireSleepOut | .wireColorMode | .wireMemoryAccessControl .. | .wireInversionOn
  | .wireNormalDisplayOn | .wireDisplayOn | .wireColumnAddressSet .. | .wireRowAddressSet .. | .wireMemoryWrite => false

/-- The ten wire commands of R89. -/
def Instr.isWire : Instr → Bool
  | .wireSoftwareReset | .wireSleepOut | .wireColorMode | .wireMemoryAccessControl .. | .wireInversionOn
  | .wireNormalDisplayOn | .wireDisplayOn | .wireColumnAddressSet .. | .wireRowAddressSet .. | .wireMemoryWrite => true
  | .init | .setWindow .. | .fillColor .. | .drawPixel .. | .fillRect .. | .fillRectFast .. | .fillScreen ..
  | .drawRectangle .. | .drawFastHLine .. | .drawFastVLine .. | .drawLine .. | .drawChar .. | .drawStringMain ..
  | .drawBitmap .. | .rotateDisplay .. => false
  | .drawString .. | .drawStringWithbg .. => false

/-- The fifteen operations of R81: what the operation port decodes (R93). -/
def Instr.isOperation (i : Instr) : Bool := !i.isPseudo && !i.isWire

/-- An instruction that some fetched words or bytes decode to. -/
def Instr.wellFormed (i : Instr) : Bool := !i.isPseudo

end Sys2Proof
end

