-- ==== Sys2Proof/Decode.lean ====
section
/-! DEFINITION. Decoding and encoding (spec/30_encoding.md §1 and §2), with the bit-field helpers they use. -/

namespace Sys2Proof

/-! ## Bit fields and byte order (R10, R11, R56, R80) -/

/-- hi8 of a word (R11): bits 15 to 8. -/
def hiByte (v : Word) : Byte := v.extractLsb' 8 8

/-- lo8 of a word (R11): bits 7 to 0. -/
def loByte (v : Word) : Byte := v.extractLsb' 0 8

/-- {hi, lo} of two bytes (R10). -/
def joinBytes (hi lo : Byte) : Word := hi ++ lo

/-- The high argument word of a 32-bit operand (R80). -/
def hiWord (v : Long) : Word := v.extractLsb' 16 16

/-- The low argument word of a 32-bit operand (R80). -/
def loWord (v : Long) : Word := v.extractLsb' 0 16

/-- {word[i], word[i+1]}: a 32-bit operand, the high word first (R80). -/
def joinWords (hi lo : Word) : Long := hi ++ lo

/-! ## The opcode map (R81) -/

/-- The rows of R81. -/
def opRow : Op → OpRow
  | .init           => ⟨0x01, .n, 1⟩
  | .setWindow      => ⟨0x10, .n, 5⟩
  | .fillColor      => ⟨0x11, .n, 4⟩
  | .drawPixel      => ⟨0x20, .n, 4⟩
  | .fillRect       => ⟨0x21, .n, 6⟩
  | .fillRectFast   => ⟨0x22, .n, 6⟩
  | .fillScreen     => ⟨0x23, .n, 2⟩
  | .drawRectangle  => ⟨0x24, .n, 6⟩
  | .drawFastHLine  => ⟨0x30, .t, 5⟩
  | .drawFastVLine  => ⟨0x31, .t, 5⟩
  | .drawLine       => ⟨0x32, .t, 6⟩
  | .drawChar       => ⟨0x40, .b, 7⟩
  | .drawStringMain => ⟨0x41, .b, 9⟩
  | .drawBitmap     => ⟨0x50, .n, 5⟩
  | .rotateDisplay  => ⟨0x60, .r, 1⟩

/-- Every operation of R81. -/
def allOps : List Op :=
  [.init, .setWindow, .fillColor, .drawPixel, .fillRect, .fillRectFast, .fillScreen, .drawRectangle,
   .drawFastHLine, .drawFastVLine, .drawLine, .drawChar, .drawStringMain, .drawBitmap, .rotateDisplay]

/-- The operation an OPC value names, if it is in the map (R81, R85). -/
def findOp (opc : Byte) : Option Op := allOps.find? fun o => (opRow o).opc == opc

/-- Which SUB values a format admits (R78, R84). -/
def subLegal (f : Format) (sub : Byte) : Bool :=
  match f with
  | .n => sub == 0
  | .t => true
  | .b => sub.extractLsb' 1 7 == 0
  | .r => true

/-- The operation with its operands, from SUB and the argument words in the order of R81; none on any other number of
argument words. -/
def buildInstr (o : Op) (sub : Byte) (args : List Word) : Option Instr :=
  match o, args with
  | .init, [] => some .init
  | .setWindow, [x1, y1, x2, y2] => some (.setWindow x1 y1 x2 y2)
  | .fillColor, [color, nHi, nLo] => some (.fillColor color (joinWords nHi nLo))
  | .drawPixel, [x, y, color] => some (.drawPixel x y color)
  | .fillRect, [x, y, w, h, color] => some (.fillRect x y w h color)
  | .fillRectFast, [x, y, w, h, color] => some (.fillRectFast x y w h color)
  | .fillScreen, [color] => some (.fillScreen color)
  | .drawRectangle, [x, y, w, h, color] => some (.drawRectangle x y w h color)
  | .drawFastHLine, [x0, y0, x1, color] => some (.drawFastHLine x0 y0 x1 sub color)
  | .drawFastVLine, [x0, y0, y1, color] => some (.drawFastVLine x0 y0 y1 sub color)
  | .drawLine, [x0, y0, x1, y1, color] => some (.drawLine x0 y0 x1 y1 sub color)
  | .drawChar, [x, y, fg, bg, gHi, gLo] => some (.drawChar x y fg bg (joinWords gHi gLo) (sub.getLsbD 0))
  | .drawStringMain, [x, y, sHi, sLo, fg, bg, fHi, fLo] =>
    some (.drawStringMain x y (joinWords sHi sLo) fg bg (joinWords fHi fLo) (sub.getLsbD 0))
  | .drawBitmap, [x, y, bHi, bLo] => some (.drawBitmap x y (joinWords bHi bLo))
  | .rotateDisplay, [] => some (.rotateDisplay sub)
  | _, _ => none

/-! ## The decoders -/

/-- The block's decoder, total on any list of words (R93): the header (R77), the word count (R82, R83), the reserved
bits of SUB (R84), then the operands. -/
def decodeWords (ws : List Word) : Except Reject Instr :=
  match ws with
  | [] => .error .noHeader
  | hd :: args =>
    match findOp (hiByte hd) with
    | none => .error .unknownOpcode
    | some o =>
      if args.length + 1 ≠ (opRow o).words then .error .wrongWordCount
      else if !subLegal (opRow o).fmt (loByte hd) then .error .reservedSub
      else
        match buildInstr o (loByte hd) args with
        | some i => .ok i
        | none => .error .wrongWordCount

/-- How many bytes a wire command has that are its own or left open by R89: the code, and the data bytes that are not
fixed. The data byte 0x55 of color-mode is fixed, so its meaning sends it and its encoding does not carry it. -/
def wireLength (code : Byte) : Nat :=
  if code = 0x2A ∨ code = 0x2B then 5 else if code = 0x36 then 2 else 1

/-- The wire command whose code and open data bytes are bs (R89), rejecting everything else by name. -/
def decodeWire (bs : List Byte) : Except Reject Instr :=
  match bs with
  | [] => .error .noHeader
  | code :: data =>
    if code = 0x2A then
      match data with
      | [b0, b1, b2, b3] => .ok (.wireColumnAddressSet (joinBytes b0 b1) (joinBytes b2 b3))
      | _ => .error .wrongWireLength
    else if code = 0x2B then
      match data with
      | [b0, b1, b2, b3] => .ok (.wireRowAddressSet (joinBytes b0 b1) (joinBytes b2 b3))
      | _ => .error .wrongWireLength
    else if code = 0x36 then
      match data with
      | [b] => .ok (.wireMemoryAccessControl b)
      | _ => .error .wrongWireLength
    else if !data.isEmpty then .error .wrongWireLength
    else if code = 0x01 then .ok .wireSoftwareReset
    else if code = 0x11 then .ok .wireSleepOut
    else if code = 0x3A then .ok .wireColorMode
    else if code = 0x21 then .ok .wireInversionOn
    else if code = 0x13 then .ok .wireNormalDisplayOn
    else if code = 0x29 then .ok .wireDisplayOn
    else if code = 0x2C then .ok .wireMemoryWrite
    else .error .unknownWireCommand

/-- The instruction that what was fetched stands for. -/
def decode (f : Fetched) : Except Reject Instr :=
  match f with
  | .descriptor ws => decodeWords ws
  | .wire bs => decodeWire bs

/-! ## The encoder -/

/-- The header word {OPC, SUB} (R77). -/
def headerWord (o : Op) (sub : Byte) : Word := joinBytes (opRow o).opc sub

/-- SUB of format B (R78). -/
def hasBgSub (b : Bool) : Byte := if b then 1 else 0

/-- The words of an operation (R81), of a pseudo-operation (R87: the words of DRAW_STRING_MAIN), or the bytes of a wire
command (R89). -/
def encode (i : Instr) : Fetched :=
  match i with
  | .init => .descriptor [headerWord .init 0]
  | .setWindow x1 y1 x2 y2 => .descriptor [headerWord .setWindow 0, x1, y1, x2, y2]
  | .fillColor color n => .descriptor [headerWord .fillColor 0, color, hiWord n, loWord n]
  | .drawPixel x y color => .descriptor [headerWord .drawPixel 0, x, y, color]
  | .fillRect x y w h color => .descriptor [headerWord .fillRect 0, x, y, w, h, color]
  | .fillRectFast x y w h color => .descriptor [headerWord .fillRectFast 0, x, y, w, h, color]
  | .fillScreen color => .descriptor [headerWord .fillScreen 0, color]
  | .drawRectangle x y w h color => .descriptor [headerWord .drawRectangle 0, x, y, w, h, color]
  | .drawFastHLine x0 y0 x1 t color => .descriptor [headerWord .drawFastHLine t, x0, y0, x1, color]
  | .drawFastVLine x0 y0 y1 t color => .descriptor [headerWord .drawFastVLine t, x0, y0, y1, color]
  | .drawLine x0 y0 x1 y1 t color => .descriptor [headerWord .drawLine t, x0, y0, x1, y1, color]
  | .drawChar x y fg bg g b => .descriptor [headerWord .drawChar (hasBgSub b), x, y, fg, bg, hiWord g, loWord g]
  | .drawStringMain x y s fg bg f b =>
    .descriptor [headerWord .drawStringMain (hasBgSub b), x, y, hiWord s, loWord s, fg, bg, hiWord f, loWord f]
  | .drawBitmap x y m => .descriptor [headerWord .drawBitmap 0, x, y, hiWord m, loWord m]
  | .rotateDisplay r => .descriptor [headerWord .rotateDisplay r]
  | .drawString x y s fg bg f =>
    .descriptor [headerWord .drawStringMain 0, x, y, hiWord s, loWord s, fg, bg, hiWord f, loWord f]
  | .drawStringWithbg x y s fg bg f =>
    .descriptor [headerWord .drawStringMain 1, x, y, hiWord s, loWord s, fg, bg, hiWord f, loWord f]
  | .wireSoftwareReset => .wire [0x01]
  | .wireSleepOut => .wire [0x11]
  | .wireColorMode => .wire [0x3A]
  | .wireMemoryAccessControl p => .wire [0x36, p]
  | .wireInversionOn => .wire [0x21]
  | .wireNormalDisplayOn => .wire [0x13]
  | .wireDisplayOn => .wire [0x29]
  | .wireColumnAddressSet x1 x2 => .wire [0x2A, hiByte x1, loByte x1, hiByte x2, loByte x2]
  | .wireRowAddressSet y1 y2 => .wire [0x2B, hiByte y1, loByte y1, hiByte y2, loByte y2]
  | .wireMemoryWrite => .wire [0x2C]

/-- What the assembler assembles an instruction as (R87): a pseudo-operation is DRAW_STRING_MAIN with its has_bg fixed,
and everything else is itself. -/
def Instr.expand (i : Instr) : Instr :=
  match i with
  | .drawString x y s fg bg f => .drawStringMain x y s fg bg f false
  | .drawStringWithbg x y s fg bg f => .drawStringMain x y s fg bg f true
  | .init => .init
  | .setWindow x1 y1 x2 y2 => .setWindow x1 y1 x2 y2
  | .fillColor c n => .fillColor c n
  | .drawPixel x y c => .drawPixel x y c
  | .fillRect x y w h c => .fillRect x y w h c
  | .fillRectFast x y w h c => .fillRectFast x y w h c
  | .fillScreen c => .fillScreen c
  | .drawRectangle x y w h c => .drawRectangle x y w h c
  | .drawFastHLine x0 y0 x1 t c => .drawFastHLine x0 y0 x1 t c
  | .drawFastVLine x0 y0 y1 t c => .drawFastVLine x0 y0 y1 t c
  | .drawLine x0 y0 x1 y1 t c => .drawLine x0 y0 x1 y1 t c
  | .drawChar x y fg bg g b => .drawChar x y fg bg g b
  | .drawStringMain x y s fg bg f b => .drawStringMain x y s fg bg f b
  | .drawBitmap x y m => .drawBitmap x y m
  | .rotateDisplay r => .rotateDisplay r
  | .wireSoftwareReset => .wireSoftwareReset
  | .wireSleepOut => .wireSleepOut
  | .wireColorMode => .wireColorMode
  | .wireMemoryAccessControl p => .wireMemoryAccessControl p
  | .wireInversionOn => .wireInversionOn
  | .wireNormalDisplayOn => .wireNormalDisplayOn
  | .wireDisplayOn => .wireDisplayOn
  | .wireColumnAddressSet x1 x2 => .wireColumnAddressSet x1 x2
  | .wireRowAddressSet y1 y2 => .wireRowAddressSet y1 y2
  | .wireMemoryWrite => .wireMemoryWrite

/-! ## Assembler text (R86) -/

/-- The mnemonic of the assembler (R86, R87), or the table's label of a wire command (R89). -/
def Instr.mnemonic (i : Instr) : String :=
  match i with
  | .init => "INIT"
  | .setWindow .. => "SET_WINDOW"
  | .fillColor .. => "FILL_COLOR"
  | .drawPixel .. => "DRAW_PIXEL"
  | .fillRect .. => "FILL_RECT"
  | .fillRectFast .. => "FILL_RECT_FAST"
  | .fillScreen .. => "FILL_SCREEN"
  | .drawRectangle .. => "DRAW_RECTANGLE"
  | .drawFastHLine .. => "DRAW_FAST_H_LINE"
  | .drawFastVLine .. => "DRAW_FAST_V_LINE"
  | .drawLine .. => "DRAW_LINE"
  | .drawChar .. => "DRAW_CHAR"
  | .drawStringMain .. => "DRAW_STRING_MAIN"
  | .drawBitmap .. => "DRAW_BITMAP"
  | .rotateDisplay .. => "ROTATE_DISPLAY"
  | .drawString .. => "DRAW_STRING"
  | .drawStringWithbg .. => "DRAW_STRING_WITHBG"
  | .wireSoftwareReset => "WIRE_SOFTWARE_RESET"
  | .wireSleepOut => "WIRE_SLEEP_OUT"
  | .wireColorMode => "WIRE_COLOR_MODE"
  | .wireMemoryAccessControl .. => "WIRE_MEMORY_ACCESS_CONTROL"
  | .wireInversionOn => "WIRE_INVERSION_ON"
  | .wireNormalDisplayOn => "WIRE_NORMAL_DISPLAY_ON"
  | .wireDisplayOn => "WIRE_DISPLAY_ON"
  | .wireColumnAddressSet .. => "WIRE_COLUMN_ADDRESS_SET"
  | .wireRowAddressSet .. => "WIRE_ROW_ADDRESS_SET"
  | .wireMemoryWrite => "WIRE_MEMORY_WRITE"

/-- The operands in the assembler's order (R86), each as the number it is written as. -/
def Instr.asmOperands (i : Instr) : List Nat :=
  match i with
  | .init | .wireSoftwareReset | .wireSleepOut | .wireColorMode | .wireInversionOn | .wireNormalDisplayOn
  | .wireDisplayOn | .wireMemoryWrite => []
  | .setWindow x1 y1 x2 y2 => [x1.toNat, y1.toNat, x2.toNat, y2.toNat]
  | .fillColor c n => [c.toNat, n.toNat]
  | .drawPixel x y c => [x.toNat, y.toNat, c.toNat]
  | .fillRect x y w h c | .fillRectFast x y w h c | .drawRectangle x y w h c =>
    [x.toNat, y.toNat, w.toNat, h.toNat, c.toNat]
  | .fillScreen c => [c.toNat]
  | .drawFastHLine x0 y0 z1 t c | .drawFastVLine x0 y0 z1 t c => [x0.toNat, y0.toNat, z1.toNat, t.toNat, c.toNat]
  | .drawLine x0 y0 x1 y1 t c => [x0.toNat, y0.toNat, x1.toNat, y1.toNat, t.toNat, c.toNat]
  | .drawChar x y fg bg g b => [x.toNat, y.toNat, fg.toNat, bg.toNat, g.toNat, b.toNat]
  | .drawStringMain x y s fg bg f b => [x.toNat, y.toNat, s.toNat, fg.toNat, bg.toNat, f.toNat, b.toNat]
  | .drawString x y s fg bg f | .drawStringWithbg x y s fg bg f =>
    [x.toNat, y.toNat, s.toNat, fg.toNat, bg.toNat, f.toNat]
  | .drawBitmap x y m => [x.toNat, y.toNat, m.toNat]
  | .rotateDisplay r => [r.toNat]
  | .wireMemoryAccessControl p => [p.toNat]
  | .wireColumnAddressSet a b | .wireRowAddressSet a b => [a.toNat, b.toNat]

/-! ## A table word -/

/-- The word count of R81 that a header's OPC fixes; 1 for an OPC outside the map. -/
def wordCount (hd : Word) : Nat :=
  match findOp (hiByte hd) with
  | some o => (opRow o).words
  | none => 1

/-- The first n words of the bits w, numbered as the opcode table numbers them. -/
def wordsOf (w n : Nat) : List Word := (List.range n).map fun k => BitVec.ofNat 16 (w >>> (16 * k))

/-- The first n bytes of the bits w. -/
def bytesOf (w n : Nat) : List Byte := (List.range n).map fun k => BitVec.ofNat 8 (w >>> (8 * k))

/-- What the bits w of a table row of nbits bits lay out: a row of 16 bits or more is a descriptor, with argument words
of zeros up to the count its OPC fixes (R82); a row of fewer is a wire command, with data bytes of zeros. -/
def tableFetched (nbits w : Nat) : Fetched :=
  if nbits < 16 then .wire (bytesOf w (max (nbits / 8) (wireLength (BitVec.ofNat 8 w))))
  else .descriptor (wordsOf w (max ((nbits + 15) / 16) (wordCount (BitVec.ofNat 16 w))))

/-- The instruction the decoder reads from a table row's word. -/
def decodeTableWord (nbits w : Nat) : Option Instr :=
  match decode (tableFetched nbits w) with
  | .ok i => some i
  | .error _ => none

end Sys2Proof
end

