-- ==== Sys2Proof/Machine/State.lean ====
section
/-! DEFINITION. The state of the machine as plain data: the block (spec/10_state.md), the asset store it reads
(spec/20_memory.md §2), the reference panel observer on its wire (spec/20_memory.md §5), and the host's pending actions
(spec/60_exceptions.md §5). -/

namespace Sys2Proof.Machine

/-! ## Memory: sparse data by key -/

/-- A partial map from keys to values as a list of pairs in one canonical form (`Memory.wf`): keys strictly rising, so
equal maps are equal lists. An unlisted key holds no value: an asset handle that does not resolve (R47), a pixel whose
colour is unknown (R64). -/
abbrev Memory (α : Type) := List (Nat × α)

/-! ## Assets (R47 to R51) -/

/-- GLYPH record (R48). -/
structure Glyph where
  w : Word
  h : Word
  bpr : Byte
  bits : List Byte
  deriving DecidableEq, Repr

/-- FONT record (R49): the entries (code[i], glyph[i]) in order. -/
structure Font where
  entries : List (Nat × Handle)
  deriving DecidableEq, Repr

/-- BITMAP record (R50). -/
structure Bitmap where
  w : Word
  h : Word
  data : List Byte
  deriving DecidableEq, Repr

/-- An asset of one of the four kinds (R47). A STRING is its byte sequence (R51). -/
inductive Asset
  | glyph (g : Glyph)
  | font (f : Font)
  | bitmap (b : Bitmap)
  | string (bytes : List Byte)
  deriving DecidableEq, Repr

/-! ## The wire and the panel observer -/

/-- An output event (R35). -/
inductive Event
  | cmd (b : Byte)   -- a byte with DC = 0
  | dat (b : Byte)   -- a byte with DC = 1
  | csAssert
  | csRelease
  | settle
  | xportEnable
  deriving DecidableEq, Repr

/-- The level of the chip-select line (R34), which exists in PER_GROUP mode only. In NONE mode the block does not drive it:
DESIGN CHOICE the model holds it released there (assumption 13). -/
inductive CsLevel
  | released
  | asserted
  deriving DecidableEq, Repr

/-- The panel observer (R64). The fields after `undef` are its parse of the wire: the data bytes that belong to the last
command (R65, R88), the first byte of a pixel pair (R67), and whether the next command is the first of an INIT (R69). -/
structure Panel where
  xs : Word
  xe : Word
  ys : Word
  ye : Word
  px : Int
  py : Int
  armed : Bool
  gram : Memory Word
  undef : Bool
  lastCmd : Option Byte
  args : List Byte
  pairHi : Option Byte
  initFirst : Bool
  deriving DecidableEq, Repr

/-! ## Working registers (R36 to R40) -/

/-- The glyph bit cursor (R38). -/
structure GlyphCursor where
  idx : Long    -- gb_idx
  cur : Byte    -- gb_cur
  rem : Byte    -- gb_rem
  mask : Byte   -- gb_mask
  deriving DecidableEq, Repr

/-- The line stepper (R39). -/
structure LineRegs where
  sx : Int
  sy : Int
  dmaj : Int
  dmin : Int
  inc : Int
  d : Int       -- D
  deriving DecidableEq, Repr

/-- The string layout cursor (R40); `spH = none` is the pseudocode's own "sp_h = none" (R146). -/
structure StringCursor where
  cx : Word
  cy : Word
  xStart : Word
  si : Long
  spH : Option Word
  deriving DecidableEq, Repr

/-- The working register file (R37). The operand latch holds what was accepted whole (R76); no other field holds it. -/
structure Work where
  latch : Fetched
  nLeft : Long   -- n_left
  cw : Word
  ch : Word
  glyph : GlyphCursor
  line : LineRegs
  string : StringCursor
  k : Long
  deriving DecidableEq, Repr

/-! ## Sequencer, status, host -/

/-- SEQ (R43). What is running while BUSY stands in the operand latch (R37). -/
inductive Seq
  | idle
  | busy
  | halted
  deriving DecidableEq, Repr

/-- The bits of STATUS (R22, R27 to R29). -/
structure Status where
  busy : Bool
  fault : Bool
  inited : Bool
  deriving DecidableEq, Repr

/-- The faults of the block (R178). They are entered as a next state (`State.raiseFault`), not a stop of the machine. -/
inductive FaultCode
  | illegalOp
  | badAsset
  | assetRange
  | glyphFormat
  | noSpaceGlyph
  deriving DecidableEq, Repr

/-- What the host does (R194), in the order it does it. An offer that is not accepted yet stays first in the list while
the block is BUSY: the host holds it (R183). A read or a reset can stand anywhere: before what is running ends, or, after
a wait, once it has ended or faulted. -/
inductive HostAction
  | offer (words : List Word)                   -- offer a descriptor on the operation port
  | readReg (index : Nat)                       -- read a register through the register read port
  | blockReset                                  -- assert block reset
  | putAsset (h : Handle) (a : Option Asset)    -- change what a handle resolves to
  | wait                                        -- do nothing, until no operation is BUSY
  deriving DecidableEq, Repr

/-- The machine. -/
structure State where
  params : Params          -- R9: fixed for the life of the block
  w : Word                 -- R23
  h : Word                 -- R24
  orient : BitVec 2        -- R25
  status : Status          -- R27, R28, R29
  faultCode : Byte         -- R30
  seq : Seq                -- R43
  dc : Bool                -- R33: the command/data select line, high is true
  cs : CsLevel             -- R34
  trace : List Event       -- R35, oldest first
  work : Work              -- R36 to R40, the operand latch among them
  assets : Memory Asset    -- R47: ASSET_RESOLVE, keyed by the handle
  panel : Panel            -- R64: the observer on the wire, no part of the block
  host : List HostAction   -- R194: what the host does next, soonest first
  readData : Word          -- the value the register read port last returned (R22, R32)
  free : Nat               -- the model's own: how many free values have been taken
  deriving DecidableEq, Repr

/-! ## Stops -/

/-- How the machine stops without a next state. -/
inductive Fault
  /-- Raised by `step` alone, in HALTED, when the host neither reads a register, changes an asset, waits nor asserts
  block reset, now or after the offers it makes: an offer is never accepted and the block makes no further step (R183; I39). Safe: the spec calls it stuck. -/
  | halted
  deriving DecidableEq, Repr

/-- Why an instruction has no meaning. -/
inductive Refusal
  /-- An instruction without a meaning in exec; no arm raises it. Safe. -/
  | notModelled (mnemonic : String)
  deriving DecidableEq, Repr

/-! ## Reset -/

/-- The working registers of `State.reset`. R36 and R44 leave them undefined: DESIGN CHOICE zero (assumption 6), and no
words in the operand latch (assumption 14). -/
def Work.zero : Work where
  latch := .descriptor []
  nLeft := 0
  cw := 0
  ch := 0
  glyph := ⟨0, 0, 0, 0⟩
  line := ⟨0, 0, 0, 0, 0, 0⟩
  string := ⟨0, 0, 0, 0, none⟩
  k := 0

/-- The panel observer of `State.reset`: ARMED false, GRAM empty, UNDEF true (R64). The window and the cursor are
unspecified: DESIGN CHOICE zero (assumption 6). -/
def Panel.reset : Panel where
  xs := 0
  xe := 0
  ys := 0
  ye := 0
  px := 0
  py := 0
  armed := false
  gram := []
  undef := true
  lastCmd := none
  args := []
  pairHi := none
  initFirst := false

/-- The block with parameters p right after block reset (R44, R200): nothing resolves, nothing is pending. DC and the
read port's data have no reset value: DESIGN CHOICE low and zero (assumption 6). CS is released in PER_GROUP mode (R44);
in NONE mode the line is not the block's to drive, and released is a DESIGN CHOICE (assumption 13). -/
def State.resetWith (p : Params) : State where
  params := p
  w := p.panelW
  h := p.panelH
  orient := 0
  status := ⟨false, false, false⟩
  faultCode := 0
  seq := .idle
  dc := false
  cs := .released
  trace := []
  work := Work.zero
  assets := []
  panel := Panel.reset
  host := []
  readData := 0
  free := 0

/-- The machine right after reset. -/
def State.reset : State := State.resetWith Config.params

end Sys2Proof.Machine
end

