-- ==== Sys2Proof/Machine/Operands.lean ====
section
/-! DEFINITION. Operand forms and the arithmetic on them: integers, lo16, clipping, dimensions (spec/00_scope.md R11). -/

namespace Sys2Proof.Machine

/-- lo16 (R11): an integer reduced modulo 2^16, negative ones too. -/
def lo16 (v : Int) : Word := BitVec.ofInt 16 v

/-- hi8 of an integer (R11). -/
def hi8 (v : Int) : Byte := hiByte (lo16 v)

/-- lo8 of an integer (R11). -/
def lo8 (v : Int) : Byte := loByte (lo16 v)

/-- A u16 operand in ℤ, zero-extended (R79). -/
def zext (v : Word) : Int := v.toNat

/-- The four data bytes of two coordinates, each high byte first (R56, R97). -/
def coordBytes (a b : Int) : List Byte := [hi8 a, lo8 a, hi8 b, lo8 b]

/-- n copies of a colour, each high byte then low byte (R90, R100). -/
def pixelBytes (color : Word) (n : Nat) : List Byte := (List.replicate n [hiByte color, loByte color]).flatten

/-- RectClip against a surface of width bw and height bh (R107): none is NOOP, else the clipped width and height. The
tests and sums are in ℕ, so they never wrap. -/
def rectClip (bw bh x y w h : Word) : Option (Word × Word) :=
  if x.toNat ≥ bw.toNat ∨ y.toNat ≥ bh.toNat ∨ w = 0 ∨ h = 0 then none
  else
    let cw := if x.toNat + w.toNat > bw.toNat then bw - x else w
    let ch := if y.toNat + h.toNat > bh.toNat then bh - y else h
    some (cw, ch)

/-- ROT_DIMS (R9, R166). -/
def rotDims (p : Params) (r : BitVec 2) : Word × Word :=
  if r = 0 ∨ r = 2 then (p.panelW, p.panelH) else (p.panelH, p.panelW)

/-- MADCTL_PAT[r] (R9, R165). -/
def madctl (p : Params) (r : BitVec 2) : Byte := p.madctlPat[r.toNat]'(by have := r.isLt; omega)

/-- A rotation operand modulo 4 (R164): its two low bits. -/
def rotMode (rotation : Byte) : BitVec 2 := rotation.setWidth 2

/-- The quotient rounded up; 0 when the divisor is 0. -/
def ceilDiv (a b : Nat) : Nat := (a + b - 1) / b

end Sys2Proof.Machine
end

