-- ==== Sys2Proof/Machine/Flags.lean ====
section
/-! DEFINITION. The flag-like state (spec/10_state.md R42): STATUS, FAULT_CODE, and the register map that shows them.
The block has no condition codes: no operation sets a flag for a later one to read. -/

namespace Sys2Proof.Machine

/-- A flag as a 16-bit value with that one bit. -/
def flagBit (b : Bool) (pos : Nat) : Word := if b then BitVec.twoPow 16 pos else 0

/-- STATUS as the register reads (R22): BUSY bit 0, FAULT bit 1, INITED bit 2, the rest 0. -/
def Status.word (st : Status) : Word := flagBit st.busy 0 ||| flagBit st.fault 1 ||| flagBit st.inited 2

/-- The codes of R178. -/
def FaultCode.code (c : FaultCode) : Byte :=
  match c with
  | .illegalOp => 0x01
  | .badAsset => 0x02
  | .assetRange => 0x03
  | .glyphFormat => 0x04
  | .noSpaceGlyph => 0x05

/-- CONFIG as the register reads (R22, R31). -/
def configWord (p : Params) : Word :=
  match p.csMode with
  | .none => 0
  | .perGroup => 1

/-- A register through the read port, by index (R22); every index outside the map reads 0 (R32). -/
def State.reg (s : State) (index : Nat) : Word :=
  match index with
  | 0 => s.w
  | 1 => s.h
  | 2 => s.orient.setWidth 16
  | 3 => s.status.word
  | 4 => s.faultCode.setWidth 16
  | 5 => configWord s.params
  | _ => 0

/-- The registers whose read while BUSY returns the value before or after the running operation's write (R32; I16). -/
def isSurfaceReg (index : Nat) : Bool := index == 0 || index == 1 || index == 2

end Sys2Proof.Machine
end

