-- ==== Sys2Proof/Machine/Memory.lean ====
section
/-! DEFINITION. The operations over sparse memory: the asset store (R47) and the observer's GRAM (R64). -/

namespace Sys2Proof.Machine

/-- The keys of m all lie above k and rise strictly. -/
def Memory.above {α : Type} (k : Nat) (m : Memory α) : Bool :=
  match m with
  | [] => true
  | (a, _) :: rest => decide (k < a) && Memory.above a rest

/-- The canonical form: keys rise strictly. No listed entry can equal what an unlisted key holds, which is no value. -/
def Memory.wf {α : Type} (m : Memory α) : Bool :=
  match m with
  | [] => true
  | (a, _) :: rest => Memory.above a rest

/-- What a key holds. -/
def Memory.read {α : Type} (m : Memory α) (key : Nat) : Option α :=
  match m with
  | [] => none
  | (a, v) :: rest => if key = a then some v else Memory.read rest key

/-- Store a value at a key, in its place. -/
def Memory.write {α : Type} (m : Memory α) (key : Nat) (v : α) : Memory α :=
  match m with
  | [] => [(key, v)]
  | (a, u) :: rest =>
    if key < a then (key, v) :: (a, u) :: rest
    else if key = a then (key, v) :: rest
    else (a, u) :: Memory.write rest key v

/-- Take a key's value away. -/
def Memory.erase {α : Type} (m : Memory α) (key : Nat) : Memory α :=
  match m with
  | [] => []
  | (a, u) :: rest => if key = a then rest else (a, u) :: Memory.erase rest key

/-- Store a value, or take it away. -/
def Memory.put {α : Type} (m : Memory α) (key : Nat) (v : Option α) : Memory α :=
  match v with
  | some u => Memory.write m key u
  | none => Memory.erase m key

/-- The key of the pixel in a column and a row, both u16 (R64). -/
def pixelKey (col row : Nat) : Nat := row * 65536 + col

end Sys2Proof.Machine
end

