-- ==== Sys2Proof/Machine/Panel.lean ====
section
/-! DEFINITION. The panel observer (spec/20_memory.md §5): what the window commands and the pixel data do on the display
side, and when the observer stops predicting (UNDEF). -/

namespace Sys2Proof.Machine

/-- How many data bytes the command the observer last saw takes as its own (R65, R89). The pixel stream of 0x2C is not
among them: it is taken while ARMED. -/
def dataCount (cmd : Option Byte) : Nat :=
  match cmd with
  | some c => if c = 0x2A ∨ c = 0x2B then 4 else if c = 0x3A ∨ c = 0x36 then 1 else 0
  | none => 0

/-- A command ends what came before it. That leaves the observer undefined when a window command had other than four
data bytes (R65), or when a memory write ended on an odd data byte (R68). -/
def Panel.dangling (q : Panel) : Bool :=
  ((q.lastCmd == some 0x2A || q.lastCmd == some 0x2B) && q.args.length != 4) || (q.armed && q.pairHi.isSome)

/-- The end of whatever command or memory write was in progress, and the new command taken note of (R65, R68). -/
def Panel.startCmd (q : Panel) (b : Byte) : Panel :=
  { q with undef := q.undef || q.dangling, armed := false, lastCmd := some b, args := [], pairHi := none,
           initFirst := false }

/-- A command byte (R65, R66, R68, R69). -/
def Panel.takeCmd (q : Panel) (b : Byte) : Panel :=
  let q' := q.startCmd b
  if b = 0x2C then
    { q' with armed := true, px := zext q'.xs, py := zext q'.ys,
              undef := q'.undef || decide (q'.xs.toNat > q'.xe.toNat) || decide (q'.ys.toNat > q'.ye.toNat) }
  else if b = 0x01 then { q' with undef := q'.undef || !q.initFirst }
  else if b = 0x36 then { q' with gram := [] }
  else q'

/-- The cursor after one pixel: columns first, then rows (R67). -/
def Panel.advance (q : Panel) : Panel :=
  if q.px + 1 > zext q.xe then { q with px := zext q.xs, py := q.py + 1 } else { q with px := q.px + 1 }

/-- Whether the cursor lies in the only range known to be good, PANEL_W × PANEL_H (R69). -/
def Panel.inRange (p : Params) (q : Panel) : Bool :=
  decide (0 ≤ q.px) && decide (q.px < zext p.panelW) && decide (0 ≤ q.py) && decide (q.py < zext p.panelH)

/-- One pixel pair while ARMED (R67): written at the cursor, unless the window is full (R67) or the cursor is out of
range (R69), which leave the observer undefined. -/
def Panel.takePixel (p : Params) (q : Panel) (color : Word) : Panel :=
  let q' :=
    if q.py > zext q.ye then { q with undef := true }
    else if q.inRange p then { q with gram := Memory.write q.gram (pixelKey q.px.toNat q.py.toNat) color }
    else { q with undef := true }
  q'.advance

/-- The window registers, once all four data bytes of a window command are in (R65). -/
def Panel.setWindowRegs (q : Panel) : Panel :=
  match q.args with
  | [b0, b1, b2, b3] =>
    if q.lastCmd = some 0x2A then { q with xs := joinBytes b0 b1, xe := joinBytes b2 b3 }
    else if q.lastCmd = some 0x2B then { q with ys := joinBytes b0 b1, ye := joinBytes b2 b3 }
    else q
  | _ => q

/-- A data byte: half a pixel while ARMED (R67), one of the last command's own data bytes (R65, R89), or neither, which
leaves the observer undefined (R65, R68). -/
def Panel.takeDat (p : Params) (q : Panel) (b : Byte) : Panel :=
  if q.armed then
    match q.pairHi with
    | none => { q with pairHi := some b }
    | some hi => Panel.takePixel p { q with pairHi := none } (joinBytes hi b)
  else if q.args.length < dataCount q.lastCmd then Panel.setWindowRegs { q with args := q.args ++ [b] }
  else { q with undef := true }

/-- What one event on the wire does to the observer. Chip select and settle gaps do nothing to it; XportEnable is the
first event of an INIT, so the command after it is INIT's first (R69, R202). -/
def Panel.observe (p : Params) (q : Panel) (e : Event) : Panel :=
  match e with
  | .cmd b => q.takeCmd b
  | .dat b => q.takeDat p b
  | .csAssert => q
  | .csRelease => q
  | .settle => q
  | .xportEnable => { q with initFirst := true }

/-- The observer when INIT completes (R204): defined, not armed, every pixel unknown; the window and the cursor are
unspecified (I13), so free values numbered from n. -/
def Panel.afterInit (q : Panel) (n : Nat) : Panel :=
  { q with undef := false, armed := false, gram := [],
           xs := Config.freeWord n, xe := Config.freeWord (n + 1),
           ys := Config.freeWord (n + 2), ye := Config.freeWord (n + 3),
           px := Config.freeInt n, py := Config.freeInt (n + 1) }

/-- The observer at block reset (R64, R200): undefined, not armed, every pixel unknown; the window and the cursor are
unspecified (I13), so free values numbered from n. -/
def Panel.atReset (n : Nat) : Panel :=
  { Panel.reset with
    xs := Config.freeWord n, xe := Config.freeWord (n + 1),
    ys := Config.freeWord (n + 2), ye := Config.freeWord (n + 3),
    px := Config.freeInt n, py := Config.freeInt (n + 1) }

/-- The colour of a pixel, if it is known (R64). -/
def Panel.pixel (q : Panel) (col row : Nat) : Option Word := Memory.read q.gram (pixelKey col row)

end Sys2Proof.Machine
end

