-- ==== Sys2Proof/Machine/Ops.lean ====
section
/-! DEFINITION. The named operations every meaning is written over: emitting events, the wire subroutines, asset reads,
fault entry, completion and block reset. -/

namespace Sys2Proof.Machine

/-! ## Emitting events (R13) -/

/-- The DC line after an event: a byte sets it to its own level (R13, R33). -/
def dcAfter (dc : Bool) (e : Event) : Bool :=
  match e with
  | .cmd _ => false
  | .dat _ => true
  | .csAssert | .csRelease | .settle | .xportEnable => dc

/-- The CS line after an event (R34). -/
def csAfter (cs : CsLevel) (e : Event) : CsLevel :=
  match e with
  | .csAssert => .asserted
  | .csRelease => .released
  | .cmd _ | .dat _ | .settle | .xportEnable => cs

/-- Emit events in order (R13): they are appended to TRACE (R35), drive DC and CS, and reach the panel (R70). -/
def State.emitAll (s : State) (es : List Event) : State :=
  { s with trace := s.trace ++ es,
           dc := es.foldl dcAfter s.dc,
           cs := es.foldl csAfter s.cs,
           panel := es.foldl (Panel.observe s.params) s.panel }

/-- Chip-select edges exist in PER_GROUP mode only (R13, R34). -/
def csEdge (p : Params) (e : Event) : List Event := if p.csMode = .perGroup then [e] else []

/-- The events of WriteCommand (R95): one command byte as its own group. -/
def commandGroup (p : Params) (c : Byte) : List Event := csEdge p .csAssert ++ [.cmd c] ++ csEdge p .csRelease

/-- The events of WriteData (R96): the bytes as one group, and nothing at all for no bytes. -/
def dataGroup (p : Params) (bs : List Byte) : List Event :=
  if bs.isEmpty then [] else csEdge p .csAssert ++ bs.map .dat ++ csEdge p .csRelease

/-- WriteCommand (R95). -/
def State.writeCommand (s : State) (c : Byte) : State := s.emitAll (commandGroup s.params c)

/-- WriteData (R96). -/
def State.writeData (s : State) (bs : List Byte) : State := s.emitAll (dataGroup s.params bs)

/-- A command with the data bytes after it (R88). -/
def State.wireCommand (s : State) (c : Byte) (bs : List Byte) : State := (s.writeCommand c).writeData bs

/-! ## The wire commands (R89) -/

/-- 0x01, software reset. -/
def State.softwareReset (s : State) : State := s.wireCommand 0x01 []

/-- 0x11, sleep-out. -/
def State.sleepOut (s : State) : State := s.wireCommand 0x11 []

/-- 0x3A, color-mode, with the byte 0x55 of 16-bit/65K colours. -/
def State.colorMode (s : State) : State := s.wireCommand 0x3A [0x55]

/-- 0x36, memory-access-control, with its mode-dependent byte. -/
def State.memoryAccessControl (s : State) (pat : Byte) : State := s.wireCommand 0x36 [pat]

/-- 0x21, inversion-on. -/
def State.inversionOn (s : State) : State := s.wireCommand 0x21 []

/-- 0x13, normal-display-on. -/
def State.normalDisplayOn (s : State) : State := s.wireCommand 0x13 []

/-- 0x29, display-on. -/
def State.displayOn (s : State) : State := s.wireCommand 0x29 []

/-- 0x2A, column-address-set, with x1 and x2 each high byte first. -/
def State.columnAddressSet (s : State) (x1 x2 : Int) : State := s.wireCommand 0x2A (coordBytes x1 x2)

/-- 0x2B, row-address-set, with y1 and y2 each high byte first. -/
def State.rowAddressSet (s : State) (y1 y2 : Int) : State := s.wireCommand 0x2B (coordBytes y1 y2)

/-- 0x2C, memory-write: it arms the panel to take a pixel stream. -/
def State.memoryWrite (s : State) : State := s.wireCommand 0x2C []

/-! ## The subroutines every drawing operation ends in -/

/-- SetWindow (R97): no bounds check, each argument reduced by lo16 as it is sent. -/
def State.setWindow (s : State) (x1 y1 x2 y2 : Int) : State :=
  ((s.columnAddressSet x1 x2).rowAddressSet y1 y2).memoryWrite

/-- FillColor (R100): n pixels of one colour as one data group. The blocking is not observable (R102), so n_left (R37)
is shown as it is at the end, 0. -/
def State.fillColor (s : State) (color : Word) (n : Nat) : State :=
  let s' := s.writeData (pixelBytes color n)
  { s' with work := { s'.work with nLeft := 0 } }

/-- A window and a fill of it. -/
def State.fillWindow (s : State) (x1 y1 x2 y2 : Int) (color : Word) (n : Nat) : State :=
  (s.setWindow x1 y1 x2 y2).fillColor color n

/-- Pixel (R105): a 1×1 window and one pixel. -/
def State.pixel (s : State) (x y : Int) (color : Word) : State := s.fillWindow x y x y color 1

/-! ## The end of an operation -/

/-- Normal completion (R27, R43): BUSY → IDLE. -/
def State.complete (s : State) : State := { s with status := { s.status with busy := false }, seq := .idle }

/-- Fault entry, `raise Fault(code)` (R15, R180): FAULT is set, the code recorded, BUSY cleared and SEQ HALTED. The code
of the first fault since reset is never overwritten while FAULT = 1 (R30). -/
def State.raiseFault (s : State) (c : FaultCode) : State :=
  { s with status := { s.status with fault := true, busy := false },
           faultCode := if s.status.fault then s.faultCode else c.code,
           seq := .halted }

/-- The working registers when they are undefined (R36; I15): free values numbered from n. -/
def Work.unspecified (n : Nat) : Work where
  latch := .descriptor (Config.freeWords n)
  nLeft := Config.freeLong n
  cw := Config.freeWord n
  ch := Config.freeWord (n + 1)
  glyph := ⟨Config.freeLong (n + 1), Config.freeByte n, Config.freeByte (n + 1), Config.freeByte (n + 2)⟩
  line := ⟨Config.freeInt n, Config.freeInt (n + 1), Config.freeInt (n + 2), Config.freeInt (n + 3),
           Config.freeInt (n + 4), Config.freeInt (n + 5)⟩
  string := ⟨Config.freeWord (n + 2), Config.freeWord (n + 3), Config.freeWord (n + 4), Config.freeLong (n + 2),
             if Config.freeBit n then some (Config.freeWord (n + 5)) else none⟩
  k := Config.freeLong (n + 3)

/-- Block reset (R44, R200), the only return from a fault (R184): the block's registers as R44 lists them, no wire event,
the panel itself not reset and so no longer predicted (R64). DC, the working registers and the observer's window are
unspecified: free values (I13, I14, I15). Parameters, assets and the host are no state of the block. Two values are a
DESIGN CHOICE: what the read port last returned is kept, as no register of the block holds it (assumption 6), and CS is
released in NONE mode too (assumption 13). -/
def State.blockReset (s : State) : State :=
  { s with w := s.params.panelW, h := s.params.panelH, orient := 0, status := ⟨false, false, false⟩, faultCode := 0,
           seq := .idle, dc := Config.freeBit (s.free + 1), cs := .released, trace := [],
           work := Work.unspecified s.free, panel := Panel.atReset (s.free + 6), free := s.free + 10 }

/-! ## Running and faulting -/

/-- What a piece of an operation's pseudocode does: it runs on with a value, or it raises a fault (R15, R16). The state
is the one reached, with every event emitted before the fault (R180). -/
inductive Flow (α : Type)
  | ok (v : α) (s : State)
  | raised (c : FaultCode) (s : State)
  deriving DecidableEq, Repr

/-- Run on with what comes next, unless a fault was raised. -/
def Flow.bind {α β : Type} (r : Flow α) (next : α → State → Flow β) : Flow β :=
  match r with
  | .ok v s => next v s
  | .raised c s => .raised c s

/-- The end of an operation (R16): complete or faulted. -/
def Flow.finish {α : Type} (r : Flow α) : State :=
  match r with
  | .ok _ s => s.complete
  | .raised c s => s.raiseFault c

/-! ## Assets (R14, R47, R52) -/

/-- Asset(h): what a handle resolves to (R47). -/
def State.resolve (s : State) (h : Handle) : Option Asset := Memory.read s.assets h.toNat

/-- Asset(h) where a GLYPH is expected (R47): BAD_ASSET otherwise. -/
def State.glyphAsset (s : State) (h : Handle) : Flow Glyph :=
  match s.resolve h with
  | some (.glyph g) => .ok g s
  | some (.font _) | some (.bitmap _) | some (.string _) | none => .raised .badAsset s

/-- Asset(h) where a FONT is expected (R47): BAD_ASSET otherwise. -/
def State.fontAsset (s : State) (h : Handle) : Flow Font :=
  match s.resolve h with
  | some (.font f) => .ok f s
  | some (.glyph _) | some (.bitmap _) | some (.string _) | none => .raised .badAsset s

/-- Asset(h) where a BITMAP is expected (R47): BAD_ASSET otherwise. -/
def State.bitmapAsset (s : State) (h : Handle) : Flow Bitmap :=
  match s.resolve h with
  | some (.bitmap b) => .ok b s
  | some (.glyph _) | some (.font _) | some (.string _) | none => .raised .badAsset s

/-- Asset(h) where a STRING is expected (R47): BAD_ASSET otherwise. -/
def State.stringAsset (s : State) (h : Handle) : Flow (List Byte) :=
  match s.resolve h with
  | some (.string bs) => .ok bs s
  | some (.glyph _) | some (.font _) | some (.bitmap _) | none => .raised .badAsset s

/-- MemRead(h, k, 1) on the byte sequence of an asset that has resolved (R14, R52): ASSET_RANGE past its end. -/
def State.memRead (s : State) (bytes : List Byte) (k : Nat) : Flow Byte :=
  match bytes[k]? with
  | some b => .ok b s
  | none => .raised .assetRange s

end Sys2Proof.Machine
end

