-- ==== Sys2Proof/Machine/Bitmaps.lean ====
section
/-! DEFINITION. The Bitmap Blitter (spec/45_bitmap.md): DRAW_BITMAP. -/

namespace Sys2Proof.Machine

/-- How many bytes DRAW_BITMAP reads (R50, R160). -/
def bitmapBytes (b : Bitmap) : Nat := 2 * b.w.toNat * b.h.toNat

/-- DRAW_BITMAP once its bitmap has resolved (R160): the length check before any event, the window, then the stored bytes
verbatim as one group (R57). k is left at the number of bytes sent (R37; assumption 10). -/
def State.blit (s : State) (b : Bitmap) (x y : Int) : Flow Unit :=
  if b.data.length < bitmapBytes b then .raised .assetRange s
  else
    let s := s.setWindow x y (x + zext b.w - 1) (y + zext b.h - 1)
    let s := s.writeData (b.data.take (bitmapBytes b))
    .ok () { s with work := { s.work with k := BitVec.ofNat 32 (bitmapBytes b) } }

/-- DRAW_BITMAP (R160): neither reads nor writes W, H or ORIENT (R162). -/
def execDrawBitmap (x y : Word) (bitmap : Handle) (s : State) : Host.Outcome State Fault Refusal :=
  .next ((s.bitmapAsset bitmap).bind fun b s => s.blit b (zext x) (zext y)).finish

end Sys2Proof.Machine
end

