-- ==== Sys2Proof/Machine/Glyphs.lean ====
section
/-! DEFINITION. The Glyph/Font Renderer (spec/44_glyph_string.md): the glyph bit cursor, DRAW_CHAR, font lookup,
DRAW_STRING_MAIN and the two pseudo-operations. -/

namespace Sys2Proof.Machine

/-! ## The glyph bit cursor -/

/-- GbLoad (R140): the next packed byte, with the mask at 0x80 (R58). -/
def State.gbLoad (s : State) (g : Glyph) : Flow Unit :=
  (s.memRead g.bits s.work.glyph.idx.toNat).bind fun b s =>
    .ok () { s with work := { s.work with
      glyph := { idx := s.work.glyph.idx + 1, cur := b, rem := g.bpr, mask := 0x80 } } }

/-- GbNext (R141): a load when no bits remain, then the bit under the mask; true is 1, background. -/
def State.gbNext (s : State) (g : Glyph) : Flow Bool :=
  (if s.work.glyph.rem = 0 then s.gbLoad g else .ok () s).bind fun _ s =>
    .ok (s.work.glyph.cur &&& s.work.glyph.mask != 0)
      { s with work := { s.work with
        glyph := { s.work.glyph with mask := s.work.glyph.mask >>> 1, rem := s.work.glyph.rem - 1 } } }

/-- Which byte of a glyph's packed bits holds pixel (i, j), and how far below the top bit (R91). -/
def glyphPlace (realign : Bool) (g : Glyph) (i j : Nat) : Nat × Nat :=
  if realign then (i * ceilDiv g.h.toNat g.bpr.toNat + j / g.bpr.toNat, j % g.bpr.toNat)
  else ((i * g.h.toNat + j) / g.bpr.toNat, (i * g.h.toNat + j) % g.bpr.toNat)

/-- GlyphBit (R91, R144): the closed form of the bit at column i and row j. No meaning uses it. -/
def glyphBit (realign : Bool) (g : Glyph) (i j : Nat) : Bool :=
  ((g.bits[(glyphPlace realign g i j).1]?).getD 0).getLsbD (7 - (glyphPlace realign g i j).2)

/-! ## DRAW_CHAR -/

/-- What DrawChar is called with, beside the glyph. -/
structure CharArgs where
  x : Int
  y : Int
  fg : Word
  bg : Word
  hasBg : Bool
  deriving DecidableEq, Repr

/-- How many bytes a glyph needs (R142). -/
def glyphNeed (realign : Bool) (g : Glyph) : Nat :=
  if realign then g.w.toNat * ceilDiv g.h.toNat g.bpr.toNat else ceilDiv (g.w.toNat * g.h.toNat) g.bpr.toNat

/-- One pixel of a glyph (R142): background only with has_bg, ink always. -/
def State.glyphPixel (s : State) (a : CharArgs) (i j : Nat) (bit : Bool) : State :=
  if bit then (if a.hasBg then s.pixel (a.x + i) (a.y + j) a.bg else s) else s.pixel (a.x + i) (a.y + j) a.fg

/-- n rows of column i from row j on (R142). -/
def State.glyphRows (g : Glyph) (a : CharArgs) (i n j : Nat) (s : State) : Flow Unit :=
  match n with
  | 0 => .ok () s
  | k + 1 => (s.gbNext g).bind fun bit s => State.glyphRows g a i k (j + 1) (s.glyphPixel a i j bit)

/-- The end of a column (R141): with GLYPH_COLUMN_REALIGN the next one starts a fresh byte. -/
def State.endColumn (s : State) : State :=
  if s.params.glyphColumnRealign then
    { s with work := { s.work with glyph := { s.work.glyph with rem := 0 } } }
  else s

/-- n columns from column i on (R142). -/
def State.glyphColumns (g : Glyph) (a : CharArgs) (n i : Nat) (s : State) : Flow Unit :=
  match n with
  | 0 => .ok () s
  | k + 1 => (State.glyphRows g a i g.h.toNat 0 s).bind fun _ s => State.glyphColumns g a k (i + 1) s.endColumn

/-- DrawChar once its glyph has resolved (R142): the two checks, both before any event, then the columns. -/
def State.drawGlyph (s : State) (g : Glyph) (a : CharArgs) : Flow Unit :=
  if g.bpr = 0 ∨ g.bpr.toNat > 8 then .raised .glyphFormat s
  else if glyphNeed s.params.glyphColumnRealign g > g.bits.length then .raised .assetRange s
  else
    State.glyphColumns g a g.w.toNat 0
      { s with work := { s.work with glyph := { s.work.glyph with idx := 0, rem := 0 } } }

/-- DrawChar (R142). -/
def State.drawChar (s : State) (gh : Handle) (a : CharArgs) : Flow Unit :=
  (s.glyphAsset gh).bind fun g s => s.drawGlyph g a

/-! ## Fonts -/

/-- FontLookup (R145): linear scan, first match wins. -/
def fontLookup (entries : List (Nat × Handle)) (c : Nat) : Option Handle :=
  match entries with
  | [] => none
  | (code, gh) :: rest => if code = c then some gh else fontLookup rest c

/-- SpaceH (R146): the space glyph's height, found once for each string. -/
def State.spaceH (s : State) (f : Font) : Flow Word :=
  match s.work.string.spH with
  | some h => .ok h s
  | none =>
    match fontLookup f.entries 0x20 with
    | none => .raised .noSpaceGlyph s
    | some gh => (s.glyphAsset gh).bind fun g s =>
        .ok g.h { s with work := { s.work with string := { s.work.string with spH := some g.h } } }

/-! ## String layout -/

/-- What DRAW_STRING_MAIN draws every character with. -/
structure TextStyle where
  fg : Word
  bg : Word
  hasBg : Bool
  deriving DecidableEq, Repr

/-- Move the pen: a store to cx, reduced by lo16 (R147). -/
def State.setCx (s : State) (v : Word) : State :=
  { s with work := { s.work with string := { s.work.string with cx := v } } }

/-- Move the pen: a store to cy, reduced by lo16 (R147). -/
def State.setCy (s : State) (v : Word) : State :=
  { s with work := { s.work with string := { s.work.string with cy := v } } }

/-- LineAdv (R148): how far a wrap moves down, by WRAP_ADVANCE. -/
def State.lineAdv (s : State) (f : Font) (g : Glyph) : Flow Word :=
  match s.params.wrapAdvance with
  | .spaceH => s.spaceH f
  | .glyphH => .ok g.h s

/-- The bottom test (R148): whether the glyph passes the bottom edge at the pen. The sum does not wrap. -/
def State.pastBottom (s : State) (g : Glyph) : Bool := decide (s.work.string.cy.toNat + g.h.toNat > s.h.toNat)

/-- The right-edge test and its wrap (R148). The sum of the test does not wrap. -/
def State.wrapRight (s : State) (f : Font) (g : Glyph) : Flow Unit :=
  if s.work.string.cx.toNat + g.w.toNat > s.w.toNat then
    let s := s.setCx s.work.string.xStart
    (s.lineAdv f g).bind fun adv s => .ok () (s.setCy (s.work.string.cy + adv))
  else .ok () s

/-- Draw a glyph at the pen and advance it by the glyph's width (R148). -/
def State.penGlyph (s : State) (g : Glyph) (gh : Handle) (st : TextStyle) : Flow Bool :=
  (s.drawChar gh ⟨zext s.work.string.cx, zext s.work.string.cy, st.fg, st.bg, st.hasBg⟩).bind fun _ s =>
    .ok true (s.setCx (s.work.string.cx + g.w))

/-- A printable character whose glyph has resolved (R148), in the order of LAYOUT_ORDER (D21). The answer is whether the
string goes on. -/
def State.placeGlyph (s : State) (f : Font) (g : Glyph) (gh : Handle) (st : TextStyle) : Flow Bool :=
  match s.params.layoutOrder with
  | .bottomFirst =>
    if s.pastBottom g then .ok false s
    else (s.wrapRight f g).bind fun _ s => s.penGlyph g gh st
  | .wrapFirst =>
    (s.wrapRight f g).bind fun _ s =>
      if s.pastBottom g then .ok false s else s.penGlyph g gh st

/-- One byte of the string (R147, R148), after si has moved past it. The answer is whether the string goes on. -/
def State.stringByte (s : State) (f : Font) (st : TextStyle) (c : Byte) : Flow Bool :=
  if c = 0x00 then .ok false s
  else if c = 0x0A then
    let s := s.setCx s.work.string.xStart
    (s.spaceH f).bind fun sp s => .ok true (s.setCy (s.work.string.cy + sp))
  else if c = 0x09 then
    (s.spaceH f).bind fun sp s => .ok true (s.setCx (s.work.string.cx + 4 * sp))
  else
    match fontLookup f.entries c.toNat with
    | none => .ok true s
    | some gh => (s.glyphAsset gh).bind fun g s => s.placeGlyph f g gh st

/-- The walk over the rest of the string (R51, R148). -/
def State.walkString (f : Font) (st : TextStyle) (bytes : List Byte) (s : State) : Flow Unit :=
  match bytes with
  | [] => .ok () s
  | c :: rest =>
    let s := { s with work := { s.work with string := { s.work.string with si := s.work.string.si + 1 } } }
    (s.stringByte f st c).bind fun more s => if more then State.walkString f st rest s else .ok () s

/-- The body of DRAW_STRING_MAIN (R148): str resolves before font (R181), then the walk. -/
def State.drawString (s : State) (x y : Word) (str font : Handle) (st : TextStyle) : Flow Unit :=
  (s.stringAsset str).bind fun bytes s =>
    (s.fontAsset font).bind fun f s =>
      State.walkString f st bytes
        { s with work := { s.work with string := { cx := x, cy := y, xStart := x, si := 0, spH := none } } }

/-! ## The meanings -/

/-- DRAW_CHAR (R143). -/
def execDrawChar (x y fg bg : Word) (glyph : Handle) (hasBg : Bool) (s : State) : Host.Outcome State Fault Refusal :=
  .next (s.drawChar glyph ⟨zext x, zext y, fg, bg, hasBg⟩).finish

/-- DRAW_STRING_MAIN (R148). -/
def execDrawStringMain (x y : Word) (str : Handle) (fg bg : Word) (font : Handle) (hasBg : Bool) (s : State) :
    Host.Outcome State Fault Refusal :=
  .next (s.drawString x y str font ⟨fg, bg, hasBg⟩).finish

/-- DRAW_STRING (R87): DRAW_STRING_MAIN with has_bg = 0. -/
def execDrawString (x y : Word) (str : Handle) (fg bg : Word) (font : Handle) (s : State) :
    Host.Outcome State Fault Refusal :=
  .next (s.drawString x y str font ⟨fg, bg, false⟩).finish

/-- DRAW_STRING_WITHBG (R87): DRAW_STRING_MAIN with has_bg = 1. -/
def execDrawStringWithbg (x y : Word) (str : Handle) (fg bg : Word) (font : Handle) (s : State) :
    Host.Outcome State Fault Refusal :=
  .next (s.drawString x y str font ⟨fg, bg, true⟩).finish

end Sys2Proof.Machine
end

