-- ==== Sys2Proof/Machine/Lines.lean ====
section
/-! DEFINITION. The Rasterizer, lines (spec/43_rasterizer_line.md): the fast lines, the thick pixel, the two steppers,
and DRAW_FAST_H_LINE, DRAW_FAST_V_LINE and DRAW_LINE. None of them reads W, H or ORIENT (R126). -/

namespace Sys2Proof.Machine

/-- HLine (R115): a band of t rows from row y0 down. -/
def State.hLine (s : State) (x0 y0 x1 : Int) (t : Nat) (color : Word) : State :=
  let xa := min x0 x1
  let xb := max x0 x1
  s.fillWindow xa y0 xb (y0 + t - 1) color ((xb - xa + 1).toNat * t)

/-- VLine (R117): a band of t columns from column x0 on. -/
def State.vLine (s : State) (x0 y0 y1 : Int) (t : Nat) (color : Word) : State :=
  let ya := min y0 y1
  let yb := max y0 y1
  s.fillWindow x0 ya (x0 + t - 1) yb color ((yb - ya + 1).toNat * t)

/-- Thick (R119): a t×t block with its top-left corner at the sample point. -/
def State.thick (s : State) (px py : Int) (t : Nat) (color : Word) : State :=
  s.fillWindow px py (px + t - 1) (py + t - 1) color (t * t)

/-- The registers of the shallow stepper before its loop (R122), for x0 ≤ x1. -/
def shallowStart (x0 y0 x1 y1 : Int) : LineRegs :=
  let dmaj := x1 - x0
  let dmin := y1 - y0
  if dmin < 0 then ⟨x0, y0, dmaj, -dmin, -1, 2 * -dmin - dmaj⟩ else ⟨x0, y0, dmaj, dmin, 1, 2 * dmin - dmaj⟩

/-- One pass of the shallow stepper's loop (R122), after its thick pixel: y steps when D > 0 (D25). -/
def shallowStep (r : LineRegs) : LineRegs :=
  if r.d > 0 then { r with sx := r.sx + 1, sy := r.sy + r.inc, d := r.d - 2 * r.dmaj + 2 * r.dmin }
  else { r with sx := r.sx + 1, d := r.d + 2 * r.dmin }

/-- The registers of the steep stepper before its loop (R123), for y0 ≤ y1. -/
def steepStart (x0 y0 x1 y1 : Int) : LineRegs :=
  let dmaj := y1 - y0
  let dmin := x1 - x0
  if dmin < 0 then ⟨x0, y0, dmaj, -dmin, -1, 2 * -dmin - dmaj⟩ else ⟨x0, y0, dmaj, dmin, 1, 2 * dmin - dmaj⟩

/-- One pass of the steep stepper's loop (R123), after its thick pixel: x steps when D > 0 (D25). -/
def steepStep (r : LineRegs) : LineRegs :=
  if r.d > 0 then { r with sx := r.sx + r.inc, sy := r.sy + 1, d := r.d - 2 * r.dmaj + 2 * r.dmin }
  else { r with sy := r.sy + 1, d := r.d + 2 * r.dmin }

/-- n passes of a stepper's loop from registers r: a thick pixel at the sample point, then the step. -/
def State.stepLine (next : LineRegs → LineRegs) (t : Nat) (color : Word) (n : Nat) (r : LineRegs) (s : State) : State :=
  match n with
  | 0 => { s with work := { s.work with line := r } }
  | k + 1 => State.stepLine next t color k (next r) (s.thick r.sx r.sy t color)

/-- Shallow (R122): the endpoints are exchanged so that x0 ≤ x1, then one thick pixel per column. -/
def State.shallow (s : State) (x0 y0 x1 y1 : Int) (t : Nat) (color : Word) : State :=
  if x0 > x1 then State.stepLine shallowStep t color (x0 - x1 + 1).toNat (shallowStart x1 y1 x0 y0) s
  else State.stepLine shallowStep t color (x1 - x0 + 1).toNat (shallowStart x0 y0 x1 y1) s

/-- Steep (R123): the endpoints are exchanged so that y0 ≤ y1, then one thick pixel per row. -/
def State.steep (s : State) (x0 y0 x1 y1 : Int) (t : Nat) (color : Word) : State :=
  if y0 > y1 then State.stepLine steepStep t color (y0 - y1 + 1).toNat (steepStart x1 y1 x0 y0) s
  else State.stepLine steepStep t color (y1 - y0 + 1).toNat (steepStart x0 y0 x1 y1) s

/-- The dispatch of DRAW_LINE (R120, R121): equal x first, then equal y, then the octant. -/
def State.drawLine (s : State) (x0 y0 x1 y1 : Int) (t : Nat) (color : Word) : State :=
  if x0 = x1 then s.vLine x0 y0 y1 t color
  else if y0 = y1 then s.hLine x0 y0 x1 t color
  else if (y1 - y0).natAbs < (x1 - x0).natAbs then s.shallow x0 y0 x1 y1 t color
  else s.steep x0 y0 x1 y1 t color

/-- DRAW_FAST_H_LINE (R116). -/
def execDrawFastHLine (x0 y0 x1 : Word) (t : Byte) (color : Word) (s : State) : Host.Outcome State Fault Refusal :=
  .next (s.hLine (zext x0) (zext y0) (zext x1) t.toNat color).complete

/-- DRAW_FAST_V_LINE (R118). -/
def execDrawFastVLine (x0 y0 y1 : Word) (t : Byte) (color : Word) (s : State) : Host.Outcome State Fault Refusal :=
  .next (s.vLine (zext x0) (zext y0) (zext y1) t.toNat color).complete

/-- DRAW_LINE (R120). -/
def execDrawLine (x0 y0 x1 y1 : Word) (t : Byte) (color : Word) (s : State) : Host.Outcome State Fault Refusal :=
  .next (s.drawLine (zext x0) (zext y0) (zext x1) (zext y1) t.toNat color).complete

end Sys2Proof.Machine
end

