-- ==== Sys2Proof/Machine/Rects.lean ====
section
/-! DEFINITION. The Rasterizer, pixels and rectangles (spec/42_rasterizer_rect.md): DRAW_PIXEL, FILL_RECT,
FILL_RECT_FAST, FILL_SCREEN and DRAW_RECTANGLE. -/

namespace Sys2Proof.Machine

/-- RectClip (R107) against W and H, with what follows it: nothing on NOOP, else what the clipped pair is used for, cw and
ch being working registers (R37). -/
def State.clipped (s : State) (x y w h : Word) (draw : Word → Word → State → State) : State :=
  match rectClip s.w s.h x y w h with
  | none => s
  | some (cw, ch) => draw cw ch { s with work := { s.work with cw := cw, ch := ch } }

/-- The events of FILL_RECT (R108): the clipped window, then cw · ch pixels. -/
def State.fillRect (s : State) (x y w h color : Word) : State :=
  s.clipped x y w h fun cw ch s =>
    s.fillWindow (zext x) (zext y) (zext x + zext cw - 1) (zext y + zext ch - 1) color (cw.toNat * ch.toNat)

/-- The outline of DRAW_RECTANGLE (R111): top, bottom (one past), left, right (one past). -/
def State.outline (s : State) (x y cw ch : Int) (color : Word) : State :=
  let s := s.hLine x y (x + cw - 1) 1 color
  let s := s.hLine x (y + ch) (x + cw - 1) 1 color
  let s := s.vLine x y (y + ch - 1) 1 color
  s.vLine (x + cw) y (y + ch - 1) 1 color

/-- DRAW_PIXEL (R106): no bounds check. -/
def execDrawPixel (x y color : Word) (s : State) : Host.Outcome State Fault Refusal :=
  .next (s.pixel (zext x) (zext y) color).complete

/-- FILL_RECT (R108). -/
def execFillRect (x y w h color : Word) (s : State) : Host.Outcome State Fault Refusal :=
  .next (s.fillRect x y w h color).complete

/-- FILL_RECT_FAST (R109): the same window and fill without a test. -/
def execFillRectFast (x y w h color : Word) (s : State) : Host.Outcome State Fault Refusal :=
  .next (s.fillWindow (zext x) (zext y) (zext x + zext w - 1) (zext y + zext h - 1) color
    (w.toNat * h.toNat)).complete

/-- FILL_SCREEN (R110): FILL_RECT of the whole surface, W and H as they are when it starts. -/
def execFillScreen (color : Word) (s : State) : Host.Outcome State Fault Refusal :=
  .next (s.fillRect 0 0 s.w s.h color).complete

/-- DRAW_RECTANGLE (R111). -/
def execDrawRectangle (x y w h color : Word) (s : State) : Host.Outcome State Fault Refusal :=
  .next (s.clipped x y w h fun cw ch s => s.outline (zext x) (zext y) (zext cw) (zext ch) color).complete

end Sys2Proof.Machine
end

