-- ==== Sys2Proof/Machine/Surface.lean ====
section
/-! DEFINITION. The Orientation Manager (spec/46_orientation.md) and the initialization sequence
(spec/70_reset_and_hazards.md §2): ROTATE_DISPLAY and INIT, the two operations that write the surface registers. -/

namespace Sys2Proof.Machine

/-- ORIENT and the dimensions that follow it (R26, R163, R166). -/
def State.setOrient (s : State) (r : BitVec 2) : State :=
  { s with orient := r, w := (rotDims s.params r).1, h := (rotDims s.params r).2 }

/-- The wire sequence of INIT (R202, R203): every command with its data is followed by one settle gap (R208). -/
def State.initSequence (s : State) : State :=
  let s := s.emitAll [.xportEnable]
  let s := s.emitAll (csEdge s.params .csRelease)
  let s := s.softwareReset.emitAll [.settle]
  let s := s.sleepOut.emitAll [.settle]
  let s := s.colorMode.emitAll [.settle]
  let s := (s.memoryAccessControl (madctl s.params Config.orientInit)).emitAll [.settle]
  let s := s.inversionOn.emitAll [.settle]
  let s := s.normalDisplayOn.emitAll [.settle]
  s.displayOn.emitAll [.settle]

/-- What INIT leaves beside its events (R202): the surface registers, INITED, and the observer defined again (R204). -/
def State.afterInit (s : State) : State :=
  let s := s.setOrient Config.orientInit
  { s with status := { s.status with inited := true }, panel := s.panel.afterInit s.free, free := s.free + 4 }

/-- INIT (R202). -/
def execInit (s : State) : Host.Outcome State Fault Refusal := .next s.initSequence.afterInit.complete

/-- ROTATE_DISPLAY (R164): both wire events, then the registers. -/
def execRotateDisplay (rotation : Byte) (s : State) : Host.Outcome State Fault Refusal :=
  .next ((s.memoryAccessControl (madctl s.params (rotMode rotation))).setOrient (rotMode rotation)).complete

end Sys2Proof.Machine
end

