-- ==== Sys2Proof/Machine/Window.lean ====
section
/-! DEFINITION. The Address Window Controller (spec/40_address_window.md) and the Pixel Stream Writer
(spec/41_pixel_stream.md): SET_WINDOW and FILL_COLOR. -/

namespace Sys2Proof.Machine

/-- SET_WINDOW (R98): the window is sent as given. -/
def execSetWindow (x1 y1 x2 y2 : Word) (s : State) : Host.Outcome State Fault Refusal :=
  .next (s.setWindow (zext x1) (zext y1) (zext x2) (zext y2)).complete

/-- FILL_COLOR (R101): n pixels into whatever window the panel has armed. -/
def execFillColor (color : Word) (n : Long) (s : State) : Host.Outcome State Fault Refusal :=
  .next (s.fillColor color n.toNat).complete

end Sys2Proof.Machine
end

