-- ==== Sys2Proof/Machine/Wire.lean ====
section
/-! DEFINITION. The ten wire commands (spec/30_encoding.md R89), each as the one event group or two that the block sends
for it (spec/40_address_window.md R95, R96) and that the panel observer takes (spec/20_memory.md R65 to R69). The table
marks them output_only: SET_WINDOW, INIT, ROTATE_DISPLAY and the drawing operations send them, and none is a descriptor
of the operation port (assumption 3). -/

namespace Sys2Proof.Machine

/-- 0x01, software reset. -/
def execWireSoftwareReset (s : State) : Host.Outcome State Fault Refusal := .next s.softwareReset.complete

/-- 0x11, sleep-out. -/
def execWireSleepOut (s : State) : Host.Outcome State Fault Refusal := .next s.sleepOut.complete

/-- 0x3A, color-mode, with its byte 0x55. -/
def execWireColorMode (s : State) : Host.Outcome State Fault Refusal := .next s.colorMode.complete

/-- 0x36, memory-access-control, with its byte. -/
def execWireMemoryAccessControl (pat : Byte) (s : State) : Host.Outcome State Fault Refusal :=
  .next (s.memoryAccessControl pat).complete

/-- 0x21, inversion-on. -/
def execWireInversionOn (s : State) : Host.Outcome State Fault Refusal := .next s.inversionOn.complete

/-- 0x13, normal-display-on. -/
def execWireNormalDisplayOn (s : State) : Host.Outcome State Fault Refusal := .next s.normalDisplayOn.complete

/-- 0x29, display-on. -/
def execWireDisplayOn (s : State) : Host.Outcome State Fault Refusal := .next s.displayOn.complete

/-- 0x2A, column-address-set, with its four bytes. -/
def execWireColumnAddressSet (x1 x2 : Word) (s : State) : Host.Outcome State Fault Refusal :=
  .next (s.columnAddressSet (zext x1) (zext x2)).complete

/-- 0x2B, row-address-set, with its four bytes. -/
def execWireRowAddressSet (y1 y2 : Word) (s : State) : Host.Outcome State Fault Refusal :=
  .next (s.rowAddressSet (zext y1) (zext y2)).complete

/-- 0x2C, memory-write. -/
def execWireMemoryWrite (s : State) : Host.Outcome State Fault Refusal := .next s.memoryWrite.complete

end Sys2Proof.Machine
end

