-- ==== Sys2Proof/Machine/Dispatch.lean ====
section
/-! DEFINITION. One arm per constructor of Instr. -/

namespace Sys2Proof.Machine

/-- The meaning of an operation that the block has accepted. -/
def exec (i : Instr) (s : State) : Host.Outcome State Fault Refusal :=
  match i with
  | .init => Sys2Proof.Machine.execInit s
  | .setWindow x1 y1 x2 y2 => Sys2Proof.Machine.execSetWindow x1 y1 x2 y2 s
  | .fillColor color n => Sys2Proof.Machine.execFillColor color n s
  | .drawPixel x y color => Sys2Proof.Machine.execDrawPixel x y color s
  | .fillRect x y w h color => Sys2Proof.Machine.execFillRect x y w h color s
  | .fillRectFast x y w h color => Sys2Proof.Machine.execFillRectFast x y w h color s
  | .fillScreen color => Sys2Proof.Machine.execFillScreen color s
  | .drawRectangle x y w h color => Sys2Proof.Machine.execDrawRectangle x y w h color s
  | .drawFastHLine x0 y0 x1 t color => Sys2Proof.Machine.execDrawFastHLine x0 y0 x1 t color s
  | .drawFastVLine x0 y0 y1 t color => Sys2Proof.Machine.execDrawFastVLine x0 y0 y1 t color s
  | .drawLine x0 y0 x1 y1 t color => Sys2Proof.Machine.execDrawLine x0 y0 x1 y1 t color s
  | .drawChar x y fg bg glyph hasBg => Sys2Proof.Machine.execDrawChar x y fg bg glyph hasBg s
  | .drawStringMain x y str fg bg font hasBg => Sys2Proof.Machine.execDrawStringMain x y str fg bg font hasBg s
  | .drawBitmap x y bitmap => Sys2Proof.Machine.execDrawBitmap x y bitmap s
  | .rotateDisplay rotation => Sys2Proof.Machine.execRotateDisplay rotation s
  | .drawString x y str fg bg font => Sys2Proof.Machine.execDrawString x y str fg bg font s
  | .drawStringWithbg x y str fg bg font => Sys2Proof.Machine.execDrawStringWithbg x y str fg bg font s
  | .wireSoftwareReset => Sys2Proof.Machine.execWireSoftwareReset s
  | .wireSleepOut => Sys2Proof.Machine.execWireSleepOut s
  | .wireColorMode => Sys2Proof.Machine.execWireColorMode s
  | .wireMemoryAccessControl pat => Sys2Proof.Machine.execWireMemoryAccessControl pat s
  | .wireInversionOn => Sys2Proof.Machine.execWireInversionOn s
  | .wireNormalDisplayOn => Sys2Proof.Machine.execWireNormalDisplayOn s
  | .wireDisplayOn => Sys2Proof.Machine.execWireDisplayOn s
  | .wireColumnAddressSet x1 x2 => Sys2Proof.Machine.execWireColumnAddressSet x1 x2 s
  | .wireRowAddressSet y1 y2 => Sys2Proof.Machine.execWireRowAddressSet y1 y2 s
  | .wireMemoryWrite => Sys2Proof.Machine.execWireMemoryWrite s

end Sys2Proof.Machine
end

