-- ==== Sys2Proof/Machine/HostPort.lean ====
section
/-! DEFINITION. The host's side of the block (spec/60_exceptions.md R183, R194): acceptance, the run of what was
accepted, register reads, asset changes, and which of them comes next. -/

namespace Sys2Proof.Machine

/-- Acceptance (R76, R183): the descriptor is latched whole (R37), IDLE → BUSY (R43), and the other working registers are
undefined (R36): free values. -/
def State.accept (s : State) (words : List Word) : State :=
  { s with seq := .busy, status := { s.status with busy := true },
           work := { Work.unspecified s.free with latch := .descriptor words }, free := s.free + 6 }

/-- The run of what was accepted and stands in the operand latch, to its end: the decoded operation, or ILLEGAL_OP before
any event (R83). -/
def State.runLatched (s : State) : Host.Outcome State Fault Refusal :=
  match decode s.work.latch with
  | .ok i => exec i s
  | .error _ => .next (s.raiseFault .illegalOp)

/-- A register as it reads once the running operation is over; as it is now where there is no next state. -/
def State.regAfter (s : State) (index : Nat) : Word :=
  match s.runLatched with
  | .next t => t.reg index
  | .fault _ => s.reg index
  | .refused _ => s.reg index

/-- A register read (R22, R32). While BUSY a read of W, H or ORIENT returns the value before or after the running
operation's write, a free choice (I16); every other read returns the register. Nothing else changes but the count of
free values. -/
def State.readRegister (s : State) (index : Nat) : State :=
  match s.seq with
  | .busy =>
    if isSurfaceReg index then
      { s with readData := if Config.freeBit s.free then s.regAfter index else s.reg index, free := s.free + 1 }
    else { s with readData := s.reg index }
  | .idle => { s with readData := s.reg index }
  | .halted => { s with readData := s.reg index }

/-- A change of what a handle resolves to (R194). -/
def State.putAsset (s : State) (h : Handle) (a : Option Asset) : State :=
  { s with assets := Memory.put s.assets h.toNat a }

/-- The host's actions from the first that is not an offer. -/
def passOffers (actions : List HostAction) : List HostAction :=
  match actions with
  | [] => []
  | .offer _ :: rest => passOffers rest
  | .readReg index :: rest => .readReg index :: rest
  | .blockReset :: rest => .blockReset :: rest
  | .putAsset h a :: rest => .putAsset h a :: rest
  | .wait :: rest => .wait :: rest

/-- The host's actions that can still act. In HALTED an offer is never accepted (R183), and what the host does after it
acts all the same: a read, a reset or an asset change is free at any time (R194). -/
def State.pending (s : State) : List HostAction :=
  match s.seq with
  | .idle | .busy => s.host
  | .halted => passOffers s.host

/-- One step of the machine. Block reset and register reads act at any time (R32, R194): before a running operation's end,
or after it behind a wait. A running operation runs to its end before the host's offer is accepted (R183), and before an
asset changes, which is the host's duty for the assets it reads and makes no difference for the others (R74, R194). In
IDLE the block waits (R201); in HALTED it is stuck (R183). -/
def State.advance (s : State) : Host.Outcome State Fault Refusal :=
  match s.pending with
  | .blockReset :: rest => .next { s.blockReset with host := rest }
  | .readReg index :: rest => .next { s.readRegister index with host := rest }
  | .offer words :: rest =>
    match s.seq with
    | .busy => s.runLatched
    | .idle => .next { s.accept words with host := rest }
    | .halted => .fault .halted
  | .putAsset h a :: rest =>
    match s.seq with
    | .busy => s.runLatched
    | .idle | .halted => .next { s.putAsset h a with host := rest }
  | .wait :: rest =>
    match s.seq with
    | .busy => s.runLatched
    | .idle | .halted => .next { s with host := rest }
  | [] =>
    match s.seq with
    | .busy => s.runLatched
    | .idle => .next s
    | .halted => .fault .halted

/-- What was fetched, latched and about to run: the very next step runs it. The host has nothing pending that would come
before it. -/
def State.latch (s : State) (op : Fetched) : State :=
  { s with host := [], seq := .busy, status := { s.status with busy := true }, work := { s.work with latch := op } }

end Sys2Proof.Machine
end

