-- ==== Sys2Proof/Machine/Step.lean ====
section
/-! DEFINITION. One step, and where it fetches its next instruction. -/

namespace Sys2Proof.Machine

/-- One step of the machine (R21, R43, R183). -/
def step (s : State) : Host.Outcome State Fault Refusal := s.advance

/-- s with the instruction of a table row's word latched, so that the next step runs exactly it (assumption 4). The block
fetches nothing (R21): what the operation port has latched is what runs. -/
def State.withFetchWord (s : State) (nbits w : Nat) : State := s.latch (tableFetched nbits w)

end Sys2Proof.Machine
end

