-- ==== Sys2Proof/Safety.lean ====
section
/-! DEFINITION. What counts as a safe state and a safe run, and the words that claims about an operation are written in:
its events as the spec lists them, its completion with its frame, its fault. None of the event lists below is used by a
meaning. -/

namespace Sys2Proof.Machine

/-! ## Invariants of the machine -/

/-- STATUS and FAULT_CODE agree with SEQ (R27, R28, R30, R43): BUSY and FAULT as SEQ says, no code without a fault, and
with one a code of R178. -/
def State.statusAgrees (s : State) : Prop :=
  (s.status.busy = true ↔ s.seq = .busy) ∧
  (s.status.fault = true ↔ s.seq = .halted) ∧
  (s.status.fault = false → s.faultCode = 0) ∧
  (s.status.fault = true → 1 ≤ s.faultCode.toNat ∧ s.faultCode.toNat ≤ 5)

/-- The surface invariant (R26): W and H are the dimensions of the current orientation. -/
def State.surfaceFollows (s : State) : Prop := (s.w, s.h) = rotDims s.params s.orient

/-- Every pixel the observer knows lies in the range known to be good (R69). -/
def gramInRange (p : Params) (m : Memory Word) : Prop :=
  ∀ cell ∈ m, cell.1 % 65536 < p.panelW.toNat ∧ cell.1 / 65536 < p.panelH.toNat

/-- Both sparse memories are in canonical form, and GRAM holds no pixel out of range. -/
def State.memoryOk (s : State) : Prop :=
  Memory.wf s.assets = true ∧ Memory.wf s.panel.gram = true ∧ gramInRange s.params s.panel.gram

/-- Where the wire is in its chip-select groups (R95, R96, R214). -/
inductive GroupState
  | outside     -- between groups
  | opened      -- asserted, nothing sent yet
  | command     -- asserted, one command byte sent
  | data        -- asserted, one data byte or more sent
  deriving DecidableEq, Repr

/-- One event against the group discipline of R95 and R96; none is a breach. In PER_GROUP mode a byte is sent inside a
group only, a group holds one command byte or data bytes alone, and the line may be released again between groups (INIT
releases it first, R202). In NONE mode there are no chip-select events. -/
def groupStep (m : CsMode) (g : GroupState) (e : Event) : Option GroupState :=
  match m, e, g with
  | .none, .cmd _, .outside | .none, .dat _, .outside => some .outside
  | .none, .settle, .outside | .none, .xportEnable, .outside => some .outside
  | .perGroup, .settle, .outside | .perGroup, .xportEnable, .outside => some .outside
  | .perGroup, .csAssert, .outside => some .opened
  | .perGroup, .cmd _, .opened => some .command
  | .perGroup, .dat _, .opened | .perGroup, .dat _, .data => some .data
  | .perGroup, .csRelease, .command | .perGroup, .csRelease, .data | .perGroup, .csRelease, .outside => some .outside
  | _, _, _ => none

/-- The group state after a list of events, none once the discipline is breached. -/
def groupsAfter (m : CsMode) (g : GroupState) (es : List Event) : Option GroupState :=
  match es with
  | [] => some g
  | e :: rest => (groupStep m g e).bind fun g' => groupsAfter m g' rest

/-- TRACE obeys the group discipline and no group is open (R214): the line is released. -/
def State.groupsClosed (s : State) : Prop :=
  groupsAfter s.params.csMode .outside s.trace = some .outside ∧ s.cs = .released

/-- A state that a run from reset can be in. -/
structure State.Safe (s : State) : Prop where
  status : s.statusAgrees
  surface : s.surfaceFollows
  memory : s.memoryOk
  groups : s.groupsClosed

/-! ## The events of the wire protocol, as spec/95_test_vectors.md writes them -/

/-- One group on the wire (R95, R96): the bytes, with the chip-select edges of PER_GROUP mode around them. -/
def bracketed (p : Params) (es : List Event) : List Event :=
  match p.csMode with
  | .none => es
  | .perGroup => [.csAssert] ++ es ++ [.csRelease]

/-- A 16-bit value on the wire (R56): high byte, then low byte. -/
def wordEvents (v : Word) : List Event := [.dat (v.extractLsb' 8 8), .dat (v.extractLsb' 0 8)]

/-- WIN(x1, y1, x2, y2) (R97; spec/95_test_vectors.md, Notation). -/
def windowEvents (p : Params) (x1 y1 x2 y2 : Word) : List Event :=
  bracketed p [.cmd 0x2A] ++ bracketed p (wordEvents x1 ++ wordEvents x2) ++
  bracketed p [.cmd 0x2B] ++ bracketed p (wordEvents y1 ++ wordEvents y2) ++ bracketed p [.cmd 0x2C]

/-- PIX(c) × n (R100; spec/95_test_vectors.md, Notation): one group, and nothing for n = 0. -/
def pixelsEvents (p : Params) (color : Word) (n : Nat) : List Event :=
  if n = 0 then [] else bracketed p ((List.replicate n (wordEvents color)).flatten)

/-- A window and n pixels of one colour in it. -/
def paintEvents (p : Params) (x1 y1 x2 y2 color : Word) (n : Nat) : List Event :=
  windowEvents p x1 y1 x2 y2 ++ pixelsEvents p color n

/-- Whether an event is a command byte. -/
def Event.isCmd : Event → Bool
  | .cmd _ => true
  | .dat _ | .csAssert | .csRelease | .settle | .xportEnable => false

/-- Whether an event is a data byte. -/
def Event.isDat : Event → Bool
  | .dat _ => true
  | .cmd _ | .csAssert | .csRelease | .settle | .xportEnable => false

/-! ## How an operation ends -/

/-- t is s after an operation that emitted es and completed (R16, R43), and that writes no register: what the events do
to the wire and the panel, BUSY → IDLE, and nothing else. Working registers are no result (R36), so nothing is said of
them. -/
structure Completes (s : State) (es : List Event) (t : State) : Prop where
  trace : t.trace = s.trace ++ es
  dc : t.dc = es.foldl dcAfter s.dc
  cs : t.cs = es.foldl csAfter s.cs
  panel : t.panel = es.foldl (Panel.observe s.params) s.panel
  status : t.status = { s.status with busy := false }
  seq : t.seq = .idle
  params : t.params = s.params
  w : t.w = s.w
  h : t.h = s.h
  orient : t.orient = s.orient
  faultCode : t.faultCode = s.faultCode
  assets : t.assets = s.assets
  host : t.host = s.host
  readData : t.readData = s.readData
  free : t.free = s.free

/-- t is s after an operation that emitted es and then raised fault c (R180): FAULT, the code, BUSY = 0, HALTED; every
event before the fault stays, and nothing else changes. -/
structure Faults (s : State) (es : List Event) (c : FaultCode) (t : State) : Prop where
  trace : t.trace = s.trace ++ es
  dc : t.dc = es.foldl dcAfter s.dc
  cs : t.cs = es.foldl csAfter s.cs
  panel : t.panel = es.foldl (Panel.observe s.params) s.panel
  status : t.status = { s.status with fault := true, busy := false }
  faultCode : t.faultCode = c.code
  seq : t.seq = .halted
  params : t.params = s.params
  w : t.w = s.w
  h : t.h = s.h
  orient : t.orient = s.orient
  assets : t.assets = s.assets
  host : t.host = s.host
  readData : t.readData = s.readData
  free : t.free = s.free

/-! ## Closed forms -/

/-- How many minor steps a Bresenham line has taken at its k-th sample: k · dmin / dmaj rounded to the nearest, a half
down (R122 with D > 0, D25). -/
def minorSteps (dmaj dmin k : Nat) : Nat := (2 * k * dmin + dmaj - 1) / (2 * dmaj)

/-- The sample points of a shallow line from (x0, y0) to (x1, y1), x0 ≤ x1: one per column. -/
def shallowPoints (x0 y0 x1 y1 : Int) : List (Int × Int) :=
  (List.range ((x1 - x0).toNat + 1)).map fun (k : Nat) =>
    (x0 + k, y0 + (y1 - y0).sign * minorSteps (x1 - x0).natAbs (y1 - y0).natAbs k)

/-- The sample points of a steep line from (x0, y0) to (x1, y1), y0 ≤ y1: one per row. -/
def steepPoints (x0 y0 x1 y1 : Int) : List (Int × Int) :=
  (List.range ((y1 - y0).toNat + 1)).map fun (k : Nat) =>
    (x0 + (x1 - x0).sign * minorSteps (y1 - y0).natAbs (x1 - x0).natAbs k, y0 + k)

/-- The events of a thick pixel at each point (R119). -/
def thickEvents (p : Params) (t : Nat) (color : Word) (pts : List (Int × Int)) : List Event :=
  pts.flatMap fun q =>
    paintEvents p (lo16 q.1) (lo16 q.2) (lo16 (q.1 + t - 1)) (lo16 (q.2 + t - 1)) color (t * t)

/-- The events of a glyph (R142, R144), column by column, each pixel by the closed form of its bit. -/
def glyphEvents (p : Params) (g : Glyph) (a : CharArgs) : List Event :=
  (List.range g.w.toNat).flatMap fun i => (List.range g.h.toNat).flatMap fun j =>
    if glyphBit p.glyphColumnRealign g i j then
      (if a.hasBg then paintEvents p (lo16 (a.x + i)) (lo16 (a.y + j)) (lo16 (a.x + i)) (lo16 (a.y + j)) a.bg 1 else [])
    else paintEvents p (lo16 (a.x + i)) (lo16 (a.y + j)) (lo16 (a.x + i)) (lo16 (a.y + j)) a.fg 1

/-- The smaller of two coordinates. -/
def lower (a b : Word) : Word := if a.toNat ≤ b.toNat then a else b

/-- The larger of two coordinates. -/
def upper (a b : Word) : Word := if a.toNat ≤ b.toNat then b else a

/-- The events of HLine over u16 coordinates (R115): one window, one fill. -/
def hLineEvents (p : Params) (x0 y0 x1 : Word) (t : Nat) (color : Word) : List Event :=
  paintEvents p (lower x0 x1) y0 (upper x0 x1) (lo16 (zext y0 + t - 1)) color
    (((upper x0 x1).toNat - (lower x0 x1).toNat + 1) * t)

/-- The events of VLine over u16 coordinates (R117): one window, one fill. -/
def vLineEvents (p : Params) (x0 y0 y1 : Word) (t : Nat) (color : Word) : List Event :=
  paintEvents p x0 (lower y0 y1) (lo16 (zext x0 + t - 1)) (upper y0 y1) color
    (((upper y0 y1).toNat - (lower y0 y1).toNat + 1) * t)

/-- The sample points of a line that is neither vertical nor horizontal (R120 to R123): the octant's major axis, the
endpoints in rising order along it. -/
def linePoints (x0 y0 x1 y1 : Word) : List (Int × Int) :=
  if (zext y1 - zext y0).natAbs < (zext x1 - zext x0).natAbs then
    (if x0.toNat ≤ x1.toNat then shallowPoints (zext x0) (zext y0) (zext x1) (zext y1)
     else shallowPoints (zext x1) (zext y1) (zext x0) (zext y0))
  else
    (if y0.toNat ≤ y1.toNat then steepPoints (zext x0) (zext y0) (zext x1) (zext y1)
     else steepPoints (zext x1) (zext y1) (zext x0) (zext y0))

/-- The events of DRAW_LINE (R120): equal x first, then equal y, then the octant. -/
def lineEvents (p : Params) (x0 y0 x1 y1 : Word) (t : Nat) (color : Word) : List Event :=
  if x0 = x1 then vLineEvents p x0 y0 y1 t color
  else if y0 = y1 then hLineEvents p x0 y0 x1 t color
  else thickEvents p t color (linePoints x0 y0 x1 y1)

/-- A glyph that passes both checks of R142. -/
def glyphOk (p : Params) (g : Glyph) : Prop :=
  1 ≤ g.bpr.toNat ∧ g.bpr.toNat ≤ 8 ∧ glyphNeed p.glyphColumnRealign g ≤ g.bits.length

/-- The fault of DrawChar of a glyph (R142, R181): its bits-per-run first, then its bytes. -/
def glyphFault (p : Params) (g : Glyph) : Option FaultCode :=
  if g.bpr.toNat < 1 ∨ 8 < g.bpr.toNat then some .glyphFormat
  else if g.bits.length < glyphNeed p.glyphColumnRealign g then some .assetRange
  else none

/-- How a string runs: the glyphs drawn, each with the pen, in order; then the fault that ends it, none where it
completes. -/
structure StringPlan where
  drawn : List (Glyph × Word × Word)
  fault : Option FaultCode
  deriving DecidableEq, Repr

/-- A plan that draws one more glyph first. -/
def StringPlan.after (q : Glyph × Word × Word) (plan : StringPlan) : StringPlan := ⟨q :: plan.drawn, plan.fault⟩

/-- The layout (R147, R148) as a function of the bytes and the pen alone. `look` is the glyph of a character, or the fault
of asking for it, none where the font has no such character (D19); sp is the space glyph's height, or the fault of asking
for it (R146). -/
def planString (p : Params) (sw sh xStart : Word) (sp : Except FaultCode Word)
    (look : Nat → Option (Except FaultCode Glyph)) (bytes : List Byte) (cx cy : Word) : StringPlan :=
  match bytes with
  | [] => ⟨[], none⟩
  | c :: rest =>
    if c = 0x00 then ⟨[], none⟩
    else if c = 0x0A then
      match sp with
      | .error e => ⟨[], some e⟩
      | .ok unit => planString p sw sh xStart sp look rest xStart (cy + unit)
    else if c = 0x09 then
      match sp with
      | .error e => ⟨[], some e⟩
      | .ok unit => planString p sw sh xStart sp look rest (cx + 4 * unit) cy
    else
      match look c.toNat with
      | none => planString p sw sh xStart sp look rest cx cy
      | some (.error e) => ⟨[], some e⟩
      | some (.ok g) =>
        if p.layoutOrder = .bottomFirst ∧ cy.toNat + g.h.toNat > sh.toNat then ⟨[], none⟩
        else
          let wraps := cx.toNat + g.w.toNat > sw.toNat
          let advance : Except FaultCode Word :=
            if wraps then (if p.wrapAdvance = .spaceH then sp else .ok g.h) else .ok 0
          match advance with
          | .error e => ⟨[], some e⟩
          | .ok adv =>
            let cx' := if wraps then xStart else cx
            if p.layoutOrder = .wrapFirst ∧ (cy + adv).toNat + g.h.toNat > sh.toNat then ⟨[], none⟩
            else
              match glyphFault p g with
              | some e => ⟨[], some e⟩
              | none => (planString p sw sh xStart sp look rest (cx' + g.w) (cy + adv)).after (g, cx', cy + adv)

/-- The glyph of a handle (R47), BAD_ASSET where it is none. -/
def State.glyphOrFault (s : State) (gh : Handle) : Except FaultCode Glyph :=
  match s.resolve gh with
  | some (.glyph g) => .ok g
  | some (.font _) | some (.bitmap _) | some (.string _) | none => .error .badAsset

/-- The glyph of a character in a font (R145, R148): none where the font has no such character. -/
def State.lookGlyph (s : State) (f : Font) (c : Nat) : Option (Except FaultCode Glyph) :=
  (fontLookup f.entries c).map s.glyphOrFault

/-- The height of a font's space glyph (R146), or the fault of asking for it. -/
def State.spaceUnit (s : State) (f : Font) : Except FaultCode Word :=
  match s.lookGlyph f 0x20 with
  | none => .error .noSpaceGlyph
  | some (.error e) => .error e
  | some (.ok g) => .ok g.h

/-- How DRAW_STRING_MAIN at (x, y) runs, once its string and its font have resolved. -/
def State.stringPlan (s : State) (f : Font) (bytes : List Byte) (x y : Word) : StringPlan :=
  planString s.params s.w s.h x (s.spaceUnit f) (s.lookGlyph f) bytes x y

/-- The events of the glyphs of a string. -/
def planEvents (p : Params) (fg bg : Word) (hasBg : Bool) (plan : List (Glyph × Word × Word)) : List Event :=
  plan.flatMap fun q => glyphEvents p q.1 ⟨zext q.2.1, zext q.2.2, fg, bg, hasBg⟩

/-- The pixel stream of an asset's bytes as one group (R57, R160), nothing for no bytes. -/
def bytesEvents (p : Params) (bs : List Byte) : List Event := if bs = [] then [] else bracketed p (bs.map .dat)

/-! ## Which fault an operation raises -/

/-- The fault of DRAW_CHAR (R143, R181), and the events before it: none of them. -/
def State.charRaises (s : State) (glyph : Handle) : Option (FaultCode × List Event) :=
  match s.glyphOrFault glyph with
  | .error e => some (e, [])
  | .ok g => (glyphFault s.params g).map fun c => (c, [])

/-- The fault of DRAW_STRING_MAIN (R148, R181), and the events before it: those of the characters drawn. -/
def State.stringRaises (s : State) (x y : Word) (str : Handle) (fg bg : Word) (font : Handle) (hasBg : Bool) :
    Option (FaultCode × List Event) :=
  match s.resolve str, s.resolve font with
  | some (.string bytes), some (.font f) =>
    (s.stringPlan f bytes x y).fault.map fun c =>
      (c, planEvents s.params fg bg hasBg (s.stringPlan f bytes x y).drawn)
  | _, _ => some (.badAsset, [])

/-- The fault of DRAW_BITMAP (R160), and the events before it: none of them. -/
def State.bitmapRaises (s : State) (bitmap : Handle) : Option (FaultCode × List Event) :=
  match s.resolve bitmap with
  | some (.bitmap b) => if b.data.length < 2 * b.w.toNat * b.h.toNat then some (.assetRange, []) else none
  | some (.glyph _) | some (.font _) | some (.string _) | none => some (.badAsset, [])

/-- The fault an operation raises in a state (R178), with exactly the events before it (R180); none where it completes.
Only the operations that read assets raise one. -/
def State.operationRaises (s : State) (i : Instr) : Option (FaultCode × List Event) :=
  match i with
  | .drawChar _ _ _ _ glyph _ => s.charRaises glyph
  | .drawStringMain x y str fg bg font hasBg => s.stringRaises x y str fg bg font hasBg
  | .drawString x y str fg bg font => s.stringRaises x y str fg bg font false
  | .drawStringWithbg x y str fg bg font => s.stringRaises x y str fg bg font true
  | .drawBitmap _ _ bitmap => s.bitmapRaises bitmap
  | .init | .setWindow .. | .fillColor .. | .drawPixel .. | .fillRect .. | .fillRectFast .. | .fillScreen ..
  | .drawRectangle .. | .drawFastHLine .. | .drawFastVLine .. | .drawLine .. | .rotateDisplay .. => none
  | .wireSoftwareReset | .wireSleepOut | .wireColorMode | .wireMemoryAccessControl .. | .wireInversionOn
  | .wireNormalDisplayOn | .wireDisplayOn | .wireColumnAddressSet .. | .wireRowAddressSet .. | .wireMemoryWrite => none

/-- The fault of what was accepted (R178, R181): ILLEGAL_OP at decode, before any event, or the operation's own. -/
def State.raises (s : State) (op : Fetched) : Option (FaultCode × List Event) :=
  match decode op with
  | .error _ => some (.illegalOp, [])
  | .ok i => s.operationRaises i

/-! ## Encodings, as spec/opcode_table.json writes them -/

/-- A row of the table for the operation port: mnemonic, match, mask, words. -/
structure TableRow where
  name : String
  bits : Word
  mask : Word
  words : Nat
  deriving DecidableEq, Repr

/-- The fifteen rows of the table for the operation port. -/
def opcodeTable : List TableRow :=
  [⟨"INIT", 0x0100, 0xFFFF, 1⟩, ⟨"SET_WINDOW", 0x1000, 0xFFFF, 5⟩, ⟨"FILL_COLOR", 0x1100, 0xFFFF, 4⟩,
   ⟨"DRAW_PIXEL", 0x2000, 0xFFFF, 4⟩, ⟨"FILL_RECT", 0x2100, 0xFFFF, 6⟩, ⟨"FILL_RECT_FAST", 0x2200, 0xFFFF, 6⟩,
   ⟨"FILL_SCREEN", 0x2300, 0xFFFF, 2⟩, ⟨"DRAW_RECTANGLE", 0x2400, 0xFFFF, 6⟩] ++
  [⟨"DRAW_FAST_H_LINE", 0x3000, 0xFF00, 5⟩, ⟨"DRAW_FAST_V_LINE", 0x3100, 0xFF00, 5⟩, ⟨"DRAW_LINE", 0x3200, 0xFF00, 6⟩,
   ⟨"DRAW_CHAR", 0x4000, 0xFFFE, 7⟩, ⟨"DRAW_STRING_MAIN", 0x4100, 0xFFFE, 9⟩, ⟨"DRAW_BITMAP", 0x5000, 0xFFFF, 5⟩,
   ⟨"ROTATE_DISPLAY", 0x6000, 0xFF00, 1⟩]

/-- A descriptor that is the row's: its word count, and its header under the row's mask. -/
def TableRow.matches (r : TableRow) (ws : List Word) : Prop :=
  ws.length = r.words ∧ ∃ hd ∈ ws.head?, hd &&& r.mask = r.bits

/-! ## Steps -/

/-- The host's next action is neither a block reset nor a register read, so a running operation runs on. -/
def State.hostWaits (s : State) : Prop :=
  (∀ rest, s.host ≠ .blockReset :: rest) ∧ ∀ k rest, s.host ≠ .readReg k :: rest

/-- An offer on the operation port. -/
def HostAction.isOffer : HostAction → Bool
  | .offer _ => true
  | .readReg _ | .blockReset | .putAsset _ _ | .wait => false

/-! ## The panel -/

/-- The last byte on the wire among the events is a data byte: after an operation that draws, a byte of a pixel. -/
def endsInData (es : List Event) : Prop := ∃ b, (es.filter fun e => e.isCmd || e.isDat).getLast? = some (.dat b)

/-- The observer is between commands: nothing half sent that a new command would break (R65, R68), and its window
registers play no part until the next window. -/
def Panel.settled (q : Panel) : Prop := q.dangling = false

/-- Whether a pixel lies in the window from (x1, y1) to (x2, y2), inclusive. -/
def inWindow (x1 y1 x2 y2 col row : Nat) : Bool :=
  decide (x1 ≤ col) && decide (col ≤ x2) && decide (y1 ≤ row) && decide (row ≤ y2)

/-- Whether a pixel lies in the range known to be good (R69). -/
def inPanel (p : Params) (col row : Nat) : Bool := decide (col < p.panelW.toNat) && decide (row < p.panelH.toNat)

end Sys2Proof.Machine

namespace Sys2Proof

/-- The operations that read none of W, H and ORIENT (R114, R126, R151, R162). -/
def Instr.ignoresSurface : Instr → Bool
  | .setWindow .. | .fillColor .. | .drawPixel .. | .fillRectFast .. | .drawFastHLine .. | .drawFastVLine ..
  | .drawLine .. | .drawChar .. | .drawBitmap .. => true
  | .init | .fillRect .. | .fillScreen .. | .drawRectangle .. | .drawStringMain .. | .rotateDisplay ..
  | .drawString .. | .drawStringWithbg .. => false
  | .wireSoftwareReset | .wireSleepOut | .wireColorMode | .wireMemoryAccessControl .. | .wireInversionOn
  | .wireNormalDisplayOn | .wireDisplayOn | .wireColumnAddressSet .. | .wireRowAddressSet .. | .wireMemoryWrite => false

/-- The operations that write the surface registers (R22). -/
def Instr.writesSurface : Instr → Bool
  | .init | .rotateDisplay .. => true
  | .setWindow .. | .fillColor .. | .drawPixel .. | .fillRect .. | .fillRectFast .. | .fillScreen ..
  | .drawRectangle .. | .drawFastHLine .. | .drawFastVLine .. | .drawLine .. | .drawChar .. | .drawStringMain ..
  | .drawBitmap .. | .drawString .. | .drawStringWithbg .. => false
  | .wireSoftwareReset | .wireSleepOut | .wireColorMode | .wireMemoryAccessControl .. | .wireInversionOn
  | .wireNormalDisplayOn | .wireDisplayOn | .wireColumnAddressSet .. | .wireRowAddressSet .. | .wireMemoryWrite => false

end Sys2Proof
end

