-- ==== Sys2Proof/Certificates/Slice0/Obligations.lean ====
section
/-! DEFINITION. The statements for the provers, in the words of Safety.lean. `exec` is the meaning of an accepted
operation and `step` one step of the machine; OBLIGATIONS.json names the rules each statement rests on. -/

open Sys2Proof Sys2Proof.Machine

/-! ## Reset, the sequencer and the host -/

/-- The reset state holds what R44 and R64 list: the panel size in W and H, orientation 0, STATUS and FAULT_CODE zero,
IDLE, CS released, TRACE empty, the observer undefined, not armed and knowing no pixel; CONFIG mirrors CS_MODE (R31). The
values are the spec's decision D13; what the model chose (assumption 6) is not stated, but that CS is released in NONE mode
too (assumption 13). -/
def Obligations.ResetHoldsTheListedValues : Prop :=
  State.reset.w = 240 ∧ State.reset.h = 240 ∧ State.reset.orient = 0 ∧
  State.reset.status = ⟨false, false, false⟩ ∧ State.reset.faultCode = 0 ∧ State.reset.seq = .idle ∧
  State.reset.cs = .released ∧ State.reset.trace = [] ∧
  State.reset.panel.undef = true ∧ State.reset.panel.armed = false ∧ State.reset.panel.gram = [] ∧
  (State.reset.reg 5 = 0 ↔ State.reset.params.csMode = .none)

/-- Block reset, at any time and from any state, puts the block in the state R44 lists and emits nothing; the parameters
and the assets stay. In HALTED the offers before it are never accepted and do not hold it up. Nothing is said of what R44
leaves unspecified (assumptions 6 and 7); that CS is released in NONE mode too is the model's choice (assumption 13). -/
def Obligations.BlockResetRestoresTheListedValues : Prop :=
  ∀ (s : State) (offers rest : List HostAction),
    offers = [] ∨ (s.seq = .halted ∧ offers.all HostAction.isOffer = true) → s.host = offers ++ .blockReset :: rest →
    ∃ t, step s = .next t ∧
      t.w = s.params.panelW ∧ t.h = s.params.panelH ∧ t.orient = 0 ∧ t.status = ⟨false, false, false⟩ ∧
      t.faultCode = 0 ∧ t.seq = .idle ∧ t.cs = .released ∧ t.trace = [] ∧
      t.panel.undef = true ∧ t.panel.armed = false ∧ t.panel.gram = [] ∧
      t.params = s.params ∧ t.assets = s.assets ∧ t.host = rest

/-- A HALTED block takes no step but a register read, an asset change, a wait of the host (assumption 4) or a block reset;
the offers before one of these are never accepted, and where the host has nothing but offers the block is stuck, which the
model shows as a stop (assumption 4). Only the reset leaves HALTED; FAULT, the code and TRACE stay until then. -/
def Obligations.OnlyBlockResetLeavesHalted : Prop :=
  ∀ s : State, s.seq = .halted →
    (s.host.all HostAction.isOffer = true → step s = .fault .halted) ∧
    ∀ t, step s = .next t →
      ∃ (offers : List HostAction) (a : HostAction) (rest : List HostAction),
        s.host = offers ++ a :: rest ∧ offers.all HostAction.isOffer = true ∧ t.host = rest ∧
        ((a = .blockReset ∧ t.seq = .idle) ∨
         (((∃ k, a = .readReg k) ∨ (∃ hd v, a = .putAsset hd v) ∨ a = .wait) ∧
          t.seq = .halted ∧ t.status = s.status ∧ t.faultCode = s.faultCode ∧ t.trace = s.trace))

/-- The transitions of SEQ are the ones R43 lists: to BUSY on acceptance only, from BUSY to IDLE on completion and to HALTED
on a fault, and to IDLE on block reset. A running operation
runs on unless the host resets the block or reads a register first. -/
def Obligations.SequencerTransitionsAreTheListedOnes : Prop :=
  ∀ s t : State, step s = .next t →
    (t.seq = s.seq ∧ (s.seq ≠ .busy ∨ ¬ s.hostWaits)) ∨
    (∃ ws rest, s.seq = .idle ∧ s.pending = .offer ws :: rest ∧ t.seq = .busy ∧ t.work.latch = .descriptor ws) ∨
    (s.seq = .busy ∧ s.hostWaits ∧ t.seq = .idle ∧ t.status.busy = false) ∨
    (s.seq = .busy ∧ s.hostWaits ∧ t.seq = .halted ∧ t.status.busy = false ∧ t.status.fault = true) ∨
    (∃ rest, s.pending = .blockReset :: rest ∧ t.seq = .idle)

/-- A descriptor offered in IDLE is accepted and latched and the block is BUSY; offered in BUSY it stays offered, a stall and
no fault; offered in HALTED it is never accepted, and with nothing but offers the machine is stuck, which the model shows as
a stop (assumption 4). An asset change makes its handle, and no other, resolve to what it says, and changes nothing else;
while an operation is BUSY it stays pending (assumption 9). A wait of the host changes nothing, and stays pending while an
operation is BUSY (assumption 4). -/
def Obligations.HostOffersAssetChangesAndWaits : Prop :=
  (∀ (s : State) (ws : List Word) (rest : List HostAction), s.host = .offer ws :: rest →
    (s.seq = .idle → ∃ t, step s = .next t ∧ t.seq = .busy ∧ t.work.latch = .descriptor ws ∧ t.status.busy = true ∧
      t.host = rest ∧ t.trace = s.trace) ∧
    (s.seq = .busy → ∃ t, step s = .next t ∧ t.host = .offer ws :: rest) ∧
    (s.seq = .halted → (rest.all HostAction.isOffer = true → step s = .fault .halted) ∧
      ∀ t, step s = .next t → t.seq ≠ .busy)) ∧
  (∀ (s : State) (hd : Handle) (v : Option Asset) (rest : List HostAction), s.pending = .putAsset hd v :: rest →
    (s.seq ≠ .busy → Memory.wf s.assets = true → ∃ t, step s = .next t ∧
      t = { s with assets := t.assets, host := rest } ∧ ∀ k, t.resolve k = if k = hd then v else s.resolve k) ∧
    (s.seq = .busy → ∃ t, step s = .next t ∧ t.host = s.host ∧ t.assets = s.assets)) ∧
  (∀ (s : State) (rest : List HostAction), s.pending = .wait :: rest →
    (s.seq ≠ .busy → step s = .next { s with host := rest }) ∧
    (s.seq = .busy → ∃ t, step s = .next t ∧ t.host = s.host ∧ t.seq ≠ .busy))

/-- A step of a BUSY block, when the host neither resets it nor reads a register, is the meaning of the operation that
the latched words decode to; and the state that a table row's word is placed in runs that instruction next. That an
operation runs in one step is the model's choice (assumption 4). -/
def Obligations.StepRunsTheLatchedOperation : Prop :=
  (∀ (s : State) (i : Instr), s.seq = .busy → s.hostWaits → decode s.work.latch = .ok i → step s = exec i s) ∧
  (∀ (s : State) (nbits w : Nat) (i : Instr), decodeTableWord nbits w = some i →
    step (s.withFetchWord nbits w) = exec i (s.withFetchWord nbits w))

/-- What was latched and does not decode raises ILLEGAL_OP: no event, FAULT, code 0x01, HALTED, and nothing else. -/
def Obligations.IllegalDescriptorFaultsBeforeAnyEvent : Prop :=
  ∀ (s : State) (e : Reject), s.seq = .busy → s.hostWaits → s.status.fault = false →
    decode s.work.latch = .error e → ∃ t, step s = .next t ∧ Faults s [] .illegalOp t

/-- A register read returns the register by its index, 0 outside the map, and changes nothing else; while BUSY a read of W,
H or ORIENT returns the value before or after the running operation's write. The count of free values is the model's own. -/
def Obligations.RegisterReadsFollowTheMap : Prop :=
  ∀ (s : State) (k : Nat) (rest : List HostAction), s.pending = .readReg k :: rest →
    ∃ t, step s = .next t ∧ t = { s with host := rest, readData := t.readData, free := t.free } ∧
      (s.seq ≠ .busy ∨ 3 ≤ k →
        t.readData.toNat =
          if k = 0 then s.w.toNat else if k = 1 then s.h.toNat else if k = 2 then s.orient.toNat
          else if k = 3 then
            (if s.status.busy then 1 else 0) + (if s.status.fault then 2 else 0) + (if s.status.inited then 4 else 0)
          else if k = 4 then s.faultCode.toNat
          else if k = 5 then (if s.params.csMode = .perGroup then 1 else 0) else 0) ∧
      (s.seq = .busy → k ≤ 2 →
        ∃ u, s.runLatched = .next u ∧
          ((k = 0 ∧ (t.readData = s.w ∨ t.readData = u.w)) ∨ (k = 1 ∧ (t.readData = s.h ∨ t.readData = u.h)) ∨
           (k = 2 ∧ (t.readData.toNat = s.orient.toNat ∨ t.readData.toNat = u.orient.toNat))))

/-- FAULT_CODE holds the first fault since reset: while FAULT = 1 no step but block reset changes it or clears FAULT. -/
def Obligations.FirstFaultCodeIsKept : Prop :=
  ∀ s t : State, s.status.fault = true → (∀ rest, s.pending ≠ .blockReset :: rest) → step s = .next t →
    t.status.fault = true ∧ t.faultCode = s.faultCode

/-- What was accepted faults exactly where the rules say so, the first fault its pseudocode reaches. Then FAULT is set, the
code recorded, BUSY cleared, SEQ HALTED, and TRACE holds exactly the events before the raise: none, but for the characters a
string has drawn; every other register is as it was. Without a fault the block is IDLE again, FAULT and FAULT_CODE as they
were. Nothing else enters HALTED. -/
def Obligations.FaultEntryIsPrecise : Prop :=
  (∀ s : State, s.seq = .busy → s.hostWaits → s.status.fault = false →
    (∀ c es, s.raises s.work.latch = some (c, es) → ∃ t, step s = .next t ∧ Faults s es c t) ∧
    (s.raises s.work.latch = none → ∃ t, step s = .next t ∧ t.seq = .idle ∧ t.status.busy = false ∧ t.status.fault = false ∧
      t.faultCode = s.faultCode)) ∧
  (∀ s t : State, s.seq ≠ .halted → step s = .next t → t.seq = .halted →
    s.seq = .busy ∧ s.hostWaits ∧ s.raises s.work.latch ≠ none)

/-! ## Encoding -/

/-- Decoding what an instruction encodes to gives the instruction back, with every operand at every value: the fifteen
operations of the operation port and the ten wire commands (whose bytes as instructions are assumption 3). -/
def Obligations.DecodeOfEncodeIsIdentity : Prop :=
  ∀ i : Instr, i.wellFormed = true → decode (encode i) = .ok i

/-- A descriptor has one meaning: the operation it decodes to encodes to exactly its words, and is one of the fifteen. -/
def Obligations.EncodeOfDecodeIsIdentity : Prop :=
  ∀ (ws : List Word) (i : Instr), decodeWords ws = .ok i → encode i = .descriptor ws ∧ i.isOperation = true

/-- A descriptor is legal exactly when a row of the opcode table matches it: the row's word count, and its header under the
row's mask, so that every reserved SUB bit counts; and then it decodes to that row's operation. -/
def Obligations.LegalDescriptorsAreTheTableRows : Prop :=
  ∀ (ws : List Word) (name : String),
    (∃ i, decodeWords ws = .ok i ∧ i.mnemonic = name) ↔ ∃ r ∈ opcodeTable, r.name = name ∧ r.matches ws

/-- The pseudo-operations assemble to DRAW_STRING_MAIN: same words, with headers 0x4100 and 0x4101, and same meaning. -/
def Obligations.PseudoOperationsAreStringMain : Prop :=
  ∀ (x y : Word) (str : Handle) (fg bg : Word) (font : Handle) (s : State),
    encode (.drawString x y str fg bg font) = encode (.drawStringMain x y str fg bg font false) ∧
    encode (.drawStringWithbg x y str fg bg font) = encode (.drawStringMain x y str fg bg font true) ∧
    (∃ args, encode (.drawString x y str fg bg font) = .descriptor (0x4100 :: args)) ∧
    (∃ args, encode (.drawStringWithbg x y str fg bg font) = .descriptor (0x4101 :: args)) ∧
    exec (.drawString x y str fg bg font) s = exec (.drawStringMain x y str fg bg font false) s ∧
    exec (.drawStringWithbg x y str fg bg font) s = exec (.drawStringMain x y str fg bg font true) s

/-- Words written out from R81 decode to the operations they stand for. -/
def Obligations.WrittenOutWordsDecode : Prop :=
  decodeWords [0x2100, 0x000A, 0x000A, 0x0032, 0x0032, 0xFFFF] = .ok (.fillRect 10 10 50 50 0xFFFF) ∧
  decodeWords [0x1100, 0xF800, 0x0001, 0x0008] = .ok (.fillColor 0xF800 0x00010008) ∧
  decodeWords [0x3201, 0, 0, 4, 2, 0x07E0] = .ok (.drawLine 0 0 4 2 1 0x07E0) ∧
  decodeWords [0x4001, 1, 2, 0xFFFF, 0, 0, 5] = .ok (.drawChar 1 2 0xFFFF 0 5 true) ∧
  decodeWords [0x6005] = .ok (.rotateDisplay 5)

/-! ## The wire: windows and streams -/

/-- SetWindow emits exactly 3 command bytes and 8 data bytes, 11 bytes in all, and in PER_GROUP mode 5 assertions and 5
releases more: 3 command groups and 2 data groups. -/
def Obligations.SetWindowEmitsElevenBytes : Prop :=
  ∀ (s : State) (x1 y1 x2 y2 : Int), ∃ es, (s.setWindow x1 y1 x2 y2).trace = s.trace ++ es ∧
    es.countP Event.isCmd = 3 ∧ es.countP Event.isDat = 8 ∧
    es.count .csAssert = (if s.params.csMode = .perGroup then 5 else 0) ∧
    es.count .csRelease = (if s.params.csMode = .perGroup then 5 else 0) ∧
    (es.zip es.tail).countP (fun e => e.1 == .csAssert && e.2.isCmd) = (if s.params.csMode = .perGroup then 3 else 0) ∧
    (es.zip es.tail).countP (fun e => e.1 == .csAssert && e.2.isDat) = (if s.params.csMode = .perGroup then 2 else 0) ∧
    es.length = (if s.params.csMode = .perGroup then 21 else 11)

/-- SET_WINDOW completes with the one window as given, whatever the coordinates. On the panel the window registers and the
cursor are its coordinates, a memory write is armed, and no pixel changes; the observer is left undefined by a malformed
window, or by a command left half sent before it, and by nothing else. -/
def Obligations.SetWindowArmsThePanel : Prop :=
  ∀ (s : State) (x1 y1 x2 y2 : Word), ∃ t, exec (.setWindow x1 y1 x2 y2) s = .next t ∧
    Completes s (windowEvents s.params x1 y1 x2 y2) t ∧
    t.panel.xs = x1 ∧ t.panel.xe = x2 ∧ t.panel.ys = y1 ∧ t.panel.ye = y2 ∧
    t.panel.px = x1.toNat ∧ t.panel.py = y1.toNat ∧ t.panel.armed = true ∧ t.panel.gram = s.panel.gram ∧
    (t.panel.undef = true ↔
      s.panel.undef = true ∨ ¬ s.panel.settled ∨ x1.toNat > x2.toNat ∨ y1.toNat > y2.toNat)

/-- FILL_COLOR completes with n pixels of the colour as one group, high byte first, and nothing for n = 0. -/
def Obligations.FillColorCompletes : Prop :=
  ∀ (s : State) (color : Word) (n : Long), ∃ t, exec (.fillColor color n) s = .next t ∧
    Completes s (pixelsEvents s.params color n.toNat) t

/-- FillColor appends exactly 2n data bytes, whatever n is, and in PER_GROUP mode 2 more events when n > 0 and none when
n = 0. -/
def Obligations.FillColorByteCountLaw : Prop :=
  ∀ (s : State) (color : Word) (n : Nat), ∃ es, (s.fillColor color n).trace = s.trace ++ es ∧
    es.countP Event.isDat = 2 * n ∧
    es.length = 2 * n + (if s.params.csMode = .perGroup ∧ n > 0 then 2 else 0)

/-- The source's blocking is not observable: FILL_COLOR appends one group of data bytes (none for n = 0), and those are the
bytes of whole blocks of `groups` groups of `unroll` pixels and then the remainder one by one, whatever groups and unroll
are. -/
def Obligations.BlockedFillIsTheSameStream : Prop :=
  ∀ (s : State) (color : Word) (n : Long) (groups unroll : Nat), 0 < groups → 0 < unroll →
    ∃ t, exec (.fillColor color n) s = .next t ∧
      t.trace = s.trace ++ bytesEvents s.params
        ((List.replicate (n.toNat / (groups * unroll))
          (List.replicate groups (List.replicate unroll [hiByte color, loByte color]).flatten).flatten).flatten ++
        (List.replicate (n.toNat % (groups * unroll)) [hiByte color, loByte color]).flatten)

/-! ## Pixels and rectangles -/

/-- FILL_RECT with its origin on the surface and a size completes with one window, that of the rectangle clipped to the
surface, and exactly clip(w) · clip(h) pixels of the colour. Where the window lies is R108's, which is the spec's own reading
(D28). -/
def Obligations.FillRectClipsToTheSurface : Prop :=
  ∀ (s : State) (x y w h color : Word), x.toNat < s.w.toNat → y.toNat < s.h.toNat → w ≠ 0 → h ≠ 0 →
    ∃ t, exec (.fillRect x y w h color) s = .next t ∧
      Completes s
        (paintEvents s.params x y
          (BitVec.ofNat 16 (x.toNat + min w.toNat (s.w.toNat - x.toNat) - 1))
          (BitVec.ofNat 16 (y.toNat + min h.toNat (s.h.toNat - y.toNat) - 1)) color
          (min w.toNat (s.w.toNat - x.toNat) * min h.toNat (s.h.toNat - y.toNat))) t

/-- FILL_RECT and DRAW_RECTANGLE with an origin off the surface or no size are silent no-ops: they complete with no
event. -/
def Obligations.EmptyRectanglesEmitNothing : Prop :=
  ∀ (s : State) (x y w h color : Word), s.w.toNat ≤ x.toNat ∨ s.h.toNat ≤ y.toNat ∨ w = 0 ∨ h = 0 →
    (∃ t, exec (.fillRect x y w h color) s = .next t ∧ Completes s [] t) ∧
    (∃ t, exec (.drawRectangle x y w h color) s = .next t ∧ Completes s [] t)

/-- FILL_RECT_FAST completes with the window and the fill of its operands as they are, each window end reduced to 16 bits as
it is sent. -/
def Obligations.FillRectFastCompletes : Prop :=
  ∀ (s : State) (x y w h color : Word), ∃ t, exec (.fillRectFast x y w h color) s = .next t ∧
    Completes s (paintEvents s.params x y (x + w - 1) (y + h - 1) color (w.toNat * h.toNat)) t

/-- FILL_SCREEN is FILL_RECT of the surface; it completes with the whole surface as one window and W · H pixels, and with
nothing when W or H is 0. -/
def Obligations.FillScreenFillsTheSurface : Prop :=
  ∀ (s : State) (color : Word),
    exec (.fillScreen color) s = exec (.fillRect 0 0 s.w s.h color) s ∧
    ∃ t, exec (.fillScreen color) s = .next t ∧
      Completes s
        (if s.w = 0 ∨ s.h = 0 then []
         else paintEvents s.params 0 0 (s.w - 1) (s.h - 1) color (s.w.toNat * s.h.toNat)) t

/-- DRAW_RECTANGLE on the surface completes with four edges of the clipped rectangle in the order top, bottom, left,
right, the bottom and the right edge one past it. -/
def Obligations.DrawRectangleDrawsFourEdges : Prop :=
  ∀ (s : State) (x y w h color : Word) (cw ch : Nat), x.toNat < s.w.toNat → y.toNat < s.h.toNat → w ≠ 0 → h ≠ 0 →
    cw = min w.toNat (s.w.toNat - x.toNat) → ch = min h.toNat (s.h.toNat - y.toNat) →
    ∃ t, exec (.drawRectangle x y w h color) s = .next t ∧
      Completes s
        (paintEvents s.params x y (BitVec.ofNat 16 (x.toNat + cw - 1)) y color cw ++
         paintEvents s.params x (BitVec.ofNat 16 (y.toNat + ch)) (BitVec.ofNat 16 (x.toNat + cw - 1))
           (BitVec.ofNat 16 (y.toNat + ch)) color cw ++
         paintEvents s.params x y x (BitVec.ofNat 16 (y.toNat + ch - 1)) color ch ++
         paintEvents s.params (BitVec.ofNat 16 (x.toNat + cw)) y (BitVec.ofNat 16 (x.toNat + cw))
           (BitVec.ofNat 16 (y.toNat + ch - 1)) color ch) t

/-! ## Lines -/

/-- The fast lines complete with one window, from the smaller to the larger endpoint and t thick toward larger rows or
columns, and one fill of it. -/
def Obligations.FastLinesComplete : Prop :=
  (∀ (s : State) (x0 y0 x1 : Word) (t : Byte) (color : Word), ∃ u, exec (.drawFastHLine x0 y0 x1 t color) s = .next u ∧
    Completes s (hLineEvents s.params x0 y0 x1 t.toNat color) u) ∧
  (∀ (s : State) (x0 y0 y1 : Word) (t : Byte) (color : Word), ∃ u, exec (.drawFastVLine x0 y0 y1 t color) s = .next u ∧
    Completes s (vLineEvents s.params x0 y0 y1 t.toNat color) u)

/-- DRAW_LINE completes, and the error accumulator of the two steppers is the closed form: a thick pixel at each point of
the major axis from one endpoint to the other, the minor coordinate being the rounded ratio with halves rounded down, as the
tie does not step (the spec's decision D25). Each thick pixel grows from its sample point toward larger columns and rows
(its decisions D23 and D24). A vertical or horizontal line is the fast line. -/
def Obligations.DrawLineIsTheRoundedLine : Prop :=
  ∀ (s : State) (x0 y0 x1 y1 : Word) (t : Byte) (color : Word), ∃ u, exec (.drawLine x0 y0 x1 y1 t color) s = .next u ∧
    Completes s (lineEvents s.params x0 y0 x1 y1 t.toNat color) u

/-- A DRAW_LINE that is neither vertical nor horizontal draws one thick pixel per step of its major axis and one more: the
first and the last at the endpoints, in rising order along the major axis, and all in the bounding box of the endpoints. -/
def Obligations.LineSamplesSpanTheEndpoints : Prop :=
  ∀ (s : State) (x0 y0 x1 y1 : Word) (t : Byte) (color : Word) (dx dy : Nat), x0 ≠ x1 → y0 ≠ y1 →
    dx = max x0.toNat x1.toNat - min x0.toNat x1.toNat → dy = max y0.toNat y1.toNat - min y0.toNat y1.toNat →
    ∃ u pts, exec (.drawLine x0 y0 x1 y1 t color) s = .next u ∧
      Completes s (thickEvents s.params t.toNat color pts) u ∧
      pts.length = max dx dy + 1 ∧
      (∀ q ∈ pts, min x0.toNat x1.toNat ≤ q.1 ∧ q.1 ≤ max x0.toNat x1.toNat ∧
        min y0.toNat y1.toNat ≤ q.2 ∧ q.2 ≤ max y0.toNat y1.toNat) ∧
      (if (dy < dx ∧ x0.toNat < x1.toNat) ∨ (dx ≤ dy ∧ y0.toNat < y1.toNat) then
        pts.head? = some (zext x0, zext y0) ∧ pts.getLast? = some (zext x1, zext y1)
       else pts.head? = some (zext x1, zext y1) ∧ pts.getLast? = some (zext x0, zext y0))

/-- DRAW_LINE does not depend on the order of its endpoints: both orders append the identical event sequence. -/
def Obligations.LineEndpointOrderIsIrrelevant : Prop :=
  ∀ (s : State) (x0 y0 x1 y1 : Word) (t : Byte) (color : Word),
    exec (.drawLine x0 y0 x1 y1 t color) s = exec (.drawLine x1 y1 x0 y0 t color) s

/-! ## Glyphs and strings -/

/-- DRAW_CHAR of a glyph that passes its checks completes, and the bit cursor is the closed form: column by column, every bit
that is 0 draws an ink pixel, and every bit that is 1 a background pixel if has_bg is 1 and nothing if it is 0. The order of
the bits and the realignment of columns are the spec's decision D17; glyphs that fail a check are in
AssetFaultsComeBeforeAnyEvent. -/
def Obligations.DrawCharDrawsTheClosedForm : Prop :=
  ∀ (s : State) (x y fg bg : Word) (glyph : Handle) (hasBg : Bool) (g : Glyph),
    s.resolve glyph = some (.glyph g) → glyphOk s.params g →
    ∃ t, exec (.drawChar x y fg bg glyph hasBg) s = .next t ∧
      Completes s (glyphEvents s.params g ⟨zext x, zext y, fg, bg, hasBg⟩) t

/-- A column whose bits all come from one byte 0xFF, drawn as a glyph of that one column: with has_bg = 1 it is a full column
of background pixels, with has_bg = 0 nothing. Without column realignment that takes bpr = h, with it h ≤ bpr. -/
def Obligations.FullByteIsAFullColumn : Prop :=
  ∀ (s : State) (x y fg bg : Word) (glyph : Handle) (hasBg : Bool) (g : Glyph),
    s.resolve glyph = some (.glyph g) → glyphOk s.params g → g.w = 1 → g.bits[0]? = some 0xFF →
    (if s.params.glyphColumnRealign then g.h.toNat ≤ g.bpr.toNat else g.bpr.toNat = g.h.toNat) →
    ∃ t, exec (.drawChar x y fg bg glyph hasBg) s = .next t ∧
      Completes s
        (if hasBg then (List.range g.h.toNat).flatMap fun j =>
          paintEvents s.params x (BitVec.ofNat 16 (y.toNat + j)) x (BitVec.ofNat 16 (y.toNat + j)) bg 1
         else []) t

/-- FontLookup is a linear scan and the first match wins: it answers a glyph exactly when some entry has the code and that
glyph, and no earlier entry has the code. -/
def Obligations.FontLookupTakesTheFirstMatch : Prop :=
  ∀ (entries : List (Nat × Handle)) (c : Nat) (gh : Handle),
    fontLookup entries c = some gh ↔
      ∃ k : Nat, entries[k]? = some (c, gh) ∧ ∀ j < k, ∀ e : Nat × Handle, entries[j]? = some e → e.1 ≠ c

/-- DRAW_STRING_MAIN and its two pseudo-operations complete, wherever the layout reaches no fault, with the glyphs the layout
places: newline, tab, missing characters, wrap and bottom abort, under every value of LAYOUT_ORDER and WRAP_ADVANCE. What
the string never reaches plays no part: the font may have no space glyph or hold a glyph that would fail its checks. The
classes of characters, the skipped ones, the space unit, the orders and the tab are the spec's decisions D16 and D19 to
D22; strings that fault are in DrawStringFaults. -/
def Obligations.DrawStringFollowsTheLayout : Prop :=
  ∀ (s : State) (x y : Word) (str : Handle) (fg bg : Word) (font : Handle) (bytes : List Byte) (f : Font),
    s.resolve str = some (.string bytes) → s.resolve font = some (.font f) → (s.stringPlan f bytes x y).fault = none →
    (∀ hasBg, ∃ t, exec (.drawStringMain x y str fg bg font hasBg) s = .next t ∧
      Completes s (planEvents s.params fg bg hasBg (s.stringPlan f bytes x y).drawn) t) ∧
    (∃ t, exec (.drawString x y str fg bg font) s = .next t ∧
      Completes s (planEvents s.params fg bg false (s.stringPlan f bytes x y).drawn) t) ∧
    (∃ t, exec (.drawStringWithbg x y str fg bg font) s = .next t ∧
      Completes s (planEvents s.params fg bg true (s.stringPlan f bytes x y).drawn) t)

/-- DRAW_STRING_MAIN faults before any event with BAD_ASSET when its string or its font does not resolve to one, and with
NO_SPACE_GLYPH when its first character is a newline or a tab and the font has no 0x20 glyph. Anywhere in the string it
raises the first fault the layout reaches, after exactly the events of the characters drawn before it: NO_SPACE_GLYPH at a
newline, a tab or a wrap; BAD_ASSET where the space glyph's or a character's handle is no glyph; GLYPH_FORMAT, then
ASSET_RANGE, where a glyph to be drawn fails its checks. -/
def Obligations.DrawStringFaults : Prop :=
  ∀ (s : State) (x y : Word) (str : Handle) (fg bg : Word) (font : Handle) (hasBg : Bool), s.status.fault = false →
    ((∀ bytes, s.resolve str ≠ some (.string bytes)) ∨ (∀ f, s.resolve font ≠ some (.font f)) →
      ∃ t, exec (.drawStringMain x y str fg bg font hasBg) s = .next t ∧ Faults s [] .badAsset t) ∧
    (∀ (c : Byte) (rest : List Byte) (f : Font), c = 0x0A ∨ c = 0x09 → s.resolve str = some (.string (c :: rest)) →
      s.resolve font = some (.font f) → fontLookup f.entries 0x20 = none →
      ∃ t, exec (.drawStringMain x y str fg bg font hasBg) s = .next t ∧ Faults s [] .noSpaceGlyph t) ∧
    (∀ (bytes : List Byte) (f : Font) (c : FaultCode), s.resolve str = some (.string bytes) →
      s.resolve font = some (.font f) → (s.stringPlan f bytes x y).fault = some c →
      ∃ t, exec (.drawStringMain x y str fg bg font hasBg) s = .next t ∧
        Faults s (planEvents s.params fg bg hasBg (s.stringPlan f bytes x y).drawn) c t)

/-! ## Bitmaps -/

/-- DRAW_BITMAP of a bitmap with enough data completes with one window and exactly its first 2·w·h bytes, verbatim and as one
group. -/
def Obligations.DrawBitmapStreamsItsBytes : Prop :=
  ∀ (s : State) (x y : Word) (bitmap : Handle) (b : Bitmap), s.resolve bitmap = some (.bitmap b) →
    2 * b.w.toNat * b.h.toNat ≤ b.data.length →
    ∃ t, exec (.drawBitmap x y bitmap) s = .next t ∧
      Completes s (windowEvents s.params x y (x + b.w - 1) (y + b.h - 1) ++
        bytesEvents s.params (b.data.take (2 * b.w.toNat * b.h.toNat))) t

/-- DRAW_CHAR and DRAW_BITMAP fault before any event: BAD_ASSET for a handle of no asset or of another kind; for a glyph,
GLYPH_FORMAT for a bpr outside 1 to 8 and then ASSET_RANGE for too few bytes; for a bitmap, ASSET_RANGE for too little
data. -/
def Obligations.AssetFaultsComeBeforeAnyEvent : Prop :=
  ∀ (s : State) (x y fg bg : Word) (hd : Handle) (hasBg : Bool), s.status.fault = false →
    ((∀ g, s.resolve hd ≠ some (.glyph g)) →
      ∃ t, exec (.drawChar x y fg bg hd hasBg) s = .next t ∧ Faults s [] .badAsset t) ∧
    (∀ g, s.resolve hd = some (.glyph g) → g.bpr.toNat = 0 ∨ g.bpr.toNat > 8 →
      ∃ t, exec (.drawChar x y fg bg hd hasBg) s = .next t ∧ Faults s [] .glyphFormat t) ∧
    (∀ g, s.resolve hd = some (.glyph g) → 1 ≤ g.bpr.toNat → g.bpr.toNat ≤ 8 →
      (if s.params.glyphColumnRealign then g.w.toNat * ((g.h.toNat + g.bpr.toNat - 1) / g.bpr.toNat)
       else (g.w.toNat * g.h.toNat + g.bpr.toNat - 1) / g.bpr.toNat) > g.bits.length →
      ∃ t, exec (.drawChar x y fg bg hd hasBg) s = .next t ∧ Faults s [] .assetRange t) ∧
    ((∀ b, s.resolve hd ≠ some (.bitmap b)) →
      ∃ t, exec (.drawBitmap x y hd) s = .next t ∧ Faults s [] .badAsset t) ∧
    (∀ b, s.resolve hd = some (.bitmap b) → b.data.length < 2 * b.w.toNat * b.h.toNat →
      ∃ t, exec (.drawBitmap x y hd) s = .next t ∧ Faults s [] .assetRange t)

/-! ## Orientation and INIT -/

/-- ROTATE_DISPLAY completes: the memory-access-control command with the mode's byte, then ORIENT = rotation mod 4 and the
dimensions of that mode; nothing else changes. -/
def Obligations.RotateDisplaySetsTheOrientation : Prop :=
  ∀ (s : State) (rotation : Byte), ∃ t, exec (.rotateDisplay rotation) s = .next t ∧
    t.orient.toNat = rotation.toNat % 4 ∧
    (t.w, t.h) = (if rotation.toNat % 2 = 0 then (s.params.panelW, s.params.panelH)
                  else (s.params.panelH, s.params.panelW)) ∧
    Completes s
      (bracketed s.params [.cmd 0x36] ++
       bracketed s.params [.dat ((s.params.madctlPat.toList[rotation.toNat % 4]?).getD 0)])
      { t with orient := s.orient, w := s.w, h := s.h }

/-- ROTATE_DISPLAY(r) and ROTATE_DISPLAY(r mod 4) do the same. -/
def Obligations.RotationIsModuloFour : Prop :=
  ∀ (s : State) (rotation : Byte), exec (.rotateDisplay rotation) s = exec (.rotateDisplay (rotation % 4)) s

/-- INIT completes with the fixed sequence, every command with its data followed by one settle gap; ORIENT, W and H return to
their INIT values, INITED is set, and the observer is defined, not armed and knows no pixel. -/
def Obligations.InitRunsTheFixedSequence : Prop :=
  ∀ s : State, ∃ t, exec .init s = .next t ∧
    t.trace = s.trace ++
      ([.xportEnable] ++ (if s.params.csMode = .perGroup then [.csRelease] else []) ++
       bracketed s.params [.cmd 0x01] ++ [.settle] ++ bracketed s.params [.cmd 0x11] ++ [.settle] ++
       bracketed s.params [.cmd 0x3A] ++ bracketed s.params [.dat 0x55] ++ [.settle] ++
       bracketed s.params [.cmd 0x36] ++ bracketed s.params [.dat (s.params.madctlPat[0])] ++ [.settle] ++
       bracketed s.params [.cmd 0x21] ++ [.settle] ++ bracketed s.params [.cmd 0x13] ++ [.settle] ++
       bracketed s.params [.cmd 0x29] ++ [.settle]) ∧
    t.orient = 0 ∧ t.w = s.params.panelW ∧ t.h = s.params.panelH ∧
    t.status = { s.status with busy := false, inited := true } ∧ t.seq = .idle ∧ t.faultCode = s.faultCode ∧
    t.dc = false ∧ t.cs = (if s.params.csMode = .perGroup then .released else s.cs) ∧
    t.panel.undef = false ∧ t.panel.armed = false ∧ t.panel.gram = [] ∧
    t.params = s.params ∧ t.assets = s.assets ∧ t.host = s.host ∧ t.readData = s.readData

/-- Only INIT emits Settle or XportEnable; INIT emits exactly 7 and 1 of them. -/
def Obligations.OnlyInitSettles : Prop :=
  ∀ (i : Instr) (s t : State), exec i s = .next t →
    t.trace.count .settle = s.trace.count .settle + (if i = .init then 7 else 0) ∧
    t.trace.count .xportEnable = s.trace.count .xportEnable + (if i = .init then 1 else 0)

/-! ## Rules over all operations -/

/-- Every operation answers a next state and changes no parameter, asset or host side; only INIT and ROTATE_DISPLAY write W,
H and ORIENT, only INIT sets INITED, and none clears it. -/
def Obligations.OperationsKeepWhatTheyDoNotWrite : Prop :=
  ∀ (i : Instr) (s : State), ∃ t, exec i s = .next t ∧
    t.params = s.params ∧ t.assets = s.assets ∧ t.host = s.host ∧ t.readData = s.readData ∧
    t.status.inited = (s.status.inited || decide (i = .init)) ∧ t.status.busy = false ∧
    (i.writesSurface = false → t.w = s.w ∧ t.h = s.h ∧ t.orient = s.orient) ∧
    ∃ es, t.trace = s.trace ++ es

/-- The operations that check nothing do not read the surface: with other W, H and ORIENT they do exactly the same. -/
def Obligations.UncheckedOperationsIgnoreTheSurface : Prop :=
  ∀ (i : Instr) (s t : State) (w h : Word) (orient : BitVec 2), i.ignoresSurface = true → exec i s = .next t →
    exec i { s with w := w, h := h, orient := orient } = .next { t with w := w, h := h, orient := orient }

/-- Each wire command completes with its command byte as a group and its data bytes as a group. That a wire command can be
run by itself is the model's choice (assumption 3). -/
def Obligations.WireCommandsComplete : Prop :=
  ∀ s : State,
    (∃ t, exec .wireSoftwareReset s = .next t ∧ Completes s (bracketed s.params [.cmd 0x01]) t) ∧
    (∃ t, exec .wireSleepOut s = .next t ∧ Completes s (bracketed s.params [.cmd 0x11]) t) ∧
    (∃ t, exec .wireColorMode s = .next t ∧
      Completes s (bracketed s.params [.cmd 0x3A] ++ bracketed s.params [.dat 0x55]) t) ∧
    (∀ pat, ∃ t, exec (.wireMemoryAccessControl pat) s = .next t ∧
      Completes s (bracketed s.params [.cmd 0x36] ++ bracketed s.params [.dat pat]) t) ∧
    (∃ t, exec .wireInversionOn s = .next t ∧ Completes s (bracketed s.params [.cmd 0x21]) t) ∧
    (∃ t, exec .wireNormalDisplayOn s = .next t ∧ Completes s (bracketed s.params [.cmd 0x13]) t) ∧
    (∃ t, exec .wireDisplayOn s = .next t ∧ Completes s (bracketed s.params [.cmd 0x29]) t) ∧
    (∀ x1 x2, ∃ t, exec (.wireColumnAddressSet x1 x2) s = .next t ∧
      Completes s (bracketed s.params [.cmd 0x2A] ++ bracketed s.params (wordEvents x1 ++ wordEvents x2)) t) ∧
    (∀ y1 y2, ∃ t, exec (.wireRowAddressSet y1 y2) s = .next t ∧
      Completes s (bracketed s.params [.cmd 0x2B] ++ bracketed s.params (wordEvents y1 ++ wordEvents y2)) t) ∧
    (∃ t, exec .wireMemoryWrite s = .next t ∧ Completes s (bracketed s.params [.cmd 0x2C]) t)

/-! ## The panel

These statements are about the spec's reference panel observer (R64 to R69, its decision D29) as the model reads it: its
parse of the wire is the model's inference (assumption 8). What a pixel holds is claimed only while the observer is
defined (R64). -/

/-- FILL_RECT on the panel: if the observer is defined after it, every pixel of the clipped rectangle has the colour and every
other pixel is as before; and a surface no larger than the panel keeps a defined observer defined. -/
def Obligations.FillRectPaintsTheClippedRectangle : Prop :=
  ∀ (s : State) (x y w h color : Word), x.toNat < s.w.toNat → y.toNat < s.h.toNat → w ≠ 0 → h ≠ 0 →
    ∃ t, exec (.fillRect x y w h color) s = .next t ∧
      (t.panel.undef = false → ∀ col row : Nat, col < 65536 → row < 65536 →
        t.panel.pixel col row =
          if inWindow x.toNat y.toNat (x.toNat + min w.toNat (s.w.toNat - x.toNat) - 1)
              (y.toNat + min h.toNat (s.h.toNat - y.toNat) - 1) col row
          then some color else s.panel.pixel col row) ∧
      (s.panel.settled → s.w.toNat ≤ s.params.panelW.toNat → s.h.toNat ≤ s.params.panelH.toNat →
        t.panel.undef = s.panel.undef)

/-- FILL_RECT_FAST on the panel: with no pixels to send it changes none; with a window that does not pass 65535 it paints
exactly its rectangle, if the observer is defined after it; and otherwise the window is malformed and the observer
undefined. -/
def Obligations.FillRectFastPaintsItsRectangle : Prop :=
  ∀ (s : State) (x y w h color : Word), ∃ t, exec (.fillRectFast x y w h color) s = .next t ∧
    (w = 0 ∨ h = 0 → t.panel.gram = s.panel.gram) ∧
    (w ≠ 0 → h ≠ 0 → x.toNat + w.toNat ≤ 65536 → y.toNat + h.toNat ≤ 65536 →
      t.panel.undef = false → ∀ col row : Nat, col < 65536 → row < 65536 →
        t.panel.pixel col row =
          if inWindow x.toNat y.toNat (x.toNat + w.toNat - 1) (y.toNat + h.toNat - 1) col row
          then some color else s.panel.pixel col row) ∧
    (w ≠ 0 → h ≠ 0 → x.toNat + w.toNat > 65536 ∨ y.toNat + h.toNat > 65536 → t.panel.undef = true)

/-- DRAW_PIXEL completes with a 1×1 window and one pixel, without a bounds check. On the panel, if the observer is defined
after it, the one pixel has the colour and every other pixel is as before; off the panel the observer is undefined. -/
def Obligations.DrawPixelPaintsOnePixel : Prop :=
  ∀ (s : State) (x y color : Word), ∃ t, exec (.drawPixel x y color) s = .next t ∧
    Completes s (paintEvents s.params x y x y color 1) t ∧
    (t.panel.undef = false → ∀ col row : Nat, col < 65536 → row < 65536 →
      t.panel.pixel col row = if col = x.toNat ∧ row = y.toNat then some color else s.panel.pixel col row) ∧
    (t.panel.undef = true ↔ s.panel.undef = true ∨ ¬ s.panel.settled ∨ inPanel s.params x.toNat y.toNat = false)

/-- The lines on the panel, if the observer is defined after them: DRAW_FAST_H_LINE, DRAW_FAST_V_LINE and DRAW_LINE change no
pixel outside their bands and the t×t blocks at their sample points. -/
def Obligations.LinesKeepPixelsOutsideTheirBlocks : Prop :=
  ∀ (s : State) (t : Byte) (color : Word) (col row : Nat), col < 65536 → row < 65536 →
    (∀ x0 y0 x1 : Word, inWindow (lower x0 x1).toNat y0.toNat (upper x0 x1).toNat (y0.toNat + t.toNat - 1) col row = false →
      ∃ u, exec (.drawFastHLine x0 y0 x1 t color) s = .next u ∧
        (u.panel.undef = false → u.panel.pixel col row = s.panel.pixel col row)) ∧
    (∀ x0 y0 y1 : Word, inWindow x0.toNat (lower y0 y1).toNat (x0.toNat + t.toNat - 1) (upper y0 y1).toNat col row = false →
      ∃ u, exec (.drawFastVLine x0 y0 y1 t color) s = .next u ∧
        (u.panel.undef = false → u.panel.pixel col row = s.panel.pixel col row)) ∧
    (∀ x0 y0 x1 y1 : Word, x0 ≠ x1 → y0 ≠ y1 →
      (∀ q ∈ linePoints x0 y0 x1 y1, ¬ (q.1 ≤ col ∧ col < q.1 + t.toNat ∧ q.2 ≤ row ∧ row < q.2 + t.toNat)) →
      ∃ u, exec (.drawLine x0 y0 x1 y1 t color) s = .next u ∧
        (u.panel.undef = false → u.panel.pixel col row = s.panel.pixel col row))

/-- DRAW_RECTANGLE on the panel, if the observer is defined after it: no pixel off its four edges changes, the corner
(x + cw, y + ch) and the inside among them. -/
def Obligations.OutlineKeepsPixelsOffItsEdges : Prop :=
  ∀ (s : State) (x y w h color : Word) (cw ch col row : Nat), x.toNat < s.w.toNat → y.toNat < s.h.toNat →
    w ≠ 0 → h ≠ 0 → cw = min w.toNat (s.w.toNat - x.toNat) → ch = min h.toNat (s.h.toNat - y.toNat) →
    col < 65536 → row < 65536 →
    ¬ (x.toNat ≤ col ∧ col < x.toNat + cw ∧ (row = y.toNat ∨ row = y.toNat + ch)) →
    ¬ (y.toNat ≤ row ∧ row < y.toNat + ch ∧ (col = x.toNat ∨ col = x.toNat + cw)) →
    ∃ t, exec (.drawRectangle x y w h color) s = .next t ∧
      (t.panel.undef = false → t.panel.pixel col row = s.panel.pixel col row)

/-- Text on the panel, if the observer is defined after it: DRAW_CHAR changes no pixel outside its glyph's cell, and
DRAW_STRING_MAIN none outside the cells of the glyphs its layout places, whether it completes or faults. -/
def Obligations.TextKeepsPixelsOutsideItsCells : Prop :=
  ∀ (s : State) (x y fg bg : Word) (hasBg : Bool) (col row : Nat), col < 65536 → row < 65536 →
    (∀ glyph : Handle,
      (∀ g, s.resolve glyph = some (.glyph g) → ∀ i < g.w.toNat, ∀ j < g.h.toNat,
        ¬ (col = (x.toNat + i) % 65536 ∧ row = (y.toNat + j) % 65536)) →
      ∃ t, exec (.drawChar x y fg bg glyph hasBg) s = .next t ∧
        (t.panel.undef = false → t.panel.pixel col row = s.panel.pixel col row)) ∧
    (∀ str font : Handle,
      (∀ bytes f, s.resolve str = some (.string bytes) → s.resolve font = some (.font f) →
        ∀ q ∈ (s.stringPlan f bytes x y).drawn, ∀ i < q.1.w.toNat, ∀ j < q.1.h.toNat,
          ¬ (col = (q.2.1.toNat + i) % 65536 ∧ row = (q.2.2.toNat + j) % 65536)) →
      ∃ t, exec (.drawStringMain x y str fg bg font hasBg) s = .next t ∧
        (t.panel.undef = false → t.panel.pixel col row = s.panel.pixel col row))

/-- FILL_COLOR sends no command byte: it neither arms a window nor ends a memory write, and moves no armed window. With no
memory write in progress it changes no pixel; with one, and the cursor in the window's columns and not above it, it changes
no pixel outside the window, if the observer is defined after it. -/
def Obligations.FillColorStaysInTheWindow : Prop :=
  ∀ (s : State) (color : Word) (n : Long), ∃ t es, exec (.fillColor color n) s = .next t ∧
    t.trace = s.trace ++ es ∧ es.countP Event.isCmd = 0 ∧ t.panel.armed = s.panel.armed ∧
    (s.panel.armed = false → t.panel.gram = s.panel.gram) ∧
    (s.panel.armed = true →
      t.panel.xs = s.panel.xs ∧ t.panel.xe = s.panel.xe ∧ t.panel.ys = s.panel.ys ∧ t.panel.ye = s.panel.ye) ∧
    (s.panel.armed = true → (s.panel.xs.toNat : Int) ≤ s.panel.px → s.panel.px ≤ s.panel.xe.toNat →
      (s.panel.ys.toNat : Int) ≤ s.panel.py → t.panel.undef = false →
      ∀ col row : Nat, col < 65536 → row < 65536 →
        inWindow s.panel.xs.toNat s.panel.ys.toNat s.panel.xe.toNat s.panel.ye.toNat col row = false →
        t.panel.pixel col row = s.panel.pixel col row)

/-- The pixel order of DRAW_BITMAP matches the panel's fill order: where the window does not pass 65535 and the observer is
defined after it, pixel (i, j) of the bitmap lands at (x + i, y + j) and no pixel outside its rectangle changes; and a
bitmap wholly in the panel keeps a defined observer defined. -/
def Obligations.BitmapPixelsLandInPlace : Prop :=
  ∀ (s : State) (x y : Word) (bitmap : Handle) (b : Bitmap), s.resolve bitmap = some (.bitmap b) →
    2 * b.w.toNat * b.h.toNat ≤ b.data.length → x.toNat + b.w.toNat ≤ 65536 → y.toNat + b.h.toNat ≤ 65536 →
    ∃ t, exec (.drawBitmap x y bitmap) s = .next t ∧
      (t.panel.undef = false → ∀ i < b.w.toNat, ∀ j < b.h.toNat, ∀ hi lo : Byte,
        b.data[2 * (j * b.w.toNat + i)]? = some hi → b.data[2 * (j * b.w.toNat + i) + 1]? = some lo →
        t.panel.pixel (x.toNat + i) (y.toNat + j) = some (hi ++ lo)) ∧
      (t.panel.undef = false → ∀ col row : Nat, col < 65536 → row < 65536 →
        ¬ (x.toNat ≤ col ∧ col < x.toNat + b.w.toNat ∧ y.toNat ≤ row ∧ row < y.toNat + b.h.toNat) →
        t.panel.pixel col row = s.panel.pixel col row) ∧
      (s.panel.settled → b.w ≠ 0 → b.h ≠ 0 → x.toNat + b.w.toNat ≤ s.params.panelW.toNat →
        y.toNat + b.h.toNat ≤ s.params.panelH.toNat → t.panel.undef = s.panel.undef)

/-- Commands end the stream: a bare FILL_COLOR of one pixel or more leaves the observer undefined right after INIT, and right
after every operation but FILL_COLOR whose last byte on the wire is data: ROTATE_DISPLAY, and each of the drawing operations
(pixel, rectangles, screen, outline, lines, text, bitmap) where it sends pixels. -/
def Obligations.CommandsEndTheStream : Prop :=
  ∀ (i : Instr) (s t : State) (es : List Event) (color : Word) (n : Long), i.isWire = false → (∀ c m, i ≠ .fillColor c m) →
    exec i s = .next t → t.trace = s.trace ++ es → (i = .init ∨ endsInData es) → n ≠ 0 →
    ∃ u, exec (.fillColor color n) t = .next u ∧ u.panel.undef = true

/-- SET_WINDOW and one FILL_COLOR of a well-formed window: more pixels than the window holds leave the observer undefined,
and no more than that, in a window on the panel, leave it as it was. -/
def Obligations.OverrunIsUndefined : Prop :=
  ∀ (s t : State) (x1 y1 x2 y2 color : Word) (n : Long), x1.toNat ≤ x2.toNat → y1.toNat ≤ y2.toNat →
    exec (.setWindow x1 y1 x2 y2) s = .next t →
    ∃ u, exec (.fillColor color n) t = .next u ∧
      (n.toNat > (x2.toNat - x1.toNat + 1) * (y2.toNat - y1.toNat + 1) → u.panel.undef = true) ∧
      (n.toNat ≤ (x2.toNat - x1.toNat + 1) * (y2.toNat - y1.toNat + 1) → s.panel.settled →
        x2.toNat < s.params.panelW.toNat → y2.toNat < s.params.panelH.toNat → u.panel.undef = s.panel.undef)

/-- Once the observer is undefined only INIT makes it defined again, whatever the other operations do. -/
def Obligations.UndefinedUntilInit : Prop :=
  ∀ (i : Instr) (s t : State), i ≠ .init → s.panel.undef = true → exec i s = .next t → t.panel.undef = true

/-- Memory-access-control makes every pixel unknown and a software reset outside INIT leaves the observer undefined; no other
wire command changes a pixel. That a wire command can be run by itself is the model's choice (assumption 3). -/
def Obligations.WireCommandsAndThePanel : Prop :=
  ∀ s t : State,
    (∀ pat, exec (.wireMemoryAccessControl pat) s = .next t → t.panel.gram = []) ∧
    (∀ r, exec (.rotateDisplay r) s = .next t → t.panel.gram = []) ∧
    (s.panel.initFirst = false → exec .wireSoftwareReset s = .next t → t.panel.undef = true) ∧
    (∀ i : Instr, i.isWire = true → (∀ pat, i ≠ .wireMemoryAccessControl pat) → exec i s = .next t →
      t.panel.gram = s.panel.gram)

/-! ## Invariants -/

/-- The reset state is safe: STATUS agrees with SEQ, W and H with ORIENT, the memories are canonical, no group is open. -/
def Obligations.ResetIsSafe : Prop := State.reset.Safe

/-- Every step keeps STATUS and FAULT_CODE in agreement with SEQ. -/
def Obligations.StepKeepsStatusAgreement : Prop :=
  ∀ s t : State, s.statusAgrees → step s = .next t → t.statusAgrees

/-- Every step keeps the surface invariant: W and H are the dimensions of the current orientation. -/
def Obligations.StepKeepsSurfaceInvariant : Prop :=
  ∀ s t : State, s.surfaceFollows → step s = .next t → t.surfaceFollows

/-- Every step keeps both memories in canonical form, and GRAM within the panel: that a pixel out of range is not written is
the model's inference (assumption 8). -/
def Obligations.StepKeepsMemoryCanonical : Prop :=
  ∀ s t : State, s.memoryOk → step s = .next t → t.memoryOk

/-- Every step keeps the group discipline: chip-select groups never nest or overlap, each holds one command byte or the data
bytes of one group, and none is open between operations. INIT's release of an idle line is allowed (assumption 5); in NONE
mode there are no chip-select events, and the line's level is the model's (assumption 13). -/
def Obligations.StepKeepsGroupsClosed : Prop :=
  ∀ s t : State, s.groupsClosed → step s = .next t → t.groupsClosed
end

