-- ==== Sys2Proof/Laws/State.lean ====
section
/-! SUPPORT. Each field after each update of the state, so that no proof unfolds a record update. -/

namespace Sys2Proof.Machine

/-! ## emitAll -/

@[simp] theorem State.emitAll_params (s : State) (es : List Event) : (s.emitAll es).params = s.params := rfl
@[simp] theorem State.emitAll_w (s : State) (es : List Event) : (s.emitAll es).w = s.w := rfl
@[simp] theorem State.emitAll_h (s : State) (es : List Event) : (s.emitAll es).h = s.h := rfl
@[simp] theorem State.emitAll_orient (s : State) (es : List Event) : (s.emitAll es).orient = s.orient := rfl
@[simp] theorem State.emitAll_status (s : State) (es : List Event) : (s.emitAll es).status = s.status := rfl
@[simp] theorem State.emitAll_faultCode (s : State) (es : List Event) : (s.emitAll es).faultCode = s.faultCode := rfl
@[simp] theorem State.emitAll_seq (s : State) (es : List Event) : (s.emitAll es).seq = s.seq := rfl
@[simp] theorem State.emitAll_dc (s : State) (es : List Event) : (s.emitAll es).dc = es.foldl dcAfter s.dc := rfl
@[simp] theorem State.emitAll_cs (s : State) (es : List Event) : (s.emitAll es).cs = es.foldl csAfter s.cs := rfl
@[simp] theorem State.emitAll_trace (s : State) (es : List Event) : (s.emitAll es).trace = s.trace ++ es := rfl
@[simp] theorem State.emitAll_work (s : State) (es : List Event) : (s.emitAll es).work = s.work := rfl
@[simp] theorem State.emitAll_assets (s : State) (es : List Event) : (s.emitAll es).assets = s.assets := rfl
@[simp] theorem State.emitAll_panel (s : State) (es : List Event) : (s.emitAll es).panel = es.foldl (Panel.observe s.params) s.panel := rfl
@[simp] theorem State.emitAll_host (s : State) (es : List Event) : (s.emitAll es).host = s.host := rfl
@[simp] theorem State.emitAll_readData (s : State) (es : List Event) : (s.emitAll es).readData = s.readData := rfl
@[simp] theorem State.emitAll_free (s : State) (es : List Event) : (s.emitAll es).free = s.free := rfl

/-! ## complete -/

@[simp] theorem State.complete_params (s : State) : (s.complete).params = s.params := rfl
@[simp] theorem State.complete_w (s : State) : (s.complete).w = s.w := rfl
@[simp] theorem State.complete_h (s : State) : (s.complete).h = s.h := rfl
@[simp] theorem State.complete_orient (s : State) : (s.complete).orient = s.orient := rfl
@[simp] theorem State.complete_status (s : State) : (s.complete).status = { s.status with busy := false } := rfl
@[simp] theorem State.complete_faultCode (s : State) : (s.complete).faultCode = s.faultCode := rfl
@[simp] theorem State.complete_seq (s : State) : (s.complete).seq = .idle := rfl
@[simp] theorem State.complete_dc (s : State) : (s.complete).dc = s.dc := rfl
@[simp] theorem State.complete_cs (s : State) : (s.complete).cs = s.cs := rfl
@[simp] theorem State.complete_trace (s : State) : (s.complete).trace = s.trace := rfl
@[simp] theorem State.complete_work (s : State) : (s.complete).work = s.work := rfl
@[simp] theorem State.complete_assets (s : State) : (s.complete).assets = s.assets := rfl
@[simp] theorem State.complete_panel (s : State) : (s.complete).panel = s.panel := rfl
@[simp] theorem State.complete_host (s : State) : (s.complete).host = s.host := rfl
@[simp] theorem State.complete_readData (s : State) : (s.complete).readData = s.readData := rfl
@[simp] theorem State.complete_free (s : State) : (s.complete).free = s.free := rfl

/-! ## raiseFault -/

@[simp] theorem State.raiseFault_params (s : State) (c : FaultCode) : (s.raiseFault c).params = s.params := rfl
@[simp] theorem State.raiseFault_w (s : State) (c : FaultCode) : (s.raiseFault c).w = s.w := rfl
@[simp] theorem State.raiseFault_h (s : State) (c : FaultCode) : (s.raiseFault c).h = s.h := rfl
@[simp] theorem State.raiseFault_orient (s : State) (c : FaultCode) : (s.raiseFault c).orient = s.orient := rfl
@[simp] theorem State.raiseFault_status (s : State) (c : FaultCode) : (s.raiseFault c).status = { s.status with fault := true, busy := false } := rfl
@[simp] theorem State.raiseFault_faultCode (s : State) (c : FaultCode) : (s.raiseFault c).faultCode = if s.status.fault then s.faultCode else c.code := rfl
@[simp] theorem State.raiseFault_seq (s : State) (c : FaultCode) : (s.raiseFault c).seq = .halted := rfl
@[simp] theorem State.raiseFault_dc (s : State) (c : FaultCode) : (s.raiseFault c).dc = s.dc := rfl
@[simp] theorem State.raiseFault_cs (s : State) (c : FaultCode) : (s.raiseFault c).cs = s.cs := rfl
@[simp] theorem State.raiseFault_trace (s : State) (c : FaultCode) : (s.raiseFault c).trace = s.trace := rfl
@[simp] theorem State.raiseFault_work (s : State) (c : FaultCode) : (s.raiseFault c).work = s.work := rfl
@[simp] theorem State.raiseFault_assets (s : State) (c : FaultCode) : (s.raiseFault c).assets = s.assets := rfl
@[simp] theorem State.raiseFault_panel (s : State) (c : FaultCode) : (s.raiseFault c).panel = s.panel := rfl
@[simp] theorem State.raiseFault_host (s : State) (c : FaultCode) : (s.raiseFault c).host = s.host := rfl
@[simp] theorem State.raiseFault_readData (s : State) (c : FaultCode) : (s.raiseFault c).readData = s.readData := rfl
@[simp] theorem State.raiseFault_free (s : State) (c : FaultCode) : (s.raiseFault c).free = s.free := rfl

/-! ## setOrient -/

@[simp] theorem State.setOrient_params (s : State) (r : BitVec 2) : (s.setOrient r).params = s.params := rfl
@[simp] theorem State.setOrient_w (s : State) (r : BitVec 2) : (s.setOrient r).w = (rotDims s.params r).1 := rfl
@[simp] theorem State.setOrient_h (s : State) (r : BitVec 2) : (s.setOrient r).h = (rotDims s.params r).2 := rfl
@[simp] theorem State.setOrient_orient (s : State) (r : BitVec 2) : (s.setOrient r).orient = r := rfl
@[simp] theorem State.setOrient_status (s : State) (r : BitVec 2) : (s.setOrient r).status = s.status := rfl
@[simp] theorem State.setOrient_faultCode (s : State) (r : BitVec 2) : (s.setOrient r).faultCode = s.faultCode := rfl
@[simp] theorem State.setOrient_seq (s : State) (r : BitVec 2) : (s.setOrient r).seq = s.seq := rfl
@[simp] theorem State.setOrient_dc (s : State) (r : BitVec 2) : (s.setOrient r).dc = s.dc := rfl
@[simp] theorem State.setOrient_cs (s : State) (r : BitVec 2) : (s.setOrient r).cs = s.cs := rfl
@[simp] theorem State.setOrient_trace (s : State) (r : BitVec 2) : (s.setOrient r).trace = s.trace := rfl
@[simp] theorem State.setOrient_work (s : State) (r : BitVec 2) : (s.setOrient r).work = s.work := rfl
@[simp] theorem State.setOrient_assets (s : State) (r : BitVec 2) : (s.setOrient r).assets = s.assets := rfl
@[simp] theorem State.setOrient_panel (s : State) (r : BitVec 2) : (s.setOrient r).panel = s.panel := rfl
@[simp] theorem State.setOrient_host (s : State) (r : BitVec 2) : (s.setOrient r).host = s.host := rfl
@[simp] theorem State.setOrient_readData (s : State) (r : BitVec 2) : (s.setOrient r).readData = s.readData := rfl
@[simp] theorem State.setOrient_free (s : State) (r : BitVec 2) : (s.setOrient r).free = s.free := rfl

/-! ## accept -/

@[simp] theorem State.accept_params (s : State) (ws : List Word) : (s.accept ws).params = s.params := rfl
@[simp] theorem State.accept_w (s : State) (ws : List Word) : (s.accept ws).w = s.w := rfl
@[simp] theorem State.accept_h (s : State) (ws : List Word) : (s.accept ws).h = s.h := rfl
@[simp] theorem State.accept_orient (s : State) (ws : List Word) : (s.accept ws).orient = s.orient := rfl
@[simp] theorem State.accept_status (s : State) (ws : List Word) : (s.accept ws).status = { s.status with busy := true } := rfl
@[simp] theorem State.accept_faultCode (s : State) (ws : List Word) : (s.accept ws).faultCode = s.faultCode := rfl
@[simp] theorem State.accept_seq (s : State) (ws : List Word) : (s.accept ws).seq = .busy := rfl
@[simp] theorem State.accept_dc (s : State) (ws : List Word) : (s.accept ws).dc = s.dc := rfl
@[simp] theorem State.accept_cs (s : State) (ws : List Word) : (s.accept ws).cs = s.cs := rfl
@[simp] theorem State.accept_trace (s : State) (ws : List Word) : (s.accept ws).trace = s.trace := rfl
@[simp] theorem State.accept_work (s : State) (ws : List Word) : (s.accept ws).work =
    { Work.unspecified s.free with latch := .descriptor ws } := rfl
@[simp] theorem State.accept_assets (s : State) (ws : List Word) : (s.accept ws).assets = s.assets := rfl
@[simp] theorem State.accept_panel (s : State) (ws : List Word) : (s.accept ws).panel = s.panel := rfl
@[simp] theorem State.accept_host (s : State) (ws : List Word) : (s.accept ws).host = s.host := rfl
@[simp] theorem State.accept_readData (s : State) (ws : List Word) : (s.accept ws).readData = s.readData := rfl
@[simp] theorem State.accept_free (s : State) (ws : List Word) : (s.accept ws).free = s.free + 6 := rfl

/-! ## putAsset -/

@[simp] theorem State.putAsset_params (s : State) (k : Handle) (a : Option Asset) : (s.putAsset k a).params = s.params := rfl
@[simp] theorem State.putAsset_w (s : State) (k : Handle) (a : Option Asset) : (s.putAsset k a).w = s.w := rfl
@[simp] theorem State.putAsset_h (s : State) (k : Handle) (a : Option Asset) : (s.putAsset k a).h = s.h := rfl
@[simp] theorem State.putAsset_orient (s : State) (k : Handle) (a : Option Asset) : (s.putAsset k a).orient = s.orient := rfl
@[simp] theorem State.putAsset_status (s : State) (k : Handle) (a : Option Asset) : (s.putAsset k a).status = s.status := rfl
@[simp] theorem State.putAsset_faultCode (s : State) (k : Handle) (a : Option Asset) : (s.putAsset k a).faultCode = s.faultCode := rfl
@[simp] theorem State.putAsset_seq (s : State) (k : Handle) (a : Option Asset) : (s.putAsset k a).seq = s.seq := rfl
@[simp] theorem State.putAsset_dc (s : State) (k : Handle) (a : Option Asset) : (s.putAsset k a).dc = s.dc := rfl
@[simp] theorem State.putAsset_cs (s : State) (k : Handle) (a : Option Asset) : (s.putAsset k a).cs = s.cs := rfl
@[simp] theorem State.putAsset_trace (s : State) (k : Handle) (a : Option Asset) : (s.putAsset k a).trace = s.trace := rfl
@[simp] theorem State.putAsset_work (s : State) (k : Handle) (a : Option Asset) : (s.putAsset k a).work = s.work := rfl
@[simp] theorem State.putAsset_assets (s : State) (k : Handle) (a : Option Asset) : (s.putAsset k a).assets = Memory.put s.assets k.toNat a := rfl
@[simp] theorem State.putAsset_panel (s : State) (k : Handle) (a : Option Asset) : (s.putAsset k a).panel = s.panel := rfl
@[simp] theorem State.putAsset_host (s : State) (k : Handle) (a : Option Asset) : (s.putAsset k a).host = s.host := rfl
@[simp] theorem State.putAsset_readData (s : State) (k : Handle) (a : Option Asset) : (s.putAsset k a).readData = s.readData := rfl
@[simp] theorem State.putAsset_free (s : State) (k : Handle) (a : Option Asset) : (s.putAsset k a).free = s.free := rfl

/-! ## latch -/

@[simp] theorem State.latch_params (s : State) (op : Fetched) : (s.latch op).params = s.params := rfl
@[simp] theorem State.latch_w (s : State) (op : Fetched) : (s.latch op).w = s.w := rfl
@[simp] theorem State.latch_h (s : State) (op : Fetched) : (s.latch op).h = s.h := rfl
@[simp] theorem State.latch_orient (s : State) (op : Fetched) : (s.latch op).orient = s.orient := rfl
@[simp] theorem State.latch_status (s : State) (op : Fetched) : (s.latch op).status = { s.status with busy := true } := rfl
@[simp] theorem State.latch_faultCode (s : State) (op : Fetched) : (s.latch op).faultCode = s.faultCode := rfl
@[simp] theorem State.latch_seq (s : State) (op : Fetched) : (s.latch op).seq = .busy := rfl
@[simp] theorem State.latch_dc (s : State) (op : Fetched) : (s.latch op).dc = s.dc := rfl
@[simp] theorem State.latch_cs (s : State) (op : Fetched) : (s.latch op).cs = s.cs := rfl
@[simp] theorem State.latch_trace (s : State) (op : Fetched) : (s.latch op).trace = s.trace := rfl
@[simp] theorem State.latch_work (s : State) (op : Fetched) : (s.latch op).work = { s.work with latch := op } := rfl
@[simp] theorem State.latch_assets (s : State) (op : Fetched) : (s.latch op).assets = s.assets := rfl
@[simp] theorem State.latch_panel (s : State) (op : Fetched) : (s.latch op).panel = s.panel := rfl
@[simp] theorem State.latch_host (s : State) (op : Fetched) : (s.latch op).host = [] := rfl
@[simp] theorem State.latch_readData (s : State) (op : Fetched) : (s.latch op).readData = s.readData := rfl
@[simp] theorem State.latch_free (s : State) (op : Fetched) : (s.latch op).free = s.free := rfl

/-! ## blockReset -/

@[simp] theorem State.blockReset_params (s : State) : (s.blockReset).params = s.params := rfl
@[simp] theorem State.blockReset_w (s : State) : (s.blockReset).w = s.params.panelW := rfl
@[simp] theorem State.blockReset_h (s : State) : (s.blockReset).h = s.params.panelH := rfl
@[simp] theorem State.blockReset_orient (s : State) : (s.blockReset).orient = 0 := rfl
@[simp] theorem State.blockReset_status (s : State) : (s.blockReset).status = ⟨false, false, false⟩ := rfl
@[simp] theorem State.blockReset_faultCode (s : State) : (s.blockReset).faultCode = 0 := rfl
@[simp] theorem State.blockReset_seq (s : State) : (s.blockReset).seq = .idle := rfl
@[simp] theorem State.blockReset_dc (s : State) : (s.blockReset).dc = Config.freeBit (s.free + 1) := rfl
@[simp] theorem State.blockReset_cs (s : State) : (s.blockReset).cs = .released := rfl
@[simp] theorem State.blockReset_trace (s : State) : (s.blockReset).trace = [] := rfl
@[simp] theorem State.blockReset_work (s : State) : (s.blockReset).work = Work.unspecified s.free := rfl
@[simp] theorem State.blockReset_assets (s : State) : (s.blockReset).assets = s.assets := rfl
@[simp] theorem State.blockReset_panel (s : State) : (s.blockReset).panel = Panel.atReset (s.free + 6) := rfl
@[simp] theorem State.blockReset_host (s : State) : (s.blockReset).host = s.host := rfl
@[simp] theorem State.blockReset_readData (s : State) : (s.blockReset).readData = s.readData := rfl
@[simp] theorem State.blockReset_free (s : State) : (s.blockReset).free = s.free + 10 := rfl

/-! ## afterInit -/

@[simp] theorem State.afterInit_params (s : State) : (s.afterInit).params = s.params := rfl
@[simp] theorem State.afterInit_w (s : State) : (s.afterInit).w = s.params.panelW := rfl
@[simp] theorem State.afterInit_h (s : State) : (s.afterInit).h = s.params.panelH := rfl
@[simp] theorem State.afterInit_orient (s : State) : (s.afterInit).orient = 0 := rfl
@[simp] theorem State.afterInit_status (s : State) : (s.afterInit).status = { s.status with inited := true } := rfl
@[simp] theorem State.afterInit_faultCode (s : State) : (s.afterInit).faultCode = s.faultCode := rfl
@[simp] theorem State.afterInit_seq (s : State) : (s.afterInit).seq = s.seq := rfl
@[simp] theorem State.afterInit_dc (s : State) : (s.afterInit).dc = s.dc := rfl
@[simp] theorem State.afterInit_cs (s : State) : (s.afterInit).cs = s.cs := rfl
@[simp] theorem State.afterInit_trace (s : State) : (s.afterInit).trace = s.trace := rfl
@[simp] theorem State.afterInit_work (s : State) : (s.afterInit).work = s.work := rfl
@[simp] theorem State.afterInit_assets (s : State) : (s.afterInit).assets = s.assets := rfl
@[simp] theorem State.afterInit_panel (s : State) : (s.afterInit).panel = s.panel.afterInit s.free := rfl
@[simp] theorem State.afterInit_host (s : State) : (s.afterInit).host = s.host := rfl
@[simp] theorem State.afterInit_readData (s : State) : (s.afterInit).readData = s.readData := rfl
@[simp] theorem State.afterInit_free (s : State) : (s.afterInit).free = s.free + 4 := rfl

end Sys2Proof.Machine
end

