-- ==== Sys2Proof/Laws/Ops.lean ====
section
/-! SUPPORT. One spec lemma for each shared operation: what it emits, and that it changes nothing beside the wire and the
working registers. The lemmas of the meanings cite these. -/

namespace Sys2Proof.Machine

/-! ## Emitting -/

@[simp] theorem State.emitAll_nil (s : State) : s.emitAll [] = s := by
  simp [State.emitAll]

theorem State.emitAll_append (s : State) (es fs : List Event) : (s.emitAll es).emitAll fs = s.emitAll (es ++ fs) := by
  simp [State.emitAll]

/-- t is s after emitting es, its working registers aside: all that a drawing subroutine can do. -/
def Draws (s : State) (es : List Event) (t : State) : Prop := t = { s.emitAll es with work := t.work }

theorem Draws.refl (s : State) : Draws s [] s := by
  simp [Draws]

theorem draws_emitAll (s : State) (es : List Event) : Draws s es (s.emitAll es) := rfl

theorem Draws.withWork {s t : State} {es : List Event} (h : Draws s es t) (wk : Work) :
    Draws s es { t with work := wk } := by
  unfold Draws at h ⊢
  rw [h]

theorem Draws.trans {s t u : State} {es fs : List Event} (h : Draws s es t) (k : Draws t fs u) :
    Draws s (es ++ fs) u := by
  unfold Draws at h k ⊢
  rw [k, h]
  simp [State.emitAll]

@[simp] theorem Draws.params {s t : State} {es : List Event} (h : Draws s es t) : t.params = s.params := by
  rw [h]; rfl

theorem Draws.assets {s t : State} {es : List Event} (h : Draws s es t) : t.assets = s.assets := by
  rw [h]; rfl

theorem Draws.w {s t : State} {es : List Event} (h : Draws s es t) : t.w = s.w := by
  rw [h]; rfl

theorem Draws.h {s t : State} {es : List Event} (h : Draws s es t) : t.h = s.h := by
  rw [h]; rfl

/-- Completion of what a drawing subroutine did. -/
theorem Draws.completes {s t : State} {es : List Event} (h : Draws s es t) : Completes s es t.complete := by
  rw [h]
  constructor <;> rfl

/-- Fault entry after what a drawing subroutine did. -/
theorem Draws.faults {s t : State} {es : List Event} (h : Draws s es t) (nf : s.status.fault = false) (c : FaultCode) :
    Faults s es c (t.raiseFault c) := by
  rw [h]
  constructor <;> simp [State.raiseFault, nf]

/-! ## Running and faulting -/

@[simp] theorem Flow.bind_ok {α β : Type} (v : α) (s : State) (next : α → State → Flow β) :
    (Flow.ok v s).bind next = next v s := rfl

@[simp] theorem Flow.bind_raised {α β : Type} (c : FaultCode) (s : State) (next : α → State → Flow β) :
    (Flow.raised c s : Flow α).bind next = .raised c s := rfl

@[simp] theorem Flow.finish_ok {α : Type} (v : α) (s : State) : (Flow.ok v s).finish = s.complete := rfl

@[simp] theorem Flow.finish_raised {α : Type} (c : FaultCode) (s : State) :
    (Flow.raised c s : Flow α).finish = s.raiseFault c := rfl

/-! ## The wire subroutines -/

theorem csEdge_bracket (p : Params) (es : List Event) :
    csEdge p .csAssert ++ es ++ csEdge p .csRelease = bracketed p es := by
  unfold csEdge bracketed
  cases p.csMode <;> simp

theorem commandGroup_eq (p : Params) (c : Byte) : commandGroup p c = bracketed p [.cmd c] :=
  csEdge_bracket p [.cmd c]

theorem dataGroup_eq (p : Params) (bs : List Byte) : dataGroup p bs = bytesEvents p bs := by
  unfold dataGroup bytesEvents
  cases bs with
  | nil => rfl
  | cons b rest => simpa using csEdge_bracket p ((b :: rest).map .dat)

theorem wireCommand_draws (s : State) (c : Byte) (bs : List Byte) :
    Draws s (bracketed s.params [.cmd c] ++ bytesEvents s.params bs) (s.wireCommand c bs) := by
  have h := (draws_emitAll s (commandGroup s.params c)).trans
    (draws_emitAll (s.emitAll (commandGroup s.params c)) (dataGroup s.params bs))
  rw [commandGroup_eq, dataGroup_eq] at h
  simpa [State.wireCommand, State.writeCommand, State.writeData, commandGroup_eq, dataGroup_eq] using h

theorem coordBytes_events (a b : Int) : (coordBytes a b).map Event.dat = wordEvents (lo16 a) ++ wordEvents (lo16 b) := rfl

/-- SetWindow emits one window, each argument reduced by lo16. -/
theorem setWindow_draws (s : State) (x1 y1 x2 y2 : Int) :
    Draws s (windowEvents s.params (lo16 x1) (lo16 y1) (lo16 x2) (lo16 y2)) (s.setWindow x1 y1 x2 y2) := by
  have a := wireCommand_draws s 0x2A (coordBytes x1 x2)
  have b := wireCommand_draws (s.columnAddressSet x1 x2) 0x2B (coordBytes y1 y2)
  have c := wireCommand_draws ((s.columnAddressSet x1 x2).rowAddressSet y1 y2) 0x2C []
  have h := (Draws.trans a b).trans c
  have p1 : (s.columnAddressSet x1 x2).params = s.params := a.params
  have p2 : ((s.columnAddressSet x1 x2).rowAddressSet y1 y2).params = s.params := b.params.trans p1
  rw [p1, p2] at h
  simpa [bytesEvents, windowEvents, coordBytes_events, coordBytes, wordEvents, hi8, lo8, hiByte, loByte,
    State.setWindow, State.memoryWrite] using h

theorem pixelBytes_events (color : Word) (n : Nat) :
    (pixelBytes color n).map Event.dat = (List.replicate n (wordEvents color)).flatten := by
  unfold pixelBytes
  rw [List.map_flatten, List.map_replicate]
  rfl

theorem pixelBytes_group (p : Params) (color : Word) (n : Nat) :
    bytesEvents p (pixelBytes color n) = pixelsEvents p color n := by
  unfold bytesEvents pixelsEvents
  rw [pixelBytes_events]
  cases n with
  | zero => rfl
  | succ k => simp [pixelBytes, List.replicate_succ]

/-- FillColor emits n pixels of one colour as one group. -/
theorem fillColor_draws (s : State) (color : Word) (n : Nat) :
    Draws s (pixelsEvents s.params color n) (s.fillColor color n) := by
  have h := draws_emitAll s (dataGroup s.params (pixelBytes color n))
  rw [dataGroup_eq, pixelBytes_group] at h
  unfold State.fillColor State.writeData
  rw [dataGroup_eq, pixelBytes_group]
  exact h.withWork _

/-- A window and its fill. -/
theorem fillWindow_draws (s : State) (x1 y1 x2 y2 : Int) (color : Word) (n : Nat) :
    Draws s (paintEvents s.params (lo16 x1) (lo16 y1) (lo16 x2) (lo16 y2) color n)
      (s.fillWindow x1 y1 x2 y2 color n) := by
  have h := setWindow_draws s x1 y1 x2 y2
  have k := fillColor_draws (s.setWindow x1 y1 x2 y2) color n
  rw [h.params] at k
  exact h.trans k

theorem pixel_draws (s : State) (x y : Int) (color : Word) :
    Draws s (paintEvents s.params (lo16 x) (lo16 y) (lo16 x) (lo16 y) color 1) (s.pixel x y color) :=
  fillWindow_draws s x y x y color 1

end Sys2Proof.Machine
end

