-- ==== Sys2Proof/Laws/Draw.lean ====
section
/-! SUPPORT. One spec lemma for each drawing subroutine of the Rasterizer and the Bitmap Blitter, and the closed form of
the two line steppers. -/

namespace Sys2Proof.Machine

/-! ## Numbers on the wire -/

@[simp] theorem lo16_zext (v : Word) : lo16 (zext v) = v := by
  apply BitVec.eq_of_toNat_eq
  simp [lo16, zext]

theorem lo16_natCast (n : Nat) : lo16 (n : Int) = BitVec.ofNat 16 n := by
  apply BitVec.eq_of_toNat_eq
  simp [lo16]

/-- The last column of a window that begins at x and is w wide, reduced by lo16 (R11). -/
theorem lo16_end (x w : Word) : lo16 (zext x + zext w - 1) = x + w - 1 := by
  apply BitVec.eq_of_toNat_eq
  have := x.isLt
  have := w.isLt
  simp [lo16, zext, BitVec.toNat_ofInt, BitVec.toNat_sub, BitVec.toNat_add]
  omega

theorem zext_min (a b : Word) : min (zext a) (zext b) = zext (lower a b) := by
  unfold lower zext
  split <;> omega

theorem zext_max (a b : Word) : max (zext a) (zext b) = zext (upper a b) := by
  unfold upper zext
  split <;> omega

theorem lower_le_upper (a b : Word) : (lower a b).toNat ≤ (upper a b).toNat := by
  unfold lower upper
  split <;> omega

/-! ## Fast lines (R115, R117) -/

theorem hLine_draws (s : State) (x0 y0 x1 : Word) (t : Nat) (color : Word) :
    Draws s (hLineEvents s.params x0 y0 x1 t color) (s.hLine (zext x0) (zext y0) (zext x1) t color) := by
  have h := fillWindow_draws s (zext (lower x0 x1)) (zext y0) (zext (upper x0 x1)) (zext y0 + t - 1) color
    (((upper x0 x1).toNat - (lower x0 x1).toNat + 1) * t)
  rw [lo16_zext, lo16_zext, lo16_zext] at h
  have := lower_le_upper x0 x1
  have e : (zext (upper x0 x1) - zext (lower x0 x1) + 1).toNat = (upper x0 x1).toNat - (lower x0 x1).toNat + 1 := by
    unfold zext
    omega
  simpa only [State.hLine, zext_min, zext_max, e, hLineEvents] using h

theorem vLine_draws (s : State) (x0 y0 y1 : Word) (t : Nat) (color : Word) :
    Draws s (vLineEvents s.params x0 y0 y1 t color) (s.vLine (zext x0) (zext y0) (zext y1) t color) := by
  have h := fillWindow_draws s (zext x0) (zext (lower y0 y1)) (zext x0 + t - 1) (zext (upper y0 y1)) color
    (((upper y0 y1).toNat - (lower y0 y1).toNat + 1) * t)
  rw [lo16_zext, lo16_zext, lo16_zext] at h
  have := lower_le_upper y0 y1
  have e : (zext (upper y0 y1) - zext (lower y0 y1) + 1).toNat = (upper y0 y1).toNat - (lower y0 y1).toNat + 1 := by
    unfold zext
    omega
  simpa only [State.vLine, zext_min, zext_max, e, vLineEvents] using h

/-! ## The steppers (R122, R123) -/

/-- The sample points of n passes of a stepper from registers r. -/
def stepPoints (next : LineRegs → LineRegs) (n : Nat) (r : LineRegs) : List (Int × Int) :=
  match n with
  | 0 => []
  | k + 1 => (r.sx, r.sy) :: stepPoints next k (next r)

/-- n passes of a stepper draw a thick pixel at each of its sample points. -/
theorem stepLine_draws (next : LineRegs → LineRegs) (t : Nat) (color : Word) (n : Nat) (r : LineRegs) (s : State) :
    Draws s (thickEvents s.params t color (stepPoints next n r)) (State.stepLine next t color n r s) := by
  induction n generalizing r s with
  | zero => exact (Draws.refl s).withWork _
  | succ k ih =>
    have a := fillWindow_draws s r.sx r.sy (r.sx + t - 1) (r.sy + t - 1) color (t * t)
    have b := ih (next r) (s.thick r.sx r.sy t color)
    have p : (s.thick r.sx r.sy t color).params = s.params := a.params
    rw [p] at b
    exact a.trans b

/-- The minor steps at the next sample: one more exactly when the decision variable is positive. -/
theorem minorSteps_succ {dmaj dmin : Nat} (pos : 0 < dmaj) (le : dmin ≤ dmaj) (k : Nat) :
    minorSteps dmaj dmin (k + 1) =
      minorSteps dmaj dmin k +
        (if (0 : Int) < 2 * (k + 1) * dmin - dmaj - 2 * dmaj * minorSteps dmaj dmin k then 1 else 0) := by
  unfold minorSteps
  set a := 2 * k * dmin + dmaj - 1 with ha
  have e : 2 * (k + 1) * dmin + dmaj - 1 = a + 2 * dmin := by
    have : 2 * (k + 1) * dmin = 2 * k * dmin + 2 * dmin := by ring
    omega
  have d := Nat.div_add_mod a (2 * dmaj)
  have m := Nat.mod_lt a (show 0 < 2 * dmaj by omega)
  rw [e]
  set q := a / (2 * dmaj) with hq
  have i : (2 * ((k : Int) + 1) * dmin - dmaj - 2 * dmaj * q : Int) = (a % (2 * dmaj) : Nat) + 1 + 2 * dmin - 2 * dmaj := by
    have z : ((2 * dmaj * q : Nat) : Int) + ((a % (2 * dmaj) : Nat) : Int) = (2 * k * dmin + dmaj : Nat) - 1 := by
      rw [← Int.natCast_add, d, ha]
      omega
    push_cast at z ⊢
    linarith
  rw [i]
  by_cases c : 2 * dmaj ≤ a % (2 * dmaj) + 2 * dmin
  · rw [if_pos (by omega)]
    refine (Nat.div_eq_iff (by omega)).2 ?_
    have : 2 * dmaj * (q + 1) = 2 * dmaj * q + 2 * dmaj := by ring
    have : (q + 1) * (2 * dmaj) = 2 * dmaj * q + 2 * dmaj := by ring
    omega
  · rw [if_neg (by omega)]
    refine (Nat.div_eq_iff (by omega)).2 ?_
    have : (q + 0) * (2 * dmaj) = 2 * dmaj * q := by ring
    omega

theorem minorSteps_zero {dmaj : Nat} (pos : 0 < dmaj) (dmin : Nat) : minorSteps dmaj dmin 0 = 0 := by
  unfold minorSteps
  rw [Nat.div_eq_of_lt]
  omega

/-- The registers of the shallow stepper at its k-th sample. -/
def shallowAt (x0 y0 inc : Int) (dmaj dmin k : Nat) : LineRegs :=
  ⟨x0 + k, y0 + inc * minorSteps dmaj dmin k, dmaj, dmin, inc, 2 * (k + 1) * dmin - dmaj - 2 * dmaj * minorSteps dmaj dmin k⟩

/-- The registers of the steep stepper at its k-th sample. -/
def steepAt (x0 y0 inc : Int) (dmaj dmin k : Nat) : LineRegs :=
  ⟨x0 + inc * minorSteps dmaj dmin k, y0 + k, dmaj, dmin, inc, 2 * (k + 1) * dmin - dmaj - 2 * dmaj * minorSteps dmaj dmin k⟩

theorem shallowStep_at {dmaj dmin : Nat} (pos : 0 < dmaj) (le : dmin ≤ dmaj) (x0 y0 inc : Int) (k : Nat) :
    shallowStep (shallowAt x0 y0 inc dmaj dmin k) = shallowAt x0 y0 inc dmaj dmin (k + 1) := by
  have m := minorSteps_succ pos le k
  unfold shallowStep shallowAt
  simp only
  split
  · rename_i c
    rw [if_pos (by simpa using c)] at m
    rw [m]
    push_cast
    congr 1 <;> ring
  · rename_i c
    rw [if_neg (by simpa using c)] at m
    rw [m]
    push_cast
    congr 1 <;> ring

theorem steepStep_at {dmaj dmin : Nat} (pos : 0 < dmaj) (le : dmin ≤ dmaj) (x0 y0 inc : Int) (k : Nat) :
    steepStep (steepAt x0 y0 inc dmaj dmin k) = steepAt x0 y0 inc dmaj dmin (k + 1) := by
  have m := minorSteps_succ pos le k
  unfold steepStep steepAt
  simp only
  split
  · rename_i c
    rw [if_pos (by simpa using c)] at m
    rw [m]
    push_cast
    congr 1 <;> ring
  · rename_i c
    rw [if_neg (by simpa using c)] at m
    rw [m]
    push_cast
    congr 1 <;> ring

/-- The sample points of a stepper whose registers at its k-th pass are f k. -/
theorem stepPoints_eq (next : LineRegs → LineRegs) (f : Nat → LineRegs) (h : ∀ k, next (f k) = f (k + 1)) (n a : Nat) :
    stepPoints next n (f a) = (List.range' a n).map fun k => ((f k).sx, (f k).sy) := by
  induction n generalizing a with
  | zero => rfl
  | succ m ih => rw [stepPoints, h, ih, List.range'_succ, List.map_cons]

theorem shallowStart_eq {x0 y0 x1 y1 : Int} (lt : x0 < x1) :
    shallowStart x0 y0 x1 y1 =
      shallowAt x0 y0 (if y1 < y0 then -1 else 1) (x1 - x0).natAbs (y1 - y0).natAbs 0 := by
  have a : (((x1 - x0).natAbs : Nat) : Int) = x1 - x0 := by omega
  unfold shallowStart shallowAt
  rw [minorSteps_zero (by omega)]
  simp only
  by_cases c : y1 < y0
  · have b : (((y1 - y0).natAbs : Nat) : Int) = -(y1 - y0) := by omega
    rw [if_pos (by omega), if_pos c, a, b]
    simp
  · have b : (((y1 - y0).natAbs : Nat) : Int) = y1 - y0 := by omega
    rw [if_neg (by omega), if_neg c, a, b]
    simp

theorem steepStart_eq {x0 y0 x1 y1 : Int} (lt : y0 < y1) :
    steepStart x0 y0 x1 y1 =
      steepAt x0 y0 (if x1 < x0 then -1 else 1) (y1 - y0).natAbs (x1 - x0).natAbs 0 := by
  have a : (((y1 - y0).natAbs : Nat) : Int) = y1 - y0 := by omega
  unfold steepStart steepAt
  rw [minorSteps_zero (by omega)]
  simp only
  by_cases c : x1 < x0
  · have b : (((x1 - x0).natAbs : Nat) : Int) = -(x1 - x0) := by omega
    rw [if_pos (by omega), if_pos c, a, b]
    simp
  · have b : (((x1 - x0).natAbs : Nat) : Int) = x1 - x0 := by omega
    rw [if_neg (by omega), if_neg c, a, b]
    simp

/-- No minor step is ever taken along an axis without a minor delta, so the sign of 0 plays no part. -/
theorem minorSteps_sign {dmaj : Nat} (pos : 0 < dmaj) (d : Int) (k : Nat) :
    (if d < 0 then -1 else 1) * (minorSteps dmaj d.natAbs k : Int) = d.sign * minorSteps dmaj d.natAbs k := by
  rcases Int.lt_trichotomy d 0 with h | h | h
  · rw [if_pos h, Int.sign_eq_neg_one_of_neg h]
  · subst h
    have : minorSteps dmaj 0 k = 0 := by
      unfold minorSteps
      rw [Nat.div_eq_of_lt]
      omega
    simp [this]
  · rw [if_neg (by omega), Int.sign_eq_one_of_pos h]

theorem shallow_points {x0 y0 x1 y1 : Int} (lt : x0 < x1) (le : (y1 - y0).natAbs ≤ (x1 - x0).natAbs) :
    stepPoints shallowStep (x1 - x0 + 1).toNat (shallowStart x0 y0 x1 y1) = shallowPoints x0 y0 x1 y1 := by
  have e : (if y1 < y0 then (-1 : Int) else 1) = if y1 - y0 < 0 then -1 else 1 := by
    split <;> split <;> omega
  have n : (x1 - x0 + 1).toNat = (x1 - x0).toNat + 1 := by omega
  rw [shallowStart_eq lt, stepPoints_eq _ _ (fun k => shallowStep_at (by omega) le _ _ _ k), n, ← List.range_eq_range']
  unfold shallowPoints shallowAt
  apply List.map_congr_left
  intro k _
  simp only
  rw [e, minorSteps_sign (by omega)]

theorem steep_points {x0 y0 x1 y1 : Int} (lt : y0 < y1) (le : (x1 - x0).natAbs ≤ (y1 - y0).natAbs) :
    stepPoints steepStep (y1 - y0 + 1).toNat (steepStart x0 y0 x1 y1) = steepPoints x0 y0 x1 y1 := by
  have e : (if x1 < x0 then (-1 : Int) else 1) = if x1 - x0 < 0 then -1 else 1 := by
    split <;> split <;> omega
  have n : (y1 - y0 + 1).toNat = (y1 - y0).toNat + 1 := by omega
  rw [steepStart_eq lt, stepPoints_eq _ _ (fun k => steepStep_at (by omega) le _ _ _ k), n, ← List.range_eq_range']
  unfold steepPoints steepAt
  apply List.map_congr_left
  intro k _
  simp only
  rw [e, minorSteps_sign (by omega)]

/-- At the last sample all minor steps are taken. -/
theorem minorSteps_last {dmaj : Nat} (pos : 0 < dmaj) (dmin : Nat) : minorSteps dmaj dmin dmaj = dmin := by
  unfold minorSteps
  refine (Nat.div_eq_iff (by omega)).2 ?_
  have : 2 * dmaj * dmin = dmin * (2 * dmaj) := by ring
  omega

theorem minorSteps_le {dmaj k : Nat} (pos : 0 < dmaj) (dmin : Nat) (h : k ≤ dmaj) : minorSteps dmaj dmin k ≤ dmin := by
  have e : minorSteps dmaj dmin k ≤ minorSteps dmaj dmin dmaj := by
    have := Nat.mul_le_mul_right dmin (Nat.mul_le_mul_left 2 h)
    exact Nat.div_le_div_right (Nat.sub_le_sub_right (Nat.add_le_add_right this _) 1)
  rwa [minorSteps_last pos] at e

/-- The samples of a shallow line: how many, the first, the last, and the box they lie in. -/
theorem shallowPoints_spec {x0 y0 x1 y1 : Int} (lt : x0 < x1) :
    (shallowPoints x0 y0 x1 y1).length = (x1 - x0).natAbs + 1 ∧ (shallowPoints x0 y0 x1 y1).head? = some (x0, y0) ∧
    (shallowPoints x0 y0 x1 y1).getLast? = some (x1, y1) ∧
    ∀ q ∈ shallowPoints x0 y0 x1 y1, x0 ≤ q.1 ∧ q.1 ≤ x1 ∧ min y0 y1 ≤ q.2 ∧ q.2 ≤ max y0 y1 := by
  unfold shallowPoints
  refine ⟨?_, ?_, ?_, fun q hq => ?_⟩
  · simp only [List.length_map, List.length_range]
    omega
  · simp [List.head?_range, minorSteps_zero (dmaj := (x1 - x0).natAbs) (by omega)]
  · have e : (x1 - x0).toNat = (x1 - x0).natAbs := by omega
    rw [List.getLast?_map, List.getLast?_range]
    simp only [Nat.add_one_ne_zero, if_false, Nat.add_sub_cancel, Option.map_some]
    rw [e, minorSteps_last (by omega), Int.sign_mul_natAbs]
    congr 2 <;> omega
  · simp only [List.mem_map, List.mem_range] at hq
    obtain ⟨k, hk, rfl⟩ := hq
    have m := minorSteps_le (dmaj := (x1 - x0).natAbs) (k := k) (by omega) (y1 - y0).natAbs (by omega)
    simp only
    refine ⟨by omega, by omega, ?_⟩
    rcases Int.lt_trichotomy (y1 - y0) 0 with h | h | h
    · rw [Int.sign_eq_neg_one_of_neg h]
      omega
    · rw [h]
      simp
    · rw [Int.sign_eq_one_of_pos h]
      omega

/-- A steep line is a shallow line with its axes exchanged. -/
theorem steepPoints_eq (x0 y0 x1 y1 : Int) :
    steepPoints x0 y0 x1 y1 = (shallowPoints y0 x0 y1 x1).map fun q => (q.2, q.1) := by
  unfold steepPoints shallowPoints
  rw [List.map_map]
  rfl

/-! ## Clipping (R107) -/

theorem rectClip_none {bw bh x y w h : Word} :
    rectClip bw bh x y w h = none ↔ bw.toNat ≤ x.toNat ∨ bh.toNat ≤ y.toNat ∨ w = 0 ∨ h = 0 := by
  unfold rectClip
  split <;> simp_all

/-- The clipped sizes of a rectangle whose origin is on the surface. -/
theorem rectClip_some {bw bh x y w h : Word} (hx : x.toNat < bw.toNat) (hy : y.toNat < bh.toNat) (hw : w ≠ 0) (hh : h ≠ 0) :
    ∃ cw ch, rectClip bw bh x y w h = some (cw, ch) ∧ cw.toNat = min w.toNat (bw.toNat - x.toNat) ∧
      ch.toNat = min h.toNat (bh.toNat - y.toNat) := by
  unfold rectClip
  rw [if_neg (by rintro (c | c | c | c) <;> first | omega | contradiction)]
  refine ⟨_, _, rfl, ?_, ?_⟩
  · split
    · rw [BitVec.toNat_sub_of_le (BitVec.le_def.2 (by omega))]
      omega
    · omega
  · split
    · rw [BitVec.toNat_sub_of_le (BitVec.le_def.2 (by omega))]
      omega
    · omega

/-! ## The outline (R111) -/

theorem hLine_draws_int (s : State) {x0 x1 : Int} (y0 : Int) (color : Word) (le : x0 ≤ x1) :
    Draws s (paintEvents s.params (lo16 x0) (lo16 y0) (lo16 x1) (lo16 y0) color (x1 - x0 + 1).toNat)
      (s.hLine x0 y0 x1 1 color) := by
  have h := fillWindow_draws s x0 y0 x1 y0 color (x1 - x0 + 1).toNat
  unfold State.hLine
  rw [min_eq_left le, max_eq_right le]
  simpa using h

theorem vLine_draws_int (s : State) (x0 : Int) {y0 y1 : Int} (color : Word) (le : y0 ≤ y1) :
    Draws s (paintEvents s.params (lo16 x0) (lo16 y0) (lo16 x0) (lo16 y1) color (y1 - y0 + 1).toNat)
      (s.vLine x0 y0 y1 1 color) := by
  have h := fillWindow_draws s x0 y0 x0 y1 color (y1 - y0 + 1).toNat
  unfold State.vLine
  rw [min_eq_left le, max_eq_right le]
  simpa using h

/-- The outline draws its four edges (R111). -/
theorem outline_draws_edges (s : State) (x y : Word) {cw ch : Nat} (hw : 1 ≤ cw) (hh : 1 ≤ ch) (color : Word) :
    Draws s
      (paintEvents s.params x y (BitVec.ofNat 16 (x.toNat + cw - 1)) y color cw ++
       paintEvents s.params x (BitVec.ofNat 16 (y.toNat + ch)) (BitVec.ofNat 16 (x.toNat + cw - 1))
         (BitVec.ofNat 16 (y.toNat + ch)) color cw ++
       paintEvents s.params x y x (BitVec.ofNat 16 (y.toNat + ch - 1)) color ch ++
       paintEvents s.params (BitVec.ofNat 16 (x.toNat + cw)) y (BitVec.ofNat 16 (x.toNat + cw))
         (BitVec.ofNat 16 (y.toNat + ch - 1)) color ch)
      (s.outline (zext x) (zext y) cw ch color) := by
  have last : ∀ (v : Word) (n : Nat), 1 ≤ n → lo16 (zext v + n - 1) = BitVec.ofNat 16 (v.toNat + n - 1) := by
    intro v n pos
    rw [← lo16_natCast]
    congr 1
    unfold zext
    omega
  have past : ∀ (v : Word) (n : Nat), lo16 (zext v + n) = BitVec.ofNat 16 (v.toNat + n) := by
    intro v n
    rw [← lo16_natCast]
    rfl
  have size : ∀ (v : Word) (n : Nat), (zext v + n - 1 - zext v + 1).toNat = n := by
    intro v n
    omega
  have a := hLine_draws_int s (x0 := zext x) (x1 := zext x + cw - 1) (zext y) color (by omega)
  unfold State.outline
  simp only
  generalize s.hLine (zext x) (zext y) (zext x + cw - 1) 1 color = s1 at *
  have b := hLine_draws_int s1 (x0 := zext x) (x1 := zext x + cw - 1) (zext y + ch) color (by omega)
  generalize s1.hLine (zext x) (zext y + ch) (zext x + cw - 1) 1 color = s2 at *
  have c := vLine_draws_int s2 (zext x) (y0 := zext y) (y1 := zext y + ch - 1) color (by omega)
  generalize s2.vLine (zext x) (zext y) (zext y + ch - 1) 1 color = s3 at *
  have d := vLine_draws_int s3 (zext x + cw) (y0 := zext y) (y1 := zext y + ch - 1) color (by omega)
  generalize s3.vLine (zext x + cw) (zext y) (zext y + ch - 1) 1 color = s4 at *
  rw [a.params] at b
  rw [b.params, a.params] at c
  rw [c.params, b.params, a.params] at d
  have q := ((a.trans b).trans c).trans d
  simpa only [size, last _ _ hw, last _ _ hh, past, lo16_zext] using q

end Sys2Proof.Machine
end

