-- ==== Sys2Proof/Laws/Encoding.lean ====
section
/-! SUPPORT. The bit-field helpers of the encoding undo each other, and the header of an operation names it. -/

namespace Sys2Proof

@[simp] theorem hiByte_joinBytes (a b : Byte) : hiByte (joinBytes a b) = a := by
  unfold hiByte joinBytes
  apply BitVec.eq_of_getLsbD_eq
  intro k hk
  rw [BitVec.getLsbD_extractLsb', BitVec.getLsbD_append]
  simp [hk]

@[simp] theorem loByte_joinBytes (a b : Byte) : loByte (joinBytes a b) = b := by
  unfold loByte joinBytes
  apply BitVec.eq_of_getLsbD_eq
  intro k hk
  rw [BitVec.getLsbD_extractLsb', BitVec.getLsbD_append]
  simp [hk]

@[simp] theorem joinBytes_eta (w : Word) : joinBytes (hiByte w) (loByte w) = w := by
  unfold joinBytes hiByte loByte
  apply BitVec.eq_of_getLsbD_eq
  intro k hk
  rw [BitVec.getLsbD_append]
  by_cases h : k < 8
  · simp [h]
  · simp only [h, decide_false, BitVec.getLsbD_extractLsb']
    have : k - 8 < 8 := by omega
    have e : 8 + (k - 8) = k := by omega
    simp [this, e]

@[simp] theorem joinWords_eta (v : Long) : joinWords (hiWord v) (loWord v) = v := by
  unfold joinWords hiWord loWord
  apply BitVec.eq_of_getLsbD_eq
  intro k hk
  rw [BitVec.getLsbD_append]
  by_cases h : k < 16
  · simp [h]
  · simp only [h, decide_false, BitVec.getLsbD_extractLsb']
    have : k - 16 < 16 := by omega
    have e : 16 + (k - 16) = k := by omega
    simp [this, e]

@[simp] theorem hiWord_joinWords (a b : Word) : hiWord (joinWords a b) = a := by
  unfold hiWord joinWords
  apply BitVec.eq_of_getLsbD_eq
  intro k hk
  rw [BitVec.getLsbD_extractLsb', BitVec.getLsbD_append]
  simp [hk]

@[simp] theorem loWord_joinWords (a b : Word) : loWord (joinWords a b) = b := by
  unfold loWord joinWords
  apply BitVec.eq_of_getLsbD_eq
  intro k hk
  rw [BitVec.getLsbD_extractLsb', BitVec.getLsbD_append]
  simp [hk]

theorem joinBytes_inj {a b c d : Byte} : joinBytes a b = joinBytes c d ↔ a = c ∧ b = d := by
  constructor
  · intro e
    exact ⟨by rw [← hiByte_joinBytes a b, e, hiByte_joinBytes], by rw [← loByte_joinBytes a b, e, loByte_joinBytes]⟩
  · rintro ⟨rfl, rfl⟩
    rfl

theorem hiByte_and (u v : Word) : hiByte (u &&& v) = hiByte u &&& hiByte v := by
  apply BitVec.eq_of_getLsbD_eq
  intro k hk
  simp [hiByte, hk]

theorem loByte_and (u v : Word) : loByte (u &&& v) = loByte u &&& loByte v := by
  apply BitVec.eq_of_getLsbD_eq
  intro k hk
  simp [loByte, hk]

theorem joinBytes_and (a b c d : Byte) : joinBytes a b &&& joinBytes c d = joinBytes (a &&& c) (b &&& d) := by
  rw [← joinBytes_eta (joinBytes a b &&& joinBytes c d), hiByte_and, loByte_and]
  simp only [hiByte_joinBytes, loByte_joinBytes]

/-- The opcode map has no two rows with one code (R85). -/
theorem findOp_opc (o : Op) : findOp (opRow o).opc = some o := by cases o <;> decide

theorem findOp_some {b : Byte} {o : Op} (h : findOp b = some o) : (opRow o).opc = b := by
  simpa using List.find?_some h

/-- SUB of format B holds one bit. -/
theorem hasBgSub_bit {sub : Byte} (h : sub.extractLsb' 1 7 = 0) : hasBgSub (sub.getLsbD 0) = sub := by
  revert h
  revert sub
  decide

/-- A header that is legal for its operation decodes to it, with the operands that follow. -/
theorem decodeWords_header {o : Op} {sub : Byte} {args : List Word} {i : Instr} (len : args.length + 1 = (opRow o).words)
    (legal : subLegal (opRow o).fmt sub = true) (b : buildInstr o sub args = some i) :
    decodeWords (headerWord o sub :: args) = .ok i := by
  simp [decodeWords, headerWord, findOp_opc, len, legal, b]

/-- A descriptor that decodes is the header of its operation and its operands. -/
theorem decodeWords_ok {ws : List Word} {i : Instr} (h : decodeWords ws = .ok i) :
    ∃ o sub args, ws = headerWord o sub :: args ∧ args.length + 1 = (opRow o).words ∧
      subLegal (opRow o).fmt sub = true ∧ buildInstr o sub args = some i := by
  unfold decodeWords at h
  rcases ws with _ | ⟨hd, args⟩
  · cases h
  · rcases ho : findOp (hiByte hd) with _ | o
    · simp [ho] at h
    · simp only [ho] at h
      split at h
      · cases h
      · split at h
        · cases h
        · rename_i len legal
          rcases hb : buildInstr o (loByte hd) args with _ | j
          · simp [hb] at h
          · simp only [hb] at h
            cases h
            refine ⟨o, loByte hd, args, ?_, by simpa using len, by simpa using legal, hb⟩
            rw [headerWord, findOp_some ho, joinBytes_eta]

end Sys2Proof
end

