-- ==== Sys2Proof/Laws/Glyphs.lean ====
section
/-! SUPPORT. The glyph bit cursor agrees with the closed form of its bits (spec/44_glyph_string.md R144), and what
DrawChar can do. -/

namespace Sys2Proof.Machine

@[simp] theorem State.pixel_glyph (s : State) (x y : Int) (c : Word) :
    (s.pixel x y c).work.glyph = s.work.glyph := rfl

@[simp] theorem State.pixel_string (s : State) (x y : Int) (c : Word) :
    (s.pixel x y c).work.string = s.work.string := rfl

/-- What glyph drawing can do: emit, and move working registers other than the layout cursor. -/
structure GlyphDraws (s : State) (es : List Event) (t : State) : Prop where
  draws : Draws s es t
  string : t.work.string = s.work.string

theorem GlyphDraws.refl (s : State) : GlyphDraws s [] s := ⟨Draws.refl s, rfl⟩

theorem GlyphDraws.trans {s t u : State} {es fs : List Event} (h : GlyphDraws s es t) (k : GlyphDraws t fs u) :
    GlyphDraws s (es ++ fs) u := ⟨h.draws.trans k.draws, k.string.trans h.string⟩

theorem GlyphDraws.withGlyph {s t : State} {es : List Event} (h : GlyphDraws s es t) (c : GlyphCursor) :
    GlyphDraws s es { t with work := { t.work with glyph := c } } := ⟨h.draws.withWork _, h.string⟩

/-- The cursor is about to take the bit o places below the top of byte q. -/
structure GlyphCursor.At (c : GlyphCursor) (bits : List Byte) (bpr q o : Nat) : Prop where
  low : o < bpr
  fresh : o = 0 → c.rem = 0 ∧ c.idx.toNat = q
  inside : 0 < o → c.rem.toNat = bpr - o ∧ c.idx.toNat = q + 1 ∧ bits[q]? = some c.cur ∧ c.mask = (0x80 : Byte) >>> o

theorem mask_bit (cur : Byte) {o : Nat} (h : o < 8) : (cur &&& ((0x80 : Byte) >>> o) != 0) = cur.getLsbD (7 - o) := by
  have all : ∀ (c : Byte) (k : Fin 8), (c &&& ((0x80 : Byte) >>> k.val) != 0) = c.getLsbD (7 - k.val) := by decide
  exact all cur ⟨o, h⟩

theorem mask_next (o : Nat) : (0x80 : Byte) >>> o >>> 1 = (0x80 : Byte) >>> (o + 1) := by
  rw [BitVec.shiftRight_add]

/-- The cursor once its byte is in. -/
theorem GlyphCursor.At.next {c : GlyphCursor} {bits : List Byte} {bpr q o : Nat} (le : bpr ≤ 8) (low : o < bpr)
    (rem : c.rem.toNat = bpr - o) (idx : c.idx.toNat = q + 1) (cur : bits[q]? = some c.cur)
    (mask : c.mask = (0x80 : Byte) >>> o) :
    GlyphCursor.At { c with mask := c.mask >>> 1, rem := c.rem - 1 } bits bpr
      (if o + 1 < bpr then q else q + 1) (if o + 1 < bpr then o + 1 else 0) := by
  have r : (c.rem - 1).toNat = bpr - o - 1 := by
    rw [BitVec.toNat_sub_of_le (BitVec.le_def.2 (by simp; omega)), rem]
    rfl
  split
  · refine ⟨by omega, by omega, fun _ => ⟨by simp only [r]; omega, idx, cur, ?_⟩⟩
    simp only [mask, mask_next]
  · refine ⟨by omega, fun _ => ⟨?_, idx⟩, by omega⟩
    apply BitVec.eq_of_toNat_eq
    simp only [r]
    simp
    omega

/-- GbNext takes the bit at the cursor and moves past it. -/
theorem gbNext_at {s : State} {g : Glyph} {q o : Nat} (h : s.work.glyph.At g.bits g.bpr.toNat q o)
    (le : g.bpr.toNat ≤ 8) (lt : q < g.bits.length) (room : q + 1 < 2 ^ 32) :
    ∃ t, s.gbNext g = .ok (((g.bits[q]?).getD 0).getLsbD (7 - o)) t ∧ GlyphDraws s [] t ∧
      t.work.glyph.At g.bits g.bpr.toNat (if o + 1 < g.bpr.toNat then q else q + 1)
        (if o + 1 < g.bpr.toNat then o + 1 else 0) := by
  have get : g.bits[q]? = some g.bits[q] := List.getElem?_eq_getElem lt
  rcases Nat.eq_zero_or_pos o with rfl | pos
  · obtain ⟨rem, idx⟩ := h.fresh rfl
    have low := h.low
    refine ⟨{ s with work := { s.work with glyph := ⟨s.work.glyph.idx + 1, g.bits[q], g.bpr - 1, (0x80 : Byte) >>> 1⟩ } },
      ?_, ?_, GlyphCursor.At.next (c := ⟨s.work.glyph.idx + 1, g.bits[q], g.bpr, 0x80⟩) le low rfl ?_ get rfl⟩
    · simp only [State.gbNext, if_pos rem, State.gbLoad, State.memRead, idx, get, Flow.bind, Option.getD_some]
      rw [show (0x80 : Byte) = (0x80 : Byte) >>> 0 from rfl, mask_bit _ (by omega)]
    · exact (GlyphDraws.refl s).withGlyph _
    · simp only [BitVec.toNat_add]
      rw [idx]
      exact Nat.mod_eq_of_lt room
  · obtain ⟨rem, idx, cur, mask⟩ := h.inside pos
    have low := h.low
    have ne : s.work.glyph.rem ≠ 0 := by
      intro z
      rw [z] at rem
      simp at rem
      omega
    refine ⟨{ s with work := { s.work with
        glyph := { s.work.glyph with mask := s.work.glyph.mask >>> 1, rem := s.work.glyph.rem - 1 } } },
      ?_, ?_, GlyphCursor.At.next le low rem idx cur mask⟩
    · simp only [State.gbNext, if_neg ne, Flow.bind]
      rw [cur, Option.getD_some, mask, mask_bit _ (by omega)]
    · exact (GlyphDraws.refl s).withGlyph _

/-- The events of one pixel of a glyph (R142). -/
def glyphPixelEvents (p : Params) (g : Glyph) (a : CharArgs) (i j : Nat) : List Event :=
  if glyphBit p.glyphColumnRealign g i j then
    (if a.hasBg then paintEvents p (lo16 (a.x + i)) (lo16 (a.y + j)) (lo16 (a.x + i)) (lo16 (a.y + j)) a.bg 1 else [])
  else paintEvents p (lo16 (a.x + i)) (lo16 (a.y + j)) (lo16 (a.x + i)) (lo16 (a.y + j)) a.fg 1

theorem glyphPixel_draws (s : State) (g : Glyph) (a : CharArgs) (i j : Nat) :
    GlyphDraws s (glyphPixelEvents s.params g a i j)
      (s.glyphPixel a i j (glyphBit s.params.glyphColumnRealign g i j)) ∧
    (s.glyphPixel a i j (glyphBit s.params.glyphColumnRealign g i j)).work.glyph = s.work.glyph := by
  unfold glyphPixelEvents State.glyphPixel
  split
  · split
    · exact ⟨⟨pixel_draws s _ _ _, rfl⟩, rfl⟩
    · exact ⟨GlyphDraws.refl s, rfl⟩
  · exact ⟨⟨pixel_draws s _ _ _, rfl⟩, rfl⟩

theorem div_mod_succ {b : Nat} (pos : 0 < b) (p : Nat) :
    (p + 1) / b = (if p % b + 1 < b then p / b else p / b + 1) ∧
    (p + 1) % b = (if p % b + 1 < b then p % b + 1 else 0) := by
  have lt := Nat.mod_lt p pos
  have e := Nat.div_add_mod p b
  split
  · rename_i c
    have f : p + 1 = b * (p / b) + (p % b + 1) := by omega
    rw [f]
    constructor
    · rw [Nat.mul_add_div pos, Nat.div_eq_of_lt c, Nat.add_zero]
    · rw [Nat.mul_add_mod, Nat.mod_eq_of_lt c]
  · have f : p + 1 = b * (p / b + 1) := by rw [Nat.mul_add]; omega
    rw [f]
    constructor
    · rw [Nat.mul_div_cancel_left _ pos]
    · rw [Nat.mul_mod_right]

/-- The place of the next pixel down the column is the place the cursor moves to. -/
theorem glyphPlace_succ (realign : Bool) {g : Glyph} (pos : 0 < g.bpr.toNat) (i j : Nat) :
    glyphPlace realign g i (j + 1) =
      (if (glyphPlace realign g i j).2 + 1 < g.bpr.toNat then (glyphPlace realign g i j).1
       else (glyphPlace realign g i j).1 + 1,
       if (glyphPlace realign g i j).2 + 1 < g.bpr.toNat then (glyphPlace realign g i j).2 + 1 else 0) := by
  unfold glyphPlace
  cases realign with
  | true =>
    have d := div_mod_succ pos j
    simp only [if_true, d.1, d.2]
    split <;> rfl
  | false =>
    have d := div_mod_succ pos (i * g.h.toNat + j)
    simp only [Bool.false_eq_true, if_false, ← Nat.add_assoc, d.1, d.2]

theorem le_ceilDiv_mul {a b : Nat} (pos : 0 < b) : a ≤ ceilDiv a b * b := by
  unfold ceilDiv
  have d := Nat.div_add_mod (a + b - 1) b
  have m := Nat.mod_lt (a + b - 1) pos
  rw [Nat.mul_comm] at d
  omega

theorem div_lt_ceilDiv {p n b : Nat} (pos : 0 < b) (h : p < n) : p / b < ceilDiv n b := by
  rw [Nat.div_lt_iff_lt_mul pos]
  exact lt_of_lt_of_le h (le_ceilDiv_mul pos)

theorem ceilDiv_le_self {a b : Nat} (pos : 0 < b) : ceilDiv a b ≤ a := by
  unfold ceilDiv
  rcases Nat.eq_zero_or_pos a with rfl | h
  · rw [Nat.div_eq_of_lt (by omega)]
  · apply Nat.div_le_of_le_mul
    have : b + a ≤ b * a + 1 := by nlinarith
    omega

/-- A pixel of a glyph that passes its checks lies in its bytes. -/
theorem glyphPlace_lt {p : Params} {g : Glyph} (ok : glyphOk p g) {i j : Nat} (hi : i < g.w.toNat) (hj : j < g.h.toNat) :
    (glyphPlace p.glyphColumnRealign g i j).1 < g.bits.length ∧
    (glyphPlace p.glyphColumnRealign g i j).1 + 1 < 2 ^ 32 ∧
    (glyphPlace p.glyphColumnRealign g i j).2 < g.bpr.toNat := by
  obtain ⟨pos, -, need⟩ := ok
  have pos' : 0 < g.bpr.toNat := pos
  have w := g.w.isLt
  have h := g.h.isLt
  unfold glyphNeed at need
  unfold glyphPlace
  have size : g.w.toNat * g.h.toNat ≤ 65535 * 65535 := Nat.mul_le_mul (by omega) (by omega)
  cases r : p.glyphColumnRealign with
  | true =>
    simp only [r, if_true] at need ⊢
    have a : j / g.bpr.toNat < ceilDiv g.h.toNat g.bpr.toNat := div_lt_ceilDiv pos' hj
    have b : (i + 1) * ceilDiv g.h.toNat g.bpr.toNat ≤ g.w.toNat * ceilDiv g.h.toNat g.bpr.toNat :=
      Nat.mul_le_mul_right _ hi
    have c : g.w.toNat * ceilDiv g.h.toNat g.bpr.toNat ≤ g.w.toNat * g.h.toNat :=
      Nat.mul_le_mul_left _ (ceilDiv_le_self pos')
    rw [Nat.add_mul] at b
    exact ⟨by omega, by omega, Nat.mod_lt _ pos'⟩
  | false =>
    simp only [r, Bool.false_eq_true, if_false] at need ⊢
    have b : (i + 1) * g.h.toNat ≤ g.w.toNat * g.h.toNat := Nat.mul_le_mul_right _ hi
    rw [Nat.add_mul] at b
    have a : (i * g.h.toNat + j) / g.bpr.toNat < ceilDiv (g.w.toNat * g.h.toNat) g.bpr.toNat :=
      div_lt_ceilDiv pos' (by omega)
    have c := ceilDiv_le_self (a := g.w.toNat * g.h.toNat) pos'
    exact ⟨by omega, by omega, Nat.mod_lt _ pos'⟩

/-- The cursor stands at pixel (i, j) of a glyph. -/
def State.cursorAt (s : State) (g : Glyph) (i j : Nat) : Prop :=
  s.work.glyph.At g.bits g.bpr.toNat (glyphPlace s.params.glyphColumnRealign g i j).1
    (glyphPlace s.params.glyphColumnRealign g i j).2

/-- The rest of a column draws its pixels by the closed form. -/
theorem glyphRows_draws {g : Glyph} (a : CharArgs) {i : Nat} (n j : Nat) (s : State) (ok : glyphOk s.params g)
    (hi : i < g.w.toNat) (hj : j + n = g.h.toNat) (h : s.cursorAt g i j) :
    ∃ t, State.glyphRows g a i n j s = .ok () t ∧
      GlyphDraws s ((List.range' j n).flatMap fun j => glyphPixelEvents s.params g a i j) t ∧ t.cursorAt g i g.h.toNat := by
  induction n generalizing j s with
  | zero =>
    refine ⟨s, rfl, GlyphDraws.refl s, ?_⟩
    rw [← hj]
    exact h
  | succ k ih =>
    have place := glyphPlace_lt ok hi (show j < g.h.toNat by omega)
    obtain ⟨u, e, d, c⟩ := gbNext_at h ok.2.1 place.1 place.2.1
    have pu : u.params = s.params := d.draws.params
    have next := glyphPlace_succ s.params.glyphColumnRealign (g := g) ok.1 i j
    have px := glyphPixel_draws u g a i j
    rw [pu] at px
    have pv : (u.glyphPixel a i j (glyphBit s.params.glyphColumnRealign g i j)).params = s.params :=
      px.1.draws.params.trans pu
    obtain ⟨t, e', d', c'⟩ := ih (j + 1) (u.glyphPixel a i j (glyphBit s.params.glyphColumnRealign g i j))
      (by rw [pv]; exact ok) (by omega) (by unfold State.cursorAt; rw [px.2, pv, next]; exact c)
    refine ⟨t, ?_, ?_, c'⟩
    · rw [State.glyphRows, e]
      exact e'
    · rw [pv] at d'
      exact (d.trans px.1).trans d'

/-- The end of a column leaves the cursor at the first pixel of the next. -/
theorem endColumn_at {g : Glyph} {i : Nat} {s : State} (ok : glyphOk s.params g) (h : s.cursorAt g i g.h.toNat) :
    s.endColumn.cursorAt g (i + 1) 0 := by
  have pos : 0 < g.bpr.toNat := ok.1
  unfold State.cursorAt at h ⊢
  unfold State.endColumn
  unfold glyphPlace at h ⊢
  cases r : s.params.glyphColumnRealign with
  | true =>
    simp only [r, if_true] at h ⊢
    refine ⟨by simpa using pos, fun _ => ⟨rfl, ?_⟩, by simp⟩
    simp only [Nat.zero_div, Nat.add_zero, Nat.add_mul, Nat.one_mul]
    have d := Nat.div_add_mod g.h.toNat g.bpr.toNat
    have m := Nat.mod_lt g.h.toNat pos
    rcases Nat.eq_zero_or_pos (g.h.toNat % g.bpr.toNat) with z | z
    · rw [(h.fresh z).2]
      congr 1
      unfold ceilDiv
      symm
      apply (Nat.div_eq_iff pos).2
      rw [Nat.mul_comm (g.h.toNat / g.bpr.toNat)]
      omega
    · rw [(h.inside z).2.1, Nat.add_assoc]
      congr 1
      unfold ceilDiv
      symm
      apply (Nat.div_eq_iff pos).2
      rw [Nat.add_mul, Nat.mul_comm (g.h.toNat / g.bpr.toNat)]
      omega
  | false =>
    simp only [r, Bool.false_eq_true, if_false, Nat.add_zero, Nat.add_mul, Nat.one_mul] at h ⊢
    exact h

theorem endColumn_draws (s : State) : GlyphDraws s [] s.endColumn := by
  unfold State.endColumn
  split
  · exact (GlyphDraws.refl s).withGlyph _
  · exact GlyphDraws.refl s

/-- The rest of a glyph draws its pixels by the closed form. -/
theorem glyphColumns_draws {g : Glyph} (a : CharArgs) (n i : Nat) (s : State) (ok : glyphOk s.params g)
    (hi : i + n = g.w.toNat) (h : s.cursorAt g i 0) :
    ∃ t, State.glyphColumns g a n i s = .ok () t ∧
      GlyphDraws s ((List.range' i n).flatMap fun i =>
        (List.range g.h.toNat).flatMap fun j => glyphPixelEvents s.params g a i j) t := by
  induction n generalizing i s with
  | zero => exact ⟨s, rfl, GlyphDraws.refl s⟩
  | succ k ih =>
    obtain ⟨u, e, d, c⟩ := glyphRows_draws a g.h.toNat 0 s ok (show i < g.w.toNat by omega) (by omega) h
    have pu : u.params = s.params := d.draws.params
    have ec := endColumn_draws u
    have pv : u.endColumn.params = s.params := ec.draws.params.trans pu
    obtain ⟨t, e', d'⟩ := ih (i + 1) u.endColumn (by rw [pv]; exact ok) (by omega)
      (endColumn_at (by rw [pu]; exact ok) c)
    refine ⟨t, ?_, ?_⟩
    · rw [State.glyphColumns, e]
      exact e'
    · rw [pv] at d'
      have := (d.trans ec).trans d'
      rw [List.append_nil, ← List.range_eq_range'] at this
      rwa [List.range'_succ, List.flatMap_cons]

/-- A glyph that passes its checks is drawn by the closed form of its bits (R144). -/
theorem drawGlyph_draws {g : Glyph} (a : CharArgs) (s : State) (ok : glyphOk s.params g) :
    ∃ t, s.drawGlyph g a = .ok () t ∧ GlyphDraws s (glyphEvents s.params g a) t := by
  have pos : 0 < g.bpr.toNat := ok.1
  have start : (⟨0, s.work.glyph.cur, 0, s.work.glyph.mask⟩ : GlyphCursor).At g.bits g.bpr.toNat
      (glyphPlace s.params.glyphColumnRealign g 0 0).1 (glyphPlace s.params.glyphColumnRealign g 0 0).2 := by
    have z : glyphPlace s.params.glyphColumnRealign g 0 0 = (0, 0) := by
      unfold glyphPlace
      simp
    rw [z]
    exact ⟨pos, fun _ => ⟨rfl, rfl⟩, by simp⟩
  obtain ⟨t, e, d⟩ := glyphColumns_draws a g.w.toNat 0
    { s with work := { s.work with glyph := { s.work.glyph with idx := 0, rem := 0 } } } ok (by omega) start
  refine ⟨t, ?_, ?_⟩
  · unfold State.drawGlyph
    rw [if_neg, if_neg]
    · exact e
    · have := ok.2.2
      omega
    · rintro (c | c)
      · rw [c] at pos
        simp at pos
      · have := ok.2.1
        omega
  · have := ((GlyphDraws.refl s).withGlyph { s.work.glyph with idx := 0, rem := 0 }).trans d
    rw [← List.range_eq_range'] at this
    exact this

/-- A glyph that does not pass its checks faults before any event (R142). -/
theorem drawGlyph_faults {g : Glyph} (a : CharArgs) (s : State) (bad : ¬ glyphOk s.params g) :
    s.drawGlyph g a = .raised (if g.bpr = 0 ∨ g.bpr.toNat > 8 then .glyphFormat else .assetRange) s := by
  unfold State.drawGlyph
  split
  · rfl
  · rename_i c
    rw [if_pos]
    by_contra n
    apply bad
    have : g.bpr.toNat ≠ 0 := by
      intro z
      apply c
      left
      apply BitVec.eq_of_toNat_eq
      simpa using z
    exact ⟨by omega, by omega, by omega⟩

/-- All that DrawChar of a glyph can do: draw it whole, or fault before any event. -/
theorem drawGlyph_cases (g : Glyph) (a : CharArgs) (s : State) :
    (∃ t, s.drawGlyph g a = .ok () t ∧ GlyphDraws s (glyphEvents s.params g a) t) ∨
    ∃ c, s.drawGlyph g a = .raised c s := by
  by_cases ok : glyphOk s.params g
  · exact .inl (drawGlyph_draws a s ok)
  · exact .inr ⟨_, drawGlyph_faults a s ok⟩

end Sys2Proof.Machine
end

