-- ==== Sys2Proof/Laws/Wire.lean ====
section
/-! SUPPORT. The wire events of every drawing subroutine are whole chip-select groups, and what such events can do. -/

namespace Sys2Proof.Machine

/-- A list of whole groups: each one command byte or one data byte or more (R95, R96). -/
inductive Grouped (p : Params) : List Event → Prop
  | nil : Grouped p []
  | command (c : Byte) {es : List Event} (h : Grouped p es) : Grouped p (bracketed p [.cmd c] ++ es)
  | data (b : Byte) (bs : List Byte) {es : List Event} (h : Grouped p es) :
    Grouped p (bracketed p ((b :: bs).map .dat) ++ es)

theorem Grouped.append {p : Params} {es fs : List Event} (h : Grouped p es) (k : Grouped p fs) : Grouped p (es ++ fs) := by
  induction h with
  | nil => exact k
  | command c _ ih =>
    rw [List.append_assoc]
    exact .command c ih
  | data b bs _ ih =>
    rw [List.append_assoc]
    exact .data b bs ih

theorem grouped_command (p : Params) (c : Byte) : Grouped p (bracketed p [.cmd c]) := by
  have := Grouped.command (p := p) c .nil
  rwa [List.append_nil] at this

theorem grouped_bytes (p : Params) (bs : List Byte) : Grouped p (bytesEvents p bs) := by
  unfold bytesEvents
  split
  · exact .nil
  · cases bs with
    | nil => contradiction
    | cons b rest =>
      have := Grouped.data (p := p) b rest .nil
      rwa [List.append_nil] at this

theorem grouped_window (p : Params) (x1 y1 x2 y2 : Word) : Grouped p (windowEvents p x1 y1 x2 y2) := by
  have d : ∀ u v : Word, Grouped p (bracketed p (wordEvents u ++ wordEvents v)) := fun u v =>
    grouped_bytes p [u.extractLsb' 8 8, u.extractLsb' 0 8, v.extractLsb' 8 8, v.extractLsb' 0 8]
  exact ((((grouped_command p _).append (d _ _)).append (grouped_command p _)).append (d _ _)).append
    (grouped_command p _)

theorem grouped_paint (p : Params) (x1 y1 x2 y2 color : Word) (n : Nat) :
    Grouped p (paintEvents p x1 y1 x2 y2 color n) := by
  refine (grouped_window p _ _ _ _).append ?_
  rw [← pixelBytes_group]
  exact grouped_bytes p _

theorem grouped_flatMap {α : Type} (p : Params) (f : α → List Event) (l : List α) (h : ∀ a ∈ l, Grouped p (f a)) :
    Grouped p (l.flatMap f) := by
  induction l with
  | nil => exact .nil
  | cons a rest ih =>
    rw [List.flatMap_cons]
    exact (h a (by simp)).append (ih fun b hb => h b (by simp [hb]))

theorem grouped_glyph (p : Params) (g : Glyph) (a : CharArgs) : Grouped p (glyphEvents p g a) := by
  refine grouped_flatMap p _ _ fun i _ => grouped_flatMap p _ _ fun j _ => ?_
  split
  · split
    · exact grouped_paint p _ _ _ _ _ _
    · exact .nil
  · exact grouped_paint p _ _ _ _ _ _

theorem grouped_thick (p : Params) (t : Nat) (color : Word) (pts : List (Int × Int)) :
    Grouped p (thickEvents p t color pts) :=
  grouped_flatMap p _ _ fun _ _ => grouped_paint p _ _ _ _ _ _

/-! ## What a drawing subroutine can do -/

/-- t is s after whole groups on the wire, its working registers aside. -/
def Paints (s t : State) : Prop := ∃ es, Grouped s.params es ∧ Draws s es t

theorem Paints.refl (s : State) : Paints s s := ⟨[], .nil, Draws.refl s⟩

theorem Paints.trans {s t u : State} (h : Paints s t) (k : Paints t u) : Paints s u := by
  obtain ⟨es, ge, d⟩ := h
  obtain ⟨fs, gf, e⟩ := k
  rw [d.params] at gf
  exact ⟨es ++ fs, ge.append gf, d.trans e⟩

theorem Paints.withWork {s t : State} (h : Paints s t) (wk : Work) : Paints s { t with work := wk } := by
  obtain ⟨es, ge, d⟩ := h
  exact ⟨es, ge, d.withWork wk⟩

theorem wireCommand_paints (s : State) (c : Byte) (bs : List Byte) : Paints s (s.wireCommand c bs) :=
  ⟨_, (grouped_command _ _).append (grouped_bytes _ _), wireCommand_draws s c bs⟩

theorem writeData_paints (s : State) (bs : List Byte) : Paints s (s.writeData bs) := by
  refine ⟨_, grouped_bytes s.params bs, ?_⟩
  unfold State.writeData
  rw [dataGroup_eq]
  exact draws_emitAll s _

theorem setWindow_paints (s : State) (x1 y1 x2 y2 : Int) : Paints s (s.setWindow x1 y1 x2 y2) :=
  ⟨_, grouped_window _ _ _ _ _, setWindow_draws s x1 y1 x2 y2⟩

theorem fillColor_paints (s : State) (color : Word) (n : Nat) : Paints s (s.fillColor color n) :=
  (writeData_paints s _).withWork _

theorem fillWindow_paints (s : State) (x1 y1 x2 y2 : Int) (color : Word) (n : Nat) :
    Paints s (s.fillWindow x1 y1 x2 y2 color n) := (setWindow_paints s _ _ _ _).trans (fillColor_paints _ _ _)

theorem outline_paints (s : State) (x y cw ch : Int) (color : Word) : Paints s (s.outline x y cw ch color) :=
  (((fillWindow_paints _ _ _ _ _ _ _).trans (fillWindow_paints _ _ _ _ _ _ _)).trans
    (fillWindow_paints _ _ _ _ _ _ _)).trans (fillWindow_paints _ _ _ _ _ _ _)

theorem clipped_paints (s : State) (x y w h : Word) (draw : Word → Word → State → State)
    (d : ∀ cw ch t, Paints t (draw cw ch t)) : Paints s (s.clipped x y w h draw) := by
  unfold State.clipped
  split
  · exact Paints.refl s
  · exact ((Paints.refl s).withWork _).trans (d _ _ _)

theorem stepLine_paints (next : LineRegs → LineRegs) (t : Nat) (color : Word) (n : Nat) (r : LineRegs) (s : State) :
    Paints s (State.stepLine next t color n r s) :=
  ⟨_, grouped_thick _ _ _ _, stepLine_draws next t color n r s⟩

theorem drawLine_paints (s : State) (x0 y0 x1 y1 : Int) (t : Nat) (color : Word) :
    Paints s (s.drawLine x0 y0 x1 y1 t color) := by
  unfold State.drawLine State.shallow State.steep
  split
  · exact fillWindow_paints _ _ _ _ _ _ _
  · split
    · exact fillWindow_paints _ _ _ _ _ _ _
    · split <;> split <;> exact stepLine_paints _ _ _ _ _ _

/-- Whether it runs on or faults, a piece of an operation only paints. -/
def Flow.Paints {α : Type} (s : State) (r : Flow α) : Prop :=
  match r with
  | .ok _ t => Machine.Paints s t
  | .raised _ t => Machine.Paints s t

theorem Flow.Paints.bind {α β : Type} {s : State} {r : Flow α} {next : α → State → Flow β} (h : r.Paints s)
    (k : ∀ v t, Machine.Paints s t → (next v t).Paints s) : (r.bind next).Paints s := by
  cases r with
  | ok v t => exact k v t h
  | raised c t => exact h

theorem glyphAsset_paints {s t : State} (h : Paints s t) (gh : Handle) : (t.glyphAsset gh).Paints s := by
  unfold State.glyphAsset
  split <;> exact h

theorem fontAsset_paints {s t : State} (h : Paints s t) (gh : Handle) : (t.fontAsset gh).Paints s := by
  unfold State.fontAsset
  split <;> exact h

theorem bitmapAsset_paints {s t : State} (h : Paints s t) (gh : Handle) : (t.bitmapAsset gh).Paints s := by
  unfold State.bitmapAsset
  split <;> exact h

theorem stringAsset_paints {s t : State} (h : Paints s t) (gh : Handle) : (t.stringAsset gh).Paints s := by
  unfold State.stringAsset
  split <;> exact h

theorem drawGlyph_paints {s t : State} (h : Paints s t) (g : Glyph) (a : CharArgs) : (t.drawGlyph g a).Paints s := by
  obtain ⟨u, e, d⟩ | ⟨c, e⟩ := drawGlyph_cases g a t
  · rw [e]
    exact h.trans ⟨_, grouped_glyph _ _ _, d.draws⟩
  · rw [e]
    exact h

theorem drawChar_paints {s t : State} (h : Paints s t) (gh : Handle) (a : CharArgs) : (t.drawChar gh a).Paints s :=
  (glyphAsset_paints h gh).bind fun g _ k => drawGlyph_paints k g a

theorem spaceH_paints {s t : State} (h : Paints s t) (f : Font) : (t.spaceH f).Paints s := by
  unfold State.spaceH
  split
  · exact h
  · split
    · exact h
    · exact (glyphAsset_paints h _).bind fun g u k => k.withWork _

theorem wrapRight_paints {s t : State} (h : Paints s t) (f : Font) (g : Glyph) : (t.wrapRight f g).Paints s := by
  unfold State.wrapRight State.lineAdv
  split
  · refine Flow.Paints.bind ?_ fun _ _ k => k.withWork _
    split
    · exact spaceH_paints (h.withWork _) f
    · exact h.withWork _
  · exact h

theorem penGlyph_paints {s t : State} (h : Paints s t) (g : Glyph) (gh : Handle) (st : TextStyle) :
    (t.penGlyph g gh st).Paints s := (drawChar_paints h gh _).bind fun _ _ k => k.withWork _

theorem placeGlyph_paints {s t : State} (h : Paints s t) (f : Font) (g : Glyph) (gh : Handle) (st : TextStyle) :
    (t.placeGlyph f g gh st).Paints s := by
  unfold State.placeGlyph
  split
  · split
    · exact h
    · exact (wrapRight_paints h f g).bind fun _ _ k => penGlyph_paints k g gh st
  · refine (wrapRight_paints h f g).bind fun _ u k => ?_
    split
    · exact k
    · exact penGlyph_paints k g gh st

theorem stringByte_paints {s t : State} (h : Paints s t) (f : Font) (st : TextStyle) (c : Byte) :
    (t.stringByte f st c).Paints s := by
  unfold State.stringByte
  split
  · exact h
  · split
    · exact (spaceH_paints (h.withWork _) f).bind fun _ _ k => k.withWork _
    · split
      · exact (spaceH_paints h f).bind fun _ _ k => k.withWork _
      · split
        · exact h
        · exact (glyphAsset_paints h _).bind fun g _ k => placeGlyph_paints k f g _ st

theorem walkString_paints (f : Font) (st : TextStyle) (bytes : List Byte) {s t : State} (h : Paints s t) :
    (State.walkString f st bytes t).Paints s := by
  induction bytes generalizing t with
  | nil => exact h
  | cons c rest ih =>
    refine (stringByte_paints (h.withWork _) f st c).bind fun more u k => ?_
    split
    · exact ih k
    · exact k

theorem drawString_paints (s : State) (x y : Word) (str font : Handle) (st : TextStyle) :
    (s.drawString x y str font st).Paints s :=
  (stringAsset_paints (Paints.refl s) str).bind fun bytes _ k =>
    (fontAsset_paints k font).bind fun f _ k => walkString_paints f st bytes (k.withWork _)

theorem blit_paints {s t : State} (h : Paints s t) (b : Bitmap) (x y : Int) : (t.blit b x y).Paints s := by
  unfold State.blit
  split
  · exact h
  · exact ((h.trans (setWindow_paints _ _ _ _ _)).trans (writeData_paints _ _)).withWork _

/-! ## INIT -/

/-- The events of INIT (R202). -/
def initEvents (p : Params) : List Event :=
  [.xportEnable] ++ csEdge p .csRelease ++
  bracketed p [.cmd 0x01] ++ [.settle] ++ bracketed p [.cmd 0x11] ++ [.settle] ++
  bracketed p [.cmd 0x3A] ++ bracketed p [.dat 0x55] ++ [.settle] ++
  bracketed p [.cmd 0x36] ++ bracketed p [.dat (p.madctlPat[0])] ++ [.settle] ++
  bracketed p [.cmd 0x21] ++ [.settle] ++ bracketed p [.cmd 0x13] ++ [.settle] ++
  bracketed p [.cmd 0x29] ++ [.settle]

theorem madctl_orientInit (p : Params) : madctl p Config.orientInit = p.madctlPat[0] := rfl

theorem wireCommand_emits (s : State) (c : Byte) (bs : List Byte) :
    s.wireCommand c bs = s.emitAll (bracketed s.params [.cmd c] ++ bytesEvents s.params bs) := by
  unfold State.wireCommand State.writeCommand State.writeData
  rw [commandGroup_eq, dataGroup_eq, State.emitAll_append]
  rfl

/-- INIT's sequence emits its events and does nothing else. -/
theorem initSequence_emits (s : State) : s.initSequence = s.emitAll (initEvents s.params) := by
  have p : ∀ es, (s.emitAll es).params = s.params := fun _ => rfl
  unfold State.initSequence State.softwareReset State.sleepOut State.colorMode State.memoryAccessControl
    State.inversionOn State.normalDisplayOn State.displayOn
  simp only [wireCommand_emits, State.emitAll_append, p, madctl_orientInit]
  have none : bytesEvents s.params [] = [] := rfl
  have one : ∀ b, bytesEvents s.params [b] = bracketed s.params [.dat b] := fun _ => rfl
  refine congrArg s.emitAll ?_
  simp only [none, one, initEvents, List.append_assoc, List.nil_append]

end Sys2Proof.Machine
end

