-- ==== Sys2Proof/Laws/Exec.lean ====
section
/-! SUPPORT. Once and for all: what an operation can do, and what a step can do. -/

namespace Sys2Proof.Machine

/-- How a painting operation ends (R16): it completes, or it faults. -/
def Ends (s t : State) : Prop := ∃ u, Paints s u ∧ (t = u.complete ∨ ∃ c, t = u.raiseFault c)

theorem Flow.Paints.ends {α : Type} {s : State} {r : Flow α} (h : r.Paints s) : Ends s r.finish := by
  cases r with
  | ok v t => exact ⟨t, h, .inl rfl⟩
  | raised c t => exact ⟨t, h, .inr ⟨c, rfl⟩⟩

theorem Paints.ends {s t : State} (h : Paints s t) : Ends s t.complete := ⟨t, h, .inl rfl⟩

/-- What an operation can do: INIT runs its sequence, ROTATE_DISPLAY sends one command and sets the surface, and every
other operation paints and then completes or faults. -/
theorem exec_cases (i : Instr) (s : State) : ∃ t, exec i s = .next t ∧
    ((i = .init ∧ t = (s.emitAll (initEvents s.params)).afterInit.complete) ∨
     (∃ rotation, i = .rotateDisplay rotation ∧ ∃ u, Paints s u ∧ t = (u.setOrient (rotMode rotation)).complete) ∨
     (i ≠ .init ∧ (∀ r, i ≠ .rotateDisplay r) ∧ Ends s t)) := by
  cases i with
  | init =>
    refine ⟨_, rfl, .inl ⟨rfl, ?_⟩⟩
    rw [initSequence_emits]
  | rotateDisplay r => exact ⟨_, rfl, .inr (.inl ⟨r, rfl, _, wireCommand_paints _ _ _, rfl⟩)⟩
  | setWindow => exact ⟨_, rfl, .inr (.inr ⟨by simp, by simp, (setWindow_paints _ _ _ _ _).ends⟩)⟩
  | fillColor => exact ⟨_, rfl, .inr (.inr ⟨by simp, by simp, (fillColor_paints _ _ _).ends⟩)⟩
  | drawPixel => exact ⟨_, rfl, .inr (.inr ⟨by simp, by simp, (fillWindow_paints _ _ _ _ _ _ _).ends⟩)⟩
  | fillRect => exact ⟨_, rfl, .inr (.inr ⟨by simp, by simp,
      (clipped_paints _ _ _ _ _ _ fun _ _ _ => fillWindow_paints _ _ _ _ _ _ _).ends⟩)⟩
  | fillRectFast => exact ⟨_, rfl, .inr (.inr ⟨by simp, by simp, (fillWindow_paints _ _ _ _ _ _ _).ends⟩)⟩
  | fillScreen => exact ⟨_, rfl, .inr (.inr ⟨by simp, by simp,
      (clipped_paints _ _ _ _ _ _ fun _ _ _ => fillWindow_paints _ _ _ _ _ _ _).ends⟩)⟩
  | drawRectangle => exact ⟨_, rfl, .inr (.inr ⟨by simp, by simp,
      (clipped_paints _ _ _ _ _ _ fun _ _ _ => outline_paints _ _ _ _ _ _).ends⟩)⟩
  | drawFastHLine => exact ⟨_, rfl, .inr (.inr ⟨by simp, by simp, (fillWindow_paints _ _ _ _ _ _ _).ends⟩)⟩
  | drawFastVLine => exact ⟨_, rfl, .inr (.inr ⟨by simp, by simp, (fillWindow_paints _ _ _ _ _ _ _).ends⟩)⟩
  | drawLine => exact ⟨_, rfl, .inr (.inr ⟨by simp, by simp, (drawLine_paints _ _ _ _ _ _ _).ends⟩)⟩
  | drawChar => exact ⟨_, rfl, .inr (.inr ⟨by simp, by simp, (drawChar_paints (Paints.refl s) _ _).ends⟩)⟩
  | drawStringMain => exact ⟨_, rfl, .inr (.inr ⟨by simp, by simp, (drawString_paints _ _ _ _ _ _).ends⟩)⟩
  | drawString => exact ⟨_, rfl, .inr (.inr ⟨by simp, by simp, (drawString_paints _ _ _ _ _ _).ends⟩)⟩
  | drawStringWithbg => exact ⟨_, rfl, .inr (.inr ⟨by simp, by simp, (drawString_paints _ _ _ _ _ _).ends⟩)⟩
  | drawBitmap => exact ⟨_, rfl, .inr (.inr ⟨by simp, by simp,
      ((bitmapAsset_paints (Paints.refl s) _).bind fun b _ k => blit_paints k b _ _).ends⟩)⟩
  | wireSoftwareReset => exact ⟨_, rfl, .inr (.inr ⟨by simp, by simp, (wireCommand_paints _ _ _).ends⟩)⟩
  | wireSleepOut => exact ⟨_, rfl, .inr (.inr ⟨by simp, by simp, (wireCommand_paints _ _ _).ends⟩)⟩
  | wireColorMode => exact ⟨_, rfl, .inr (.inr ⟨by simp, by simp, (wireCommand_paints _ _ _).ends⟩)⟩
  | wireMemoryAccessControl => exact ⟨_, rfl, .inr (.inr ⟨by simp, by simp, (wireCommand_paints _ _ _).ends⟩)⟩
  | wireInversionOn => exact ⟨_, rfl, .inr (.inr ⟨by simp, by simp, (wireCommand_paints _ _ _).ends⟩)⟩
  | wireNormalDisplayOn => exact ⟨_, rfl, .inr (.inr ⟨by simp, by simp, (wireCommand_paints _ _ _).ends⟩)⟩
  | wireDisplayOn => exact ⟨_, rfl, .inr (.inr ⟨by simp, by simp, (wireCommand_paints _ _ _).ends⟩)⟩
  | wireColumnAddressSet => exact ⟨_, rfl, .inr (.inr ⟨by simp, by simp, (wireCommand_paints _ _ _).ends⟩)⟩
  | wireRowAddressSet => exact ⟨_, rfl, .inr (.inr ⟨by simp, by simp, (wireCommand_paints _ _ _).ends⟩)⟩
  | wireMemoryWrite => exact ⟨_, rfl, .inr (.inr ⟨by simp, by simp, (wireCommand_paints _ _ _).ends⟩)⟩

/-- What the run of what was accepted can do. -/
theorem runLatched_cases (s : State) : ∃ t, s.runLatched = .next t ∧
    ((∃ i, decode s.work.latch = .ok i ∧ exec i s = .next t) ∨
     (∃ e, decode s.work.latch = .error e) ∧ t = s.raiseFault .illegalOp) := by
  unfold State.runLatched
  split
  · rename_i i h
    obtain ⟨t, e, -⟩ := exec_cases i s
    exact ⟨t, e, .inl ⟨i, h, e⟩⟩
  · rename_i e h
    exact ⟨_, rfl, .inr ⟨⟨e, h⟩, rfl⟩⟩

/-- A register read changes the data read and the count of free values only. -/
theorem readRegister_frame (s : State) (k : Nat) :
    s.readRegister k = { s with readData := (s.readRegister k).readData, free := (s.readRegister k).free } := by
  unfold State.readRegister
  split
  · split <;> rfl
  · rfl
  · rfl

/-- While an operation runs, all that the host has pending can act. -/
theorem pending_busy {s : State} (h : s.seq = .busy) : s.pending = s.host := by simp [State.pending, h]

theorem pending_idle {s : State} (h : s.seq = .idle) : s.pending = s.host := by simp [State.pending, h]

/-- Offers are passed over: the first action left is none. -/
theorem passOffers_head (actions : List HostAction) (words : List Word) (rest : List HostAction) :
    passOffers actions ≠ .offer words :: rest := by
  induction actions with
  | nil => simp [passOffers]
  | cons a l ih => cases a <;> simp [passOffers, ih]

theorem passOffers_nil {actions : List HostAction} :
    passOffers actions = [] ↔ ∀ a ∈ actions, ∃ words, a = .offer words := by
  induction actions with
  | nil => simp [passOffers]
  | cons a l ih => cases a <;> simp [passOffers, ih]

/-- A running operation runs unless the host resets the block or reads a register first. -/
theorem step_runs {s : State} (q : s.seq = .busy) (w : s.hostWaits) : step s = s.runLatched := by
  unfold step State.advance
  rw [pending_busy q]
  rcases hh : s.host with _ | ⟨a, rest⟩
  · simp [q]
  · cases a with
    | readReg k => exact absurd hh (w.2 _ _)
    | blockReset => exact absurd hh (w.1 _)
    | offer _ => simp [q]
    | putAsset _ _ => simp [q]
    | wait => simp [q]

/-- What a step can do. -/
theorem step_cases {s t : State} (h : step s = .next t) :
    (∃ rest, s.pending = .blockReset :: rest ∧ t = { s.blockReset with host := rest }) ∨
    (∃ k rest, s.pending = .readReg k :: rest ∧ t = { s.readRegister k with host := rest }) ∨
    (∃ ws rest, s.pending = .offer ws :: rest ∧ s.seq = .idle ∧ t = { s.accept ws with host := rest }) ∨
    (∃ hd a rest, s.pending = .putAsset hd a :: rest ∧ s.seq ≠ .busy ∧
      t = { s.putAsset hd a with host := rest }) ∨
    (∃ rest, s.pending = .wait :: rest ∧ s.seq ≠ .busy ∧ t = { s with host := rest }) ∨
    (s.pending = [] ∧ s.seq = .idle ∧ t = s) ∨
    (s.seq = .busy ∧ s.hostWaits ∧ s.runLatched = .next t) := by
  have waits : s.seq = .busy → (∀ rest, s.pending ≠ .blockReset :: rest) →
      (∀ k rest, s.pending ≠ .readReg k :: rest) → s.hostWaits := by
    intro q a b
    rw [pending_busy q] at a b
    exact ⟨a, b⟩
  unfold step State.advance at h
  rcases hp : s.pending with _ | ⟨a, rest⟩
  · rcases hq : s.seq <;> simp [hp, hq] at h ⊢
    · exact h.symm
    · exact ⟨waits hq (by simp [hp]) (by simp [hp]), h⟩
  · rcases a with ws | k | _ | ⟨hd, a⟩ | _
    · rcases hq : s.seq <;> simp [hp, hq] at h ⊢
      · exact h.symm
      · exact ⟨waits hq (by simp [hp]) (by simp [hp]), h⟩
    · simp [hp] at h ⊢
      exact .inl h.symm
    · simp [hp] at h ⊢
      exact .inl h.symm
    · rcases hq : s.seq <;> simp [hp, hq] at h ⊢
      · exact h.symm
      · exact ⟨waits hq (by simp [hp]) (by simp [hp]), h⟩
      · exact h.symm
    · rcases hq : s.seq <;> simp [hp, hq] at h ⊢
      · exact h.symm
      · exact ⟨waits hq (by simp [hp]) (by simp [hp]), h⟩
      · exact h.symm

end Sys2Proof.Machine
end

