-- ==== Sys2Proof/Laws/Memory.lean ====
section
/-! SUPPORT. The laws of sparse memory: reading after writing, and that every operation keeps the canonical form. -/

namespace Sys2Proof.Machine

variable {α : Type}

theorem Memory.above_mono {k l : Nat} {m : Memory α} (h : k ≤ l) (a : Memory.above l m = true) :
    Memory.above k m = true := by
  cases m with
  | nil => rfl
  | cons c rest =>
    simp [Memory.above] at a ⊢
    exact ⟨by omega, a.2⟩

theorem Memory.wf_of_above {k : Nat} {m : Memory α} (h : Memory.above k m = true) : Memory.wf m = true := by
  cases m with
  | nil => rfl
  | cons c rest =>
    simp [Memory.above] at h
    exact h.2

theorem Memory.above_write {k key : Nat} {m : Memory α} {v : α} (hk : k < key) (h : Memory.above k m = true) :
    Memory.above k (Memory.write m key v) = true := by
  induction m generalizing k with
  | nil => simp [Memory.write, Memory.above, hk]
  | cons c rest ih =>
    obtain ⟨a, u⟩ := c
    simp [Memory.above] at h
    unfold Memory.write
    split
    · simp [Memory.above, *]
    · split
      · subst key
        simp [Memory.above, h]
      · simp [Memory.above, h.1]
        exact ih (by omega) h.2

/-- Writing keeps the canonical form. -/
theorem Memory.wf_write {m : Memory α} (key : Nat) (v : α) (h : Memory.wf m = true) :
    Memory.wf (Memory.write m key v) = true := by
  cases m with
  | nil => rfl
  | cons c rest =>
    obtain ⟨a, u⟩ := c
    change Memory.above a rest = true at h
    unfold Memory.write
    split
    · simp [Memory.wf, Memory.above, *]
    · split
      · subst key
        exact h
      · exact Memory.above_write (by omega) h

theorem Memory.above_erase {k key : Nat} {m : Memory α} (h : Memory.above k m = true) :
    Memory.above k (Memory.erase m key) = true := by
  induction m generalizing k with
  | nil => rfl
  | cons c rest ih =>
    obtain ⟨a, u⟩ := c
    simp [Memory.above] at h
    unfold Memory.erase
    split
    · exact Memory.above_mono (by omega) h.2
    · simp [Memory.above, h.1]
      exact ih h.2

/-- Taking a value away keeps the canonical form. -/
theorem Memory.wf_erase {m : Memory α} (key : Nat) (h : Memory.wf m = true) : Memory.wf (Memory.erase m key) = true := by
  cases m with
  | nil => rfl
  | cons c rest =>
    obtain ⟨a, u⟩ := c
    change Memory.above a rest = true at h
    unfold Memory.erase
    split
    · exact Memory.wf_of_above h
    · exact Memory.above_erase h

theorem Memory.wf_put {m : Memory α} (key : Nat) (v : Option α) (h : Memory.wf m = true) :
    Memory.wf (Memory.put m key v) = true := by
  cases v with
  | none => exact Memory.wf_erase key h
  | some u => exact Memory.wf_write key u h

/-- A read of the key just written gives the value written. -/
theorem Memory.read_write_same (m : Memory α) (key : Nat) (v : α) : Memory.read (Memory.write m key v) key = some v := by
  induction m with
  | nil => simp [Memory.write, Memory.read]
  | cons c rest ih =>
    obtain ⟨a, u⟩ := c
    unfold Memory.write
    split
    · simp [Memory.read]
    · split
      · simp [Memory.read]
      · simp [Memory.read, *]

/-- A write leaves every other key alone. -/
theorem Memory.read_write_other (m : Memory α) {key other : Nat} (v : α) (h : other ≠ key) :
    Memory.read (Memory.write m key v) other = Memory.read m other := by
  induction m with
  | nil => simp [Memory.write, Memory.read, h]
  | cons c rest ih =>
    obtain ⟨a, u⟩ := c
    unfold Memory.write
    split
    · simp [Memory.read, h]
    · split
      · subst key
        simp [Memory.read, h]
      · simp [Memory.read, ih]

theorem Memory.read_above {k : Nat} {m : Memory α} {key : Nat} (h : Memory.above k m = true) (hk : key ≤ k) :
    Memory.read m key = none := by
  induction m generalizing k with
  | nil => rfl
  | cons c rest ih =>
    obtain ⟨a, u⟩ := c
    simp [Memory.above] at h
    have : key ≠ a := by omega
    simp [Memory.read, this]
    exact ih h.2 (by omega)

/-- A read of a key just taken away gives nothing. -/
theorem Memory.read_erase_same {m : Memory α} (key : Nat) (h : Memory.wf m = true) :
    Memory.read (Memory.erase m key) key = none := by
  induction m with
  | nil => rfl
  | cons c rest ih =>
    obtain ⟨a, u⟩ := c
    change Memory.above a rest = true at h
    unfold Memory.erase
    split
    · subst key
      exact Memory.read_above h le_rfl
    · simp [Memory.read, *]
      exact ih (Memory.wf_of_above h)

/-- Taking a key's value away leaves every other key alone. -/
theorem Memory.read_erase_other (m : Memory α) {key other : Nat} (h : other ≠ key) :
    Memory.read (Memory.erase m key) other = Memory.read m other := by
  induction m with
  | nil => rfl
  | cons c rest ih =>
    obtain ⟨a, u⟩ := c
    unfold Memory.erase
    split
    · subst key
      simp [Memory.read, h]
    · simp [Memory.read, ih]

/-- A read after a change gives what was put there, and every other key reads as before. -/
theorem Memory.read_put {m : Memory α} (key : Nat) (v : Option α) (h : Memory.wf m = true) (other : Nat) :
    Memory.read (Memory.put m key v) other = if other = key then v else Memory.read m other := by
  cases v with
  | none =>
    split
    · rename_i e
      rw [e]
      exact Memory.read_erase_same key h
    · rename_i ne
      exact Memory.read_erase_other m ne
  | some u =>
    split
    · rename_i e
      rw [e]
      exact Memory.read_write_same m key u
    · rename_i ne
      exact Memory.read_write_other m u ne

/-- What a write lists: the cell written, or a cell that was there. -/
theorem Memory.mem_write {m : Memory α} {key : Nat} {v : α} {cell : Nat × α} (h : cell ∈ Memory.write m key v) :
    cell = (key, v) ∨ cell ∈ m := by
  induction m with
  | nil => simpa [Memory.write] using h
  | cons c rest ih =>
    obtain ⟨a, u⟩ := c
    unfold Memory.write at h
    split at h
    · simpa using h
    · split at h
      · simp at h ⊢
        tauto
      · simp at h ⊢
        rcases h with h | h
        · tauto
        · have := ih h
          tauto

/-- Equal reads make equal memories, in canonical form. -/
theorem Memory.ext_of_read {m l : Memory α} (hm : Memory.wf m = true) (hl : Memory.wf l = true)
    (h : ∀ key, Memory.read m key = Memory.read l key) : m = l := by
  induction m generalizing l with
  | nil =>
    cases l with
    | nil => rfl
    | cons c rest => have := h c.1; simp [Memory.read] at this
  | cons c rest ih =>
    obtain ⟨a, u⟩ := c
    cases l with
    | nil => have := h a; simp [Memory.read] at this
    | cons d rest' =>
      obtain ⟨b, v⟩ := d
      change Memory.above a rest = true at hm
      change Memory.above b rest' = true at hl
      have ab : a = b := by
        by_contra ne
        rcases Nat.lt_or_gt_of_ne ne with lt | lt
        · have := h a
          simp [Memory.read, ne, Memory.read_above hl (Nat.le_of_lt lt)] at this
        · have := h b
          simp [Memory.read, Ne.symm ne, Memory.read_above hm (Nat.le_of_lt lt)] at this
      subst ab
      have uv : u = v := by have := h a; simpa [Memory.read] using this
      subst uv
      congr 1
      apply ih (Memory.wf_of_above hm) (Memory.wf_of_above hl)
      intro key
      by_cases e : key = a
      · subst e
        rw [Memory.read_above hm le_rfl, Memory.read_above hl le_rfl]
      · have := h key
        simpa [Memory.read, e] using this

end Sys2Proof.Machine
end

