-- ==== Sys2Proof/Laws/Panel.lean ====
section
/-! SUPPORT. What a window and a pixel stream do to the panel observer. -/

namespace Sys2Proof.Machine

/-- The panel after a list of events. -/
def Panel.after (p : Params) (q : Panel) (es : List Event) : Panel := es.foldl (Panel.observe p) q

@[simp] theorem Panel.after_nil (p : Params) (q : Panel) : q.after p [] = q := rfl

theorem Panel.after_cons (p : Params) (q : Panel) (e : Event) (es : List Event) :
    q.after p (e :: es) = (q.observe p e).after p es := rfl

theorem Panel.after_append (p : Params) (q : Panel) (es fs : List Event) :
    q.after p (es ++ fs) = (q.after p es).after p fs := List.foldl_append

theorem Panel.after_bracketed (p : Params) (q : Panel) (es : List Event) :
    q.after p (bracketed p es) = q.after p es := by
  unfold bracketed
  split
  · rfl
  · rw [Panel.after_append, Panel.after_append]
    rfl

theorem joinBytes_extract (v : Word) : joinBytes (v.extractLsb' 8 8) (v.extractLsb' 0 8) = v := by
  unfold joinBytes
  apply BitVec.eq_of_getLsbD_eq
  intro k hk
  rw [BitVec.getLsbD_append]
  by_cases h : k < 8
  · simp [h]
  · simp only [h, decide_false, BitVec.getLsbD_extractLsb']
    have : k - 8 < 8 := by omega
    have e : 8 + (k - 8) = k := by omega
    simp [this, e]

/-- A window on the wire (R65, R66): the observer holds it, armed at its first pixel. -/
theorem Panel.after_window (p : Params) (q : Panel) (x1 y1 x2 y2 : Word) :
    q.after p (windowEvents p x1 y1 x2 y2) =
      { q with xs := x1, xe := x2, ys := y1, ye := y2, px := zext x1, py := zext y1, armed := true,
               undef := q.undef || q.dangling || decide (x1.toNat > x2.toNat) || decide (y1.toNat > y2.toNat),
               lastCmd := some 0x2C, args := [], pairHi := none, initFirst := false } := by
  unfold windowEvents
  rw [Panel.after_append, Panel.after_append, Panel.after_append, Panel.after_append]
  simp only [Panel.after_bracketed]
  simp [Panel.after, wordEvents, Panel.observe, Panel.takeCmd, Panel.startCmd, Panel.takeDat, dataCount,
    Panel.setWindowRegs, joinBytes_extract, Panel.dangling]

/-- The colours of a pixel stream, one after the other. -/
def Panel.takePixels (p : Params) (q : Panel) (colors : List Word) : Panel := colors.foldl (Panel.takePixel p) q

/-- The cursor of a panel that is armed between pixels. -/
structure Panel.Ready (q : Panel) : Prop where
  armed : q.armed = true
  pairHi : q.pairHi = none

theorem Panel.advance_ready {q : Panel} (h : q.Ready) : q.advance.Ready := by
  unfold Panel.advance
  split <;> exact ⟨h.armed, h.pairHi⟩

theorem Panel.takePixel_ready {p : Params} {q : Panel} (h : q.Ready) (c : Word) : (q.takePixel p c).Ready := by
  unfold Panel.takePixel
  apply Panel.advance_ready
  split
  · exact ⟨h.armed, h.pairHi⟩
  · split <;> exact ⟨h.armed, h.pairHi⟩

theorem Panel.after_word {p : Params} {q : Panel} (h : q.Ready) (c : Word) :
    q.after p (wordEvents c) = q.takePixel p c := by
  obtain ⟨xs, xe, ys, ye, px, py, armed, gram, undef, lastCmd, args, pairHi, initFirst⟩ := q
  obtain ⟨rfl, rfl⟩ := h
  simp [Panel.after, wordEvents, Panel.observe, Panel.takeDat, joinBytes_extract]

theorem Panel.after_words {p : Params} (colors : List Word) {q : Panel} (h : q.Ready) :
    q.after p (colors.flatMap wordEvents) = q.takePixels p colors := by
  induction colors generalizing q with
  | nil => rfl
  | cons c rest ih =>
    rw [List.flatMap_cons, Panel.after_append, Panel.after_word h, ih (Panel.takePixel_ready h c)]
    rfl

theorem Panel.after_pixels {p : Params} {q : Panel} (h : q.Ready) (color : Word) (n : Nat) :
    q.after p (pixelsEvents p color n) = q.takePixels p (List.replicate n color) := by
  rw [← Panel.after_words _ h]
  unfold pixelsEvents
  split
  · subst n
    rfl
  · rw [Panel.after_bracketed]
    congr 1
    rw [List.flatMap_def, List.map_replicate]

/-- The cursor stands at pixel n of the window, counted row by row. -/
structure Panel.At (q : Panel) (wd n : Nat) : Prop where
  ready : q.Ready
  width : q.xs.toNat + wd = q.xe.toNat + 1
  pos : 0 < wd
  px : q.px = (q.xs.toNat + n % wd : Nat)
  py : q.py = (q.ys.toNat + n / wd : Nat)

theorem next_in_row {wd n : Nat} (pos : 0 < wd) (h : n % wd + 1 ≠ wd) :
    (n + 1) % wd = n % wd + 1 ∧ (n + 1) / wd = n / wd := by
  have lt := Nat.mod_lt n pos
  have e := Nat.div_add_mod n wd
  have e2 : n + 1 = wd * (n / wd) + (n % wd + 1) := by omega
  constructor
  · rw [e2, Nat.mul_add_mod, Nat.mod_eq_of_lt (by omega)]
  · rw [e2, Nat.mul_add_div pos, Nat.div_eq_of_lt (show n % wd + 1 < wd by omega), Nat.add_zero]

theorem next_row {wd n : Nat} (pos : 0 < wd) (h : n % wd + 1 = wd) :
    (n + 1) % wd = 0 ∧ (n + 1) / wd = n / wd + 1 := by
  have e := Nat.div_add_mod n wd
  have e2 : n + 1 = wd * (n / wd + 1) := by rw [Nat.mul_add]; omega
  constructor
  · rw [e2, Nat.mul_mod_right]
  · rw [e2, Nat.mul_div_cancel_left _ pos]

/-- Advancing moves the cursor to the next pixel of the window. -/
theorem Panel.advance_at {q : Panel} {wd n : Nat} (h : q.At wd n) : q.advance.At wd (n + 1) := by
  have lt := Nat.mod_lt n h.pos
  have w := h.width
  unfold Panel.advance
  by_cases last : n % wd + 1 = wd
  · have e := next_row h.pos last
    rw [if_pos (by rw [h.px]; unfold zext; omega)]
    exact ⟨⟨h.ready.armed, h.ready.pairHi⟩, h.width, h.pos, by simp [zext, e.1],
      by simp only [h.py, e.2]; omega⟩
  · have e := next_in_row h.pos last
    rw [if_neg (by rw [h.px]; unfold zext; omega)]
    exact ⟨⟨h.ready.armed, h.ready.pairHi⟩, h.width, h.pos, by simp only [h.px, e.1]; omega,
      by simp only [h.py, e.2]⟩

/-- The number of a pixel in a window that begins at (x, y) and is wd wide. -/
def pixelIndex (x y wd col row : Nat) : Nat := (row - y) * wd + (col - x)

theorem Panel.takePixel_at {p : Params} {q : Panel} {wd n : Nat} (h : q.At wd n) (c : Word) :
    (q.takePixel p c).At wd (n + 1) := by
  unfold Panel.takePixel
  apply Panel.advance_at
  split
  · exact ⟨⟨h.ready.armed, h.ready.pairHi⟩, h.width, h.pos, h.px, h.py⟩
  · split <;> exact ⟨⟨h.ready.armed, h.ready.pairHi⟩, h.width, h.pos, h.px, h.py⟩

/-- What advancing the cursor leaves alone. -/
theorem Panel.advance_frame (q : Panel) :
    q.advance.gram = q.gram ∧ q.advance.undef = q.undef ∧ q.advance.xs = q.xs ∧ q.advance.xe = q.xe ∧
    q.advance.ys = q.ys ∧ q.advance.ye = q.ye ∧ q.advance.armed = q.armed ∧ q.advance.pairHi = q.pairHi ∧
    q.advance.lastCmd = q.lastCmd ∧ q.advance.args = q.args ∧ q.advance.initFirst = q.initFirst := by
  unfold Panel.advance
  split <;> simp

theorem Panel.takePixel_frame (p : Params) (q : Panel) (c : Word) :
    (q.takePixel p c).xs = q.xs ∧ (q.takePixel p c).xe = q.xe ∧ (q.takePixel p c).ys = q.ys ∧
    (q.takePixel p c).ye = q.ye ∧ (q.takePixel p c).armed = q.armed ∧ (q.takePixel p c).lastCmd = q.lastCmd := by
  unfold Panel.takePixel
  split
  · simp [Panel.advance_frame]
  · split <;> simp [Panel.advance_frame]

theorem pixelKey_inj {c r c' r' : Nat} (hc : c < 65536) (hc' : c' < 65536) :
    pixelKey c r = pixelKey c' r' ↔ c = c' ∧ r = r' := by
  unfold pixelKey
  omega

theorem Panel.inRange_at {p : Params} {q : Panel} {wd n : Nat} (h : q.At wd n) :
    q.inRange p = inPanel p (q.xs.toNat + n % wd) (q.ys.toNat + n / wd) := by
  have px := h.px
  have py := h.py
  generalize n % wd = a at *
  generalize n / wd = b at *
  simp only [Panel.inRange, inPanel, zext, px, py]
  rw [Bool.eq_iff_iff]
  simp only [Bool.and_eq_true, decide_eq_true_eq]
  omega

/-- One pixel of a window: it gets its colour if it is in the panel, and no other pixel changes. -/
theorem Panel.takePixel_pixel {p : Params} {q : Panel} {wd n : Nat} (h : q.At wd n) (c : Word)
    (room : q.ys.toNat + n / wd ≤ q.ye.toNat) {col row : Nat} (hc : col < 65536) :
    (q.takePixel p c).pixel col row =
      if col = q.xs.toNat + n % wd ∧ row = q.ys.toNat + n / wd ∧ inPanel p col row = true then some c
      else q.pixel col row := by
  have hx : q.px.toNat = q.xs.toNat + n % wd := by rw [h.px]; rfl
  have hy : q.py.toNat = q.ys.toNat + n / wd := by rw [h.py]; rfl
  have lt := Nat.mod_lt n h.pos
  have w := h.width
  have xe := q.xe.isLt
  unfold Panel.pixel Panel.takePixel
  rw [(Panel.advance_frame _).1]
  rw [if_neg (by rw [h.py]; unfold zext; omega)]
  by_cases inr : q.inRange p = true
  · rw [if_pos inr]
    have inp : inPanel p (q.xs.toNat + n % wd) (q.ys.toNat + n / wd) = true := by
      rw [← Panel.inRange_at h]
      exact inr
    by_cases e : col = q.xs.toNat + n % wd ∧ row = q.ys.toNat + n / wd
    · rw [if_pos ⟨e.1, e.2, by rw [e.1, e.2]; exact inp⟩, hx, hy, e.1, e.2]
      exact Memory.read_write_same _ _ _
    · rw [if_neg (by tauto)]
      apply Memory.read_write_other
      rw [hx, hy, Ne, pixelKey_inj hc (by omega)]
      exact e
  · rw [if_neg inr]
    have inp : inPanel p (q.xs.toNat + n % wd) (q.ys.toNat + n / wd) = false := by
      rw [← Panel.inRange_at h]
      simpa using inr
    rw [if_neg]
    rintro ⟨e1, e2, i⟩
    rw [e1, e2, inp] at i
    exact absurd i (by simp)

theorem Panel.takePixel_undef {p : Params} {q : Panel} {wd n : Nat} (h : q.At wd n) (c : Word)
    (room : q.ys.toNat + n / wd ≤ q.ye.toNat) :
    (q.takePixel p c).undef = (q.undef || !inPanel p (q.xs.toNat + n % wd) (q.ys.toNat + n / wd)) := by
  unfold Panel.takePixel
  rw [(Panel.advance_frame _).2.1]
  rw [if_neg (by rw [h.py]; unfold zext; omega)]
  by_cases inr : q.inRange p = true
  · rw [if_pos inr]
    have inp : inPanel p (q.xs.toNat + n % wd) (q.ys.toNat + n / wd) = true := by
      rw [← Panel.inRange_at h]
      exact inr
    simp [inp]
  · rw [if_neg inr]
    have inp : inPanel p (q.xs.toNat + n % wd) (q.ys.toNat + n / wd) = false := by
      rw [← Panel.inRange_at h]
      simpa using inr
    simp [inp]

theorem index_lt_rows {wd n r : Nat} (h : n < wd * r) : n / wd < r :=
  Nat.div_lt_of_lt_mul h

theorem pixelIndex_eq {x y wd col row n : Nat} (pos : 0 < wd) (hx : x ≤ col) (hx2 : col < x + wd) (hy : y ≤ row) :
    pixelIndex x y wd col row = n ↔ col = x + n % wd ∧ row = y + n / wd := by
  unfold pixelIndex
  constructor
  · intro e
    have l : col - x < wd := by omega
    have m : n % wd = col - x := by rw [← e, Nat.mul_comm, Nat.mul_add_mod, Nat.mod_eq_of_lt l]
    have d : n / wd = row - y := by rw [← e, Nat.mul_comm, Nat.mul_add_div pos, Nat.div_eq_of_lt l, Nat.add_zero]
    omega
  · rintro ⟨a, b⟩
    have e := Nat.div_add_mod n wd
    have c1 : col - x = n % wd := by omega
    have c2 : row - y = n / wd := by omega
    rw [c1, c2, Nat.mul_comm]
    exact e

/-- A pixel stream into a window: the pixels numbered from n on get their colours, where they are in the panel; no other
pixel changes. -/
theorem Panel.takePixels_pixel {p : Params} (colors : List Word) {q : Panel} {wd ht n : Nat} (h : q.At wd n)
    (height : q.ys.toNat + ht = q.ye.toNat + 1) (room : n + colors.length ≤ wd * ht) {col row : Nat} (hc : col < 65536) :
    (q.takePixels p colors).pixel col row =
      if inWindow q.xs.toNat q.ys.toNat q.xe.toNat q.ye.toNat col row = true ∧ inPanel p col row = true ∧
          n ≤ pixelIndex q.xs.toNat q.ys.toNat wd col row then
        (colors[pixelIndex q.xs.toNat q.ys.toNat wd col row - n]?).or (q.pixel col row)
      else q.pixel col row := by
  induction colors generalizing q n with
  | nil => simp [Panel.takePixels]
  | cons c rest ih =>
    have fr := Panel.takePixel_frame p q c
    have at' := Panel.takePixel_at (p := p) h c
    simp only [List.length_cons] at room
    have rows : n / wd < ht := index_lt_rows (by omega)
    have step := Panel.takePixel_pixel (p := p) h c (by omega) (col := col) (row := row) hc
    have := ih (q := q.takePixel p c) at' (by rw [fr.2.2.1, fr.2.2.2.1]; exact height) (by omega)
    change (Panel.takePixels p (q.takePixel p c) rest).pixel col row = _
    rw [this, fr.1, fr.2.1, fr.2.2.1, fr.2.2.2.1]
    by_cases win : inWindow q.xs.toNat q.ys.toNat q.xe.toNat q.ye.toNat col row = true
    · have win' := win
      simp only [inWindow, Bool.and_eq_true, decide_eq_true_eq] at win'
      obtain ⟨⟨⟨wx1, wx2⟩, wy1⟩, wy2⟩ := win'
      have w := h.width
      have key := pixelIndex_eq (n := n) h.pos wx1 (by omega) wy1
      by_cases inp : inPanel p col row = true
      · rcases Nat.lt_trichotomy (pixelIndex q.xs.toNat q.ys.toNat wd col row) n with lt | eq | gt
        · rw [if_neg (by omega), if_neg (by omega), step, if_neg]
          rintro ⟨a, b, -⟩
          have := key.2 ⟨a, b⟩
          omega
        · have pos := key.1 eq
          rw [if_neg (by omega), if_pos ⟨win, inp, by omega⟩, step, if_pos ⟨pos.1, pos.2, inp⟩, eq]
          simp
        · rw [if_pos ⟨win, inp, by omega⟩, if_pos ⟨win, inp, by omega⟩, step, if_neg]
          · have : pixelIndex q.xs.toNat q.ys.toNat wd col row - n =
                pixelIndex q.xs.toNat q.ys.toNat wd col row - (n + 1) + 1 := by omega
            rw [this, List.getElem?_cons_succ]
          · rintro ⟨a, b, -⟩
            have := key.2 ⟨a, b⟩
            omega
      · rw [if_neg (by tauto), if_neg (by tauto), step, if_neg (by tauto)]
    · rw [if_neg (by tauto), if_neg (by tauto), step, if_neg]
      rintro ⟨a, b, -⟩
      apply win
      have lt := Nat.mod_lt n h.pos
      have w := h.width
      simp only [inWindow, Bool.and_eq_true, decide_eq_true_eq]
      generalize n % wd = cx at *
      generalize n / wd = cy at *
      omega

/-- A pixel stream into a window that lies in the panel keeps the observer defined. -/
theorem Panel.takePixels_undef {p : Params} (colors : List Word) {q : Panel} {wd ht n : Nat} (h : q.At wd n)
    (height : q.ys.toNat + ht = q.ye.toNat + 1) (room : n + colors.length ≤ wd * ht)
    (inx : q.xe.toNat < p.panelW.toNat) (iny : q.ye.toNat < p.panelH.toNat) :
    (q.takePixels p colors).undef = q.undef := by
  induction colors generalizing q n with
  | nil => rfl
  | cons c rest ih =>
    have fr := Panel.takePixel_frame p q c
    simp only [List.length_cons] at room
    have rows : n / wd < ht := index_lt_rows (by omega)
    have lt := Nat.mod_lt n h.pos
    have w := h.width
    change (Panel.takePixels p (q.takePixel p c) rest).undef = _
    rw [ih (Panel.takePixel_at h c) (by rw [fr.2.2.1, fr.2.2.2.1]; exact height) (by omega)
      (by rw [fr.2.1]; exact inx) (by rw [fr.2.2.2.1]; exact iny), Panel.takePixel_undef h c (by omega)]
    have : inPanel p (q.xs.toNat + n % wd) (q.ys.toNat + n / wd) = true := by
      simp [inPanel]
      omega
    simp [this]

/-! ## What any event can do -/

/-- How far taking a pixel goes: the cell at the cursor or nothing. -/
theorem Panel.takePixel_cases (p : Params) (q : Panel) (c : Word) :
    ((q.takePixel p c).gram = q.gram ∧ (q.takePixel p c).undef = true) ∨
    (q.py ≤ zext q.ye ∧ q.inRange p = true ∧ (q.takePixel p c).undef = q.undef ∧
      (q.takePixel p c).gram = Memory.write q.gram (pixelKey q.px.toNat q.py.toNat) c) := by
  unfold Panel.takePixel
  split
  · left
    simp [Panel.advance_frame]
  · split
    · right
      refine ⟨by omega, by assumption, ?_, ?_⟩ <;> simp [Panel.advance_frame]
    · left
      simp [Panel.advance_frame]

theorem Panel.setWindowRegs_frame (q : Panel) :
    q.setWindowRegs.gram = q.gram ∧ q.setWindowRegs.undef = q.undef ∧ q.setWindowRegs.armed = q.armed := by
  unfold Panel.setWindowRegs
  split
  · split
    · simp
    · split <;> simp
  · simp

/-- No event makes an undefined observer defined (R64). -/
theorem Panel.observe_undef {p : Params} {q : Panel} (h : q.undef = true) (e : Event) : (q.observe p e).undef = true := by
  cases e with
  | cmd b =>
    simp only [Panel.observe, Panel.takeCmd, Panel.startCmd, h, Bool.true_or]
    split
    · rfl
    · split
      · rfl
      · split <;> rfl
  | dat b =>
    simp only [Panel.observe, Panel.takeDat]
    split
    · split
      · exact h
      · rename_i hi _
        rcases Panel.takePixel_cases p { q with pairHi := none } (joinBytes hi b) with k | k
        · exact k.2
        · rw [k.2.2.1]
          exact h
    · split
      · rw [(Panel.setWindowRegs_frame _).2.1]
        exact h
      · rfl
  | csAssert => exact h
  | csRelease => exact h
  | settle => exact h
  | xportEnable => exact h

theorem Panel.after_undef {p : Params} (es : List Event) {q : Panel} (h : q.undef = true) : (q.after p es).undef = true := by
  induction es generalizing q with
  | nil => exact h
  | cons e rest ih => exact ih (Panel.observe_undef h e)

/-- GRAM in canonical form, and no pixel of it out of range. -/
def Panel.gramOk (p : Params) (q : Panel) : Prop := Memory.wf q.gram = true ∧ gramInRange p q.gram

theorem Panel.gramOk_of_eq {p : Params} {q r : Panel} (h : q.gramOk p) (e : r.gram = q.gram) : r.gramOk p := by
  unfold Panel.gramOk
  rw [e]
  exact h

theorem Panel.takePixel_gramOk {p : Params} {q : Panel} (h : q.gramOk p) (c : Word) : (q.takePixel p c).gramOk p := by
  rcases Panel.takePixel_cases p q c with k | ⟨-, inr, -, k⟩
  · exact Panel.gramOk_of_eq h k.1
  · unfold Panel.gramOk
    rw [k]
    refine ⟨Memory.wf_write _ _ h.1, fun cell mem => ?_⟩
    rcases Memory.mem_write mem with rfl | mem
    · have w := p.panelW.isLt
      simp only [Panel.inRange, Bool.and_eq_true, decide_eq_true_eq] at inr
      unfold zext at inr
      show pixelKey q.px.toNat q.py.toNat % 65536 < _ ∧ pixelKey q.px.toNat q.py.toNat / 65536 < _
      unfold pixelKey
      omega
    · exact h.2 cell mem

/-- Every event keeps GRAM in canonical form and in range. -/
theorem Panel.observe_gramOk {p : Params} {q : Panel} (h : q.gramOk p) (e : Event) : (q.observe p e).gramOk p := by
  cases e with
  | cmd b =>
    simp only [Panel.observe, Panel.takeCmd, Panel.startCmd]
    split
    · exact h
    · split
      · exact h
      · split
        · exact ⟨rfl, by simp [gramInRange]⟩
        · exact h
  | dat b =>
    simp only [Panel.observe, Panel.takeDat]
    split
    · split
      · exact h
      · exact Panel.takePixel_gramOk (q := { q with pairHi := none }) h _
    · split
      · exact Panel.gramOk_of_eq (q := { q with args := q.args ++ [b] }) h (Panel.setWindowRegs_frame _).1
      · exact h
  | csAssert => exact h
  | csRelease => exact h
  | settle => exact h
  | xportEnable => exact h

theorem Panel.after_gramOk {p : Params} (es : List Event) {q : Panel} (h : q.gramOk p) : (q.after p es).gramOk p := by
  induction es generalizing q with
  | nil => exact h
  | cons e rest ih => exact ih (Panel.observe_gramOk h e)

/-! ## Frames of painting -/

/-- The cursor lies in the columns of the window, the first one alone if the window is malformed, and not above it. -/
structure Panel.Inside (q : Panel) : Prop where
  left : zext q.xs ≤ q.px
  right : q.px ≤ max (zext q.xs) (zext q.xe)
  top : zext q.ys ≤ q.py

theorem Panel.advance_inside {q : Panel} (h : q.Inside) : q.advance.Inside := by
  obtain ⟨l, r, t⟩ := h
  unfold Panel.advance
  split
  · refine ⟨le_refl _, ?_, ?_⟩ <;> simp only <;> omega
  · refine ⟨?_, ?_, ?_⟩ <;> simp only <;> omega

/-- One pixel changes no pixel outside the window's columns and rows. -/
theorem Panel.takePixel_inside {p : Params} {q : Panel} (h : q.Inside) (c : Word) {col row : Nat} (hc : col < 65536)
    (out : inWindow q.xs.toNat q.ys.toNat (max q.xs.toNat q.xe.toNat) q.ye.toNat col row = false) :
    (q.takePixel p c).Inside ∧ (q.takePixel p c).pixel col row = q.pixel col row := by
  constructor
  · unfold Panel.takePixel
    apply Panel.advance_inside
    split
    · exact ⟨h.left, h.right, h.top⟩
    · split <;> exact ⟨h.left, h.right, h.top⟩
  · unfold Panel.pixel
    rcases Panel.takePixel_cases p q c with k | ⟨le, inr, -, k⟩
    · rw [k.1]
    · rw [k]
      apply Memory.read_write_other
      obtain ⟨l, r, t⟩ := h
      unfold zext at *
      have xs := q.xs.isLt
      have xe := q.xe.isLt
      rw [Ne, pixelKey_inj hc (by omega)]
      rintro ⟨rfl, rfl⟩
      have : inWindow q.xs.toNat q.ys.toNat (max q.xs.toNat q.xe.toNat) q.ye.toNat q.px.toNat q.py.toNat = true := by
        simp only [inWindow, Bool.and_eq_true, decide_eq_true_eq]
        omega
      rw [this] at out
      contradiction

theorem Panel.takePixels_inside {p : Params} (colors : List Word) {q : Panel} (h : q.Inside) {col row : Nat}
    (hc : col < 65536)
    (out : inWindow q.xs.toNat q.ys.toNat (max q.xs.toNat q.xe.toNat) q.ye.toNat col row = false) :
    (q.takePixels p colors).pixel col row = q.pixel col row := by
  induction colors generalizing q with
  | nil => rfl
  | cons c rest ih =>
    have s := Panel.takePixel_inside (p := p) h c hc out
    have fr := Panel.takePixel_frame p q c
    change (Panel.takePixels p (q.takePixel p c) rest).pixel col row = _
    rw [ih s.1 (by rw [fr.1, fr.2.1, fr.2.2.1, fr.2.2.2.1]; exact out), s.2]

/-- A window and its fill change no pixel outside the window: its columns from x1 to x2, the first alone if it is
malformed, and its rows from y1 to y2. -/
theorem Panel.after_paint_frame (p : Params) (q : Panel) (x1 y1 x2 y2 color : Word) (n : Nat) {col row : Nat}
    (hc : col < 65536) (out : inWindow x1.toNat y1.toNat (max x1.toNat x2.toNat) y2.toNat col row = false) :
    (q.after p (paintEvents p x1 y1 x2 y2 color n)).pixel col row = q.pixel col row := by
  unfold paintEvents
  rw [Panel.after_append, Panel.after_window, Panel.after_pixels ⟨rfl, rfl⟩,
    Panel.takePixels_inside _ ⟨le_refl _, le_max_left _ _, le_refl _⟩ hc out]
  rfl

theorem Panel.after_paint_none (p : Params) (q : Panel) (x1 y1 x2 y2 color : Word) {col row : Nat} :
    (q.after p (paintEvents p x1 y1 x2 y2 color 0)).pixel col row = q.pixel col row := by
  unfold paintEvents pixelsEvents
  rw [if_pos rfl, List.append_nil, Panel.after_window]
  rfl

end Sys2Proof.Machine
end

