-- ==== Sys2Proof/Laws/Paint.lean ====
section
/-! SUPPORT. A window and its pixels on the panel: a window filled from its first cell, a window overrun, a stream of bytes
taken in pairs, and when a stream has nowhere to go. -/

namespace Sys2Proof.Machine

/-- The panel after a window (`Panel.after_window`): armed, at the window's first cell. -/
def Panel.windowed (q : Panel) (x1 y1 x2 y2 : Word) : Panel :=
  { q with xs := x1, xe := x2, ys := y1, ye := y2, px := zext x1, py := zext y1, armed := true,
           undef := q.undef || q.dangling || decide (x1.toNat > x2.toNat) || decide (y1.toNat > y2.toNat),
           lastCmd := some 0x2C, args := [], pairHi := none, initFirst := false }

@[simp] theorem Panel.windowed_xs (q : Panel) (x1 y1 x2 y2 : Word) : (q.windowed x1 y1 x2 y2).xs = x1 := rfl
@[simp] theorem Panel.windowed_xe (q : Panel) (x1 y1 x2 y2 : Word) : (q.windowed x1 y1 x2 y2).xe = x2 := rfl
@[simp] theorem Panel.windowed_ys (q : Panel) (x1 y1 x2 y2 : Word) : (q.windowed x1 y1 x2 y2).ys = y1 := rfl
@[simp] theorem Panel.windowed_ye (q : Panel) (x1 y1 x2 y2 : Word) : (q.windowed x1 y1 x2 y2).ye = y2 := rfl
@[simp] theorem Panel.windowed_gram (q : Panel) (x1 y1 x2 y2 : Word) : (q.windowed x1 y1 x2 y2).gram = q.gram := rfl
@[simp] theorem Panel.windowed_pixel (q : Panel) (x1 y1 x2 y2 : Word) (col row : Nat) :
    (q.windowed x1 y1 x2 y2).pixel col row = q.pixel col row := rfl

theorem Panel.windowed_ready (q : Panel) (x1 y1 x2 y2 : Word) : (q.windowed x1 y1 x2 y2).Ready := ⟨rfl, rfl⟩

/-- A window's first cell is pixel 0 of it. -/
theorem Panel.windowed_at (q : Panel) (x1 y1 x2 y2 : Word) {wd : Nat} (width : x1.toNat + wd = x2.toNat + 1)
    (pos : 0 < wd) : (q.windowed x1 y1 x2 y2).At wd 0 :=
  ⟨⟨rfl, rfl⟩, width, pos, by simp [Panel.windowed, zext], by simp [Panel.windowed, zext]⟩

/-- A window that is not malformed leaves a settled observer as defined as it was. -/
theorem Panel.windowed_undef {q : Panel} {x1 y1 x2 y2 : Word} (h : q.settled) (cols : x1.toNat ≤ x2.toNat)
    (rows : y1.toNat ≤ y2.toNat) : (q.windowed x1 y1 x2 y2).undef = q.undef := by
  have d : q.dangling = false := h
  have a : ¬ x1.toNat > x2.toNat := by omega
  have b : ¬ y1.toNat > y2.toNat := by omega
  simp only [Panel.windowed, d, a, b, decide_false, Bool.or_false]

/-- A malformed window leaves the observer undefined. -/
theorem Panel.windowed_malformed (q : Panel) {x1 y1 x2 y2 : Word} (bad : x1.toNat > x2.toNat ∨ y1.toNat > y2.toNat) :
    (q.windowed x1 y1 x2 y2).undef = true := by
  rcases bad with b | b <;> simp [Panel.windowed, b]

theorem Panel.after_window_eq (p : Params) (q : Panel) (x1 y1 x2 y2 : Word) :
    q.after p (windowEvents p x1 y1 x2 y2) = q.windowed x1 y1 x2 y2 := Panel.after_window p q x1 y1 x2 y2

/-- A window and its fill. -/
theorem Panel.after_paint (p : Params) (q : Panel) (x1 y1 x2 y2 color : Word) (n : Nat) :
    q.after p (paintEvents p x1 y1 x2 y2 color n) = (q.windowed x1 y1 x2 y2).takePixels p (List.replicate n color) := by
  unfold paintEvents
  rw [Panel.after_append, Panel.after_window_eq, Panel.after_pixels (q.windowed_ready ..)]

/-- Once undefined, pixels do not make the observer defined. -/
theorem Panel.takePixels_stays {p : Params} (colors : List Word) {q : Panel} (h : q.undef = true) :
    (q.takePixels p colors).undef = true := by
  induction colors generalizing q with
  | nil => exact h
  | cons c rest ih =>
    refine ih (q := q.takePixel p c) ?_
    rcases Panel.takePixel_cases p q c with k | k
    · exact k.2
    · rw [k.2.2.1]
      exact h

/-- More pixels than the window holds leave the observer undefined (R67). -/
theorem Panel.takePixels_overrun {p : Params} (colors : List Word) {q : Panel} {wd ht n : Nat} (h : q.At wd n)
    (height : q.ys.toNat + ht = q.ye.toNat + 1) (le : n ≤ wd * ht) (more : wd * ht < n + colors.length) :
    (q.takePixels p colors).undef = true := by
  induction colors generalizing q n with
  | nil =>
    simp only [List.length_nil] at more
    omega
  | cons c rest ih =>
    have fr := Panel.takePixel_frame p q c
    simp only [List.length_cons] at more
    by_cases full : n = wd * ht
    · refine Panel.takePixels_stays rest (q := q.takePixel p c) ?_
      rcases Panel.takePixel_cases p q c with k | k
      · exact k.2
      · have room := k.1
        rw [h.py, full, Nat.mul_div_cancel_left _ h.pos] at room
        unfold zext at room
        omega
    · exact ih (Panel.takePixel_at h c) (by rw [fr.2.2.1, fr.2.2.2.1]; exact height) (by omega) (by omega)

/-- A fill of a whole window: every cell of it that is in the panel gets the colour, every other pixel is as before. -/
theorem Panel.after_paint_pixel (p : Params) (q : Panel) (x1 y1 x2 y2 color : Word) {wd ht : Nat}
    (width : x1.toNat + wd = x2.toNat + 1) (pos : 0 < wd) (height : y1.toNat + ht = y2.toNat + 1) {col row : Nat}
    (hc : col < 65536) :
    (q.after p (paintEvents p x1 y1 x2 y2 color (wd * ht))).pixel col row =
      if inWindow x1.toNat y1.toNat x2.toNat y2.toNat col row && inPanel p col row then some color
      else q.pixel col row := by
  rw [Panel.after_paint, Panel.takePixels_pixel _ (q.windowed_at x1 y1 x2 y2 width pos) height (by simp) hc]
  simp only [Panel.windowed_xs, Panel.windowed_xe, Panel.windowed_ys, Panel.windowed_ye, Panel.windowed_pixel, Nat.zero_le,
    and_true, Bool.and_eq_true, Nat.sub_zero]
  split
  · rename_i h
    have i := h.1
    simp only [inWindow, Bool.and_eq_true, decide_eq_true_eq] at i
    have lt : pixelIndex x1.toNat y1.toNat wd col row < wd * ht := by
      have := Nat.mul_le_mul_left wd (show row - y1.toNat + 1 ≤ ht by omega)
      have : wd * (row - y1.toNat + 1) = (row - y1.toNat) * wd + wd := by ring
      unfold pixelIndex
      omega
    rw [List.getElem?_replicate, if_pos lt]
    rfl
  · rfl

/-- A fill that a window on the panel can hold leaves a settled observer as defined as it was. -/
theorem Panel.after_paint_undef (p : Params) {q : Panel} {x1 y1 x2 y2 : Word} (color : Word) {n : Nat} (h : q.settled)
    (cols : x1.toNat ≤ x2.toNat) (rows : y1.toNat ≤ y2.toNat)
    (room : n ≤ (x2.toNat - x1.toNat + 1) * (y2.toNat - y1.toNat + 1)) (inx : x2.toNat < p.panelW.toNat)
    (iny : y2.toNat < p.panelH.toNat) : (q.after p (paintEvents p x1 y1 x2 y2 color n)).undef = q.undef := by
  have wd : x1.toNat + (x2.toNat - x1.toNat + 1) = x2.toNat + 1 := by omega
  have ht : y1.toNat + (y2.toNat - y1.toNat + 1) = y2.toNat + 1 := by omega
  rw [Panel.after_paint, Panel.takePixels_undef _ (q.windowed_at x1 y1 x2 y2 wd (by omega)) ht (by simpa using room)
    inx iny, Panel.windowed_undef h cols rows]

/-! ## A stream of bytes -/

/-- Bytes taken in pairs, the high byte first. -/
def pairUp (bytes : List Byte) : List Word :=
  match bytes with
  | hi :: lo :: rest => joinBytes hi lo :: pairUp rest
  | [_] => []
  | [] => []

/-- 2n bytes are n pixels, in order. -/
theorem pairUp_spec (n : Nat) (bytes : List Byte) (len : bytes.length = 2 * n) :
    (pairUp bytes).length = n ∧ bytes.map Event.dat = (pairUp bytes).flatMap wordEvents ∧
    ∀ k < n, ∀ hi lo, bytes[2 * k]? = some hi → bytes[2 * k + 1]? = some lo → (pairUp bytes)[k]? = some (hi ++ lo) := by
  induction n generalizing bytes with
  | zero =>
    have e : bytes = [] := List.length_eq_zero_iff.1 (by omega)
    subst e
    exact ⟨rfl, rfl, by simp⟩
  | succ n ih =>
    match bytes, len with
    | [], len => simp at len
    | [_], len =>
      simp only [List.length_singleton] at len
      omega
    | a :: b :: rest, len =>
      have l : rest.length = 2 * n := by
        simp only [List.length_cons] at len
        omega
      obtain ⟨i, j, k⟩ := ih rest l
      refine ⟨by simp [pairUp, i], ?_, fun m lt hi lo eh el => ?_⟩
      · have hi : (joinBytes a b).extractLsb' 8 8 = a := hiByte_joinBytes a b
        have lo : (joinBytes a b).extractLsb' 0 8 = b := loByte_joinBytes a b
        simp [pairUp, j, wordEvents, hi, lo]
      · rcases m with _ | m
        · simp only [Nat.mul_zero, Nat.zero_add, List.getElem?_cons_zero, List.getElem?_cons_succ, Option.some.injEq] at eh el
          subst eh el
          rfl
        · rw [show 2 * (m + 1) = 2 * m + 1 + 1 by omega] at eh el
          simp only [List.getElem?_cons_succ] at eh el
          simpa [pairUp] using k m (by omega) hi lo eh el

/-- An even number of bytes as one group is that many halves of pixels. -/
theorem Panel.after_bytes (p : Params) {q : Panel} (h : q.Ready) {bytes : List Byte} {n : Nat} (len : bytes.length = 2 * n) :
    q.after p (bytesEvents p bytes) = q.takePixels p (pairUp bytes) := by
  unfold bytesEvents
  split
  · rename_i e
    subst e
    rfl
  · rw [Panel.after_bracketed, (pairUp_spec n bytes len).2.1, Panel.after_words _ h]

/-- If the observer is still defined, every pixel it took was in the panel. -/
theorem Panel.takePixels_inPanel {p : Params} (colors : List Word) {q : Panel} {wd ht n : Nat} (h : q.At wd n)
    (height : q.ys.toNat + ht = q.ye.toNat + 1) (room : n + colors.length ≤ wd * ht)
    (defined : (q.takePixels p colors).undef = false) :
    ∀ k < colors.length, inPanel p (q.xs.toNat + (n + k) % wd) (q.ys.toNat + (n + k) / wd) = true := by
  induction colors generalizing q n with
  | nil => simp
  | cons c rest ih =>
    intro k hk
    simp only [List.length_cons] at room hk
    have fr := Panel.takePixel_frame p q c
    have below : q.ys.toNat + n / wd ≤ q.ye.toNat := by
      have := index_lt_rows (wd := wd) (n := n) (r := ht) (by omega)
      omega
    have d : ((q.takePixel p c).takePixels p rest).undef = false := defined
    rcases k with _ | k
    · have z : (q.takePixel p c).undef = false := by
        by_contra u
        rw [Panel.takePixels_stays rest (by simpa using u)] at d
        cases d
      rw [Panel.takePixel_undef h c below] at z
      simp only [Bool.or_eq_false_iff, Bool.not_eq_false'] at z
      exact z.2
    · have r := ih (Panel.takePixel_at h c) (by rw [fr.2.2.1, fr.2.2.2.1]; exact height) (by omega) d k (by omega)
      rwa [fr.1, fr.2.2.1, show n + 1 + k = n + (k + 1) by omega] at r

/-- If the observer is still defined after a fill of a whole window, all of the window was in the panel. -/
theorem Panel.window_inPanel {p : Params} {q : Panel} {x1 y1 x2 y2 color : Word} {wd ht : Nat}
    (width : x1.toNat + wd = x2.toNat + 1) (pos : 0 < wd) (height : y1.toNat + ht = y2.toNat + 1)
    (defined : (q.after p (paintEvents p x1 y1 x2 y2 color (wd * ht))).undef = false) {col row : Nat}
    (inside : inWindow x1.toNat y1.toNat x2.toNat y2.toNat col row = true) : inPanel p col row = true := by
  rw [Panel.after_paint] at defined
  simp only [inWindow, Bool.and_eq_true, decide_eq_true_eq] at inside
  have lt : (row - y1.toNat) * wd + (col - x1.toNat) < wd * ht := by
    have := Nat.mul_le_mul_left wd (show row - y1.toNat + 1 ≤ ht by omega)
    have : wd * (row - y1.toNat + 1) = (row - y1.toNat) * wd + wd := by ring
    omega
  have i := Panel.takePixels_inPanel _ (q.windowed_at x1 y1 x2 y2 width pos) height (by simp) defined
    ((row - y1.toNat) * wd + (col - x1.toNat)) (by simpa using lt)
  have c : col - x1.toNat < wd := by omega
  rw [Nat.zero_add, Nat.add_comm (_ * wd), Nat.add_mul_mod_self_right, Nat.mod_eq_of_lt c, Nat.add_mul_div_right _ _ pos,
    Nat.div_eq_of_lt c] at i
  simpa [show x1.toNat + (col - x1.toNat) = col by omega, show y1.toNat + (row - y1.toNat) = row by omega] using i

/-- A fill of a whole window, where the observer is still defined after it: every cell has the colour. -/
theorem Panel.after_paint_defined {p : Params} {q : Panel} {x1 y1 x2 y2 color : Word} {wd ht : Nat}
    (width : x1.toNat + wd = x2.toNat + 1) (pos : 0 < wd) (height : y1.toNat + ht = y2.toNat + 1)
    (defined : (q.after p (paintEvents p x1 y1 x2 y2 color (wd * ht))).undef = false) {col row : Nat} (hc : col < 65536) :
    (q.after p (paintEvents p x1 y1 x2 y2 color (wd * ht))).pixel col row =
      if inWindow x1.toNat y1.toNat x2.toNat y2.toNat col row then some color else q.pixel col row := by
  rw [Panel.after_paint_pixel p q x1 y1 x2 y2 color width pos height hc]
  by_cases i : inWindow x1.toNat y1.toNat x2.toNat y2.toNat col row = true
  · rw [i, Panel.window_inPanel width pos height defined i]
    rfl
  · simp [i]

/-! ## Nowhere to go -/

/-- Events that are bytes of data, or chip select around them. -/
def dataOnly (es : List Event) : Prop := ∀ e ∈ es, (∃ b, e = .dat b) ∨ e = .csAssert ∨ e = .csRelease

theorem pixelsEvents_dataOnly (p : Params) (color : Word) (n : Nat) : dataOnly (pixelsEvents p color n) := by
  intro e he
  unfold pixelsEvents bracketed at he
  have dat : ∀ e ∈ (List.replicate n (wordEvents color)).flatten, ∃ b, e = .dat b := by
    intro e he
    obtain ⟨l, hl, hm⟩ := List.mem_flatten.1 he
    rw [List.eq_of_mem_replicate hl] at hm
    simp only [wordEvents, List.mem_cons, List.not_mem_nil, or_false] at hm
    rcases hm with r | r <;> exact ⟨_, r⟩
  split at he
  · simp at he
  · split at he
    · exact .inl (dat e he)
    · simp only [List.mem_append, List.mem_singleton] at he
      rcases he with (r | r) | r
      · exact .inr (.inl r)
      · exact .inl (dat e r)
      · exact .inr (.inr r)

/-- Data arms nothing and disarms nothing. -/
theorem Panel.after_dataOnly (p : Params) {es : List Event} (h : dataOnly es) (q : Panel) :
    (q.after p es).armed = q.armed ∧ (q.armed = false → (q.after p es).gram = q.gram) ∧
    (q.armed = true → (q.after p es).xs = q.xs ∧ (q.after p es).xe = q.xe ∧ (q.after p es).ys = q.ys ∧
      (q.after p es).ye = q.ye) := by
  induction es generalizing q with
  | nil => simp
  | cons e rest ih =>
    have step : (q.observe p e).armed = q.armed ∧ (q.armed = false → (q.observe p e).gram = q.gram) ∧
        (q.armed = true → (q.observe p e).xs = q.xs ∧ (q.observe p e).xe = q.xe ∧ (q.observe p e).ys = q.ys ∧
          (q.observe p e).ye = q.ye) := by
      rcases h e (.head _) with ⟨b, rfl⟩ | rfl | rfl
      · simp only [Panel.observe, Panel.takeDat]
        split
        · split
          · simp
          · have := Panel.takePixel_frame p { q with pairHi := none } (joinBytes (by assumption) b)
            simp_all
        · split
          · have := Panel.setWindowRegs_frame { q with args := q.args ++ [b] }
            simp_all
          · simp
      · simp [Panel.observe]
      · simp [Panel.observe]
    have r := ih (fun e he => h e (.tail _ he)) (q.observe p e)
    rw [step.1] at r
    rw [Panel.after_cons]
    refine ⟨r.1, fun a => (r.2.1 a).trans (step.2.1 a), fun a => ?_⟩
    have := r.2.2 a
    have := step.2.2 a
    simp_all

/-- One pixel or more with nowhere to go leaves the observer undefined: it already is, no memory write is in progress and no
command waits for data (R68), or the window is full (R67). -/
theorem Panel.after_pixels_spent (p : Params) {q : Panel} (color : Word) {n : Nat} (some_pixel : n ≠ 0)
    (h : q.undef = true ∨ (q.armed = false ∧ dataCount q.lastCmd ≤ q.args.length) ∨ (q.Ready ∧ q.py > zext q.ye)) :
    (q.after p (pixelsEvents p color n)).undef = true := by
  obtain ⟨m, rfl⟩ := Nat.exists_eq_succ_of_ne_zero some_pixel
  rcases h with u | ⟨a, b⟩ | ⟨r, d⟩
  · exact Panel.after_undef _ u
  · unfold pixelsEvents
    rw [if_neg some_pixel, Panel.after_bracketed, List.replicate_succ, List.flatten_cons]
    unfold wordEvents
    rw [List.cons_append, Panel.after_cons]
    apply Panel.after_undef
    simp only [Panel.observe, Panel.takeDat, a, Bool.false_eq_true, if_false]
    rw [if_neg (by omega)]
  · rw [Panel.after_pixels r, List.replicate_succ]
    refine Panel.takePixels_stays _ (q := q.takePixel p color) ?_
    rcases Panel.takePixel_cases p q color with k | k
    · exact k.2
    · have := k.1
      omega

/-- Pieces that keep a pixel keep it together. -/
theorem Panel.after_flatMap_pixel {α : Type} (p : Params) (f : α → List Event) (l : List α) (q : Panel) {col row : Nat}
    (h : ∀ a ∈ l, ∀ q : Panel, (q.after p (f a)).pixel col row = q.pixel col row) :
    (q.after p (l.flatMap f)).pixel col row = q.pixel col row := by
  induction l generalizing q with
  | nil => rfl
  | cons a rest ih => rw [List.flatMap_cons, Panel.after_append, ih _ (fun b hb => h b (.tail _ hb)), h a (.head _)]

end Sys2Proof.Machine
end

