-- ==== Sys2Proof/Laws/PerInstr.lean ====
section
/-! SUPPORT. Statements made per instruction: EncodedLength, that an instruction's encoding has exactly the words that R81
gives its operation code, or the bytes that R89 gives its wire command. -/

namespace Sys2Proof.Laws

/-- The encoding of i has the length that its own first word or byte fixes (R82; R89). -/
def EncodedLength.Statement (i : Instr) : Prop :=
  match encode i with
  | .descriptor ws => ∃ hd args, ws = hd :: args ∧ ws.length = wordCount hd
  | .wire bs => ∃ code data, bs = code :: data ∧ bs.length = wireLength code

/-- The word count of a header is its row's, whatever its SUB. -/
theorem wordCount_header (o : Op) (sub : Byte) : wordCount (headerWord o sub) = (opRow o).words := by
  unfold wordCount headerWord
  rw [hiByte_joinBytes, findOp_opc]

theorem encodedLength_header {o : Op} (sub : Byte) (args : List Word) (len : args.length + 1 = (opRow o).words) :
    ∃ hd rest, headerWord o sub :: args = hd :: rest ∧ (headerWord o sub :: args).length = wordCount hd :=
  ⟨_, _, rfl, by rw [wordCount_header, List.length_cons, len]⟩

theorem EncodedLength.init : EncodedLength.Statement .init := encodedLength_header _ _ rfl

theorem EncodedLength.setWindow (x1 y1 x2 y2 : Word) :
    EncodedLength.Statement (.setWindow x1 y1 x2 y2) := encodedLength_header _ _ rfl

theorem EncodedLength.fillColor (color : Word) (n : Long) :
    EncodedLength.Statement (.fillColor color n) := encodedLength_header _ _ rfl

theorem EncodedLength.drawPixel (x y color : Word) :
    EncodedLength.Statement (.drawPixel x y color) := encodedLength_header _ _ rfl

theorem EncodedLength.fillRect (x y w h color : Word) :
    EncodedLength.Statement (.fillRect x y w h color) := encodedLength_header _ _ rfl

theorem EncodedLength.fillRectFast (x y w h color : Word) :
    EncodedLength.Statement (.fillRectFast x y w h color) := encodedLength_header _ _ rfl

theorem EncodedLength.fillScreen (color : Word) :
    EncodedLength.Statement (.fillScreen color) := encodedLength_header _ _ rfl

theorem EncodedLength.drawRectangle (x y w h color : Word) :
    EncodedLength.Statement (.drawRectangle x y w h color) := encodedLength_header _ _ rfl

theorem EncodedLength.drawFastHLine (x0 y0 x1 : Word) (t : Byte) (color : Word) :
    EncodedLength.Statement (.drawFastHLine x0 y0 x1 t color) := encodedLength_header _ _ rfl

theorem EncodedLength.drawFastVLine (x0 y0 y1 : Word) (t : Byte) (color : Word) :
    EncodedLength.Statement (.drawFastVLine x0 y0 y1 t color) := encodedLength_header _ _ rfl

theorem EncodedLength.drawLine (x0 y0 x1 y1 : Word) (t : Byte) (color : Word) :
    EncodedLength.Statement (.drawLine x0 y0 x1 y1 t color) := encodedLength_header _ _ rfl

theorem EncodedLength.drawChar (x y fg bg : Word) (glyph : Handle) (hasBg : Bool) :
    EncodedLength.Statement (.drawChar x y fg bg glyph hasBg) := encodedLength_header _ _ rfl

theorem EncodedLength.drawStringMain (x y : Word) (str : Handle) (fg bg : Word) (font : Handle) (hasBg : Bool) :
    EncodedLength.Statement (.drawStringMain x y str fg bg font hasBg) := encodedLength_header _ _ rfl

theorem EncodedLength.drawBitmap (x y : Word) (bitmap : Handle) :
    EncodedLength.Statement (.drawBitmap x y bitmap) := encodedLength_header _ _ rfl

theorem EncodedLength.rotateDisplay (rotation : Byte) :
    EncodedLength.Statement (.rotateDisplay rotation) := encodedLength_header _ _ rfl

theorem EncodedLength.drawString (x y : Word) (str : Handle) (fg bg : Word) (font : Handle) :
    EncodedLength.Statement (.drawString x y str fg bg font) := encodedLength_header _ _ rfl

theorem EncodedLength.drawStringWithbg (x y : Word) (str : Handle) (fg bg : Word) (font : Handle) :
    EncodedLength.Statement (.drawStringWithbg x y str fg bg font) := encodedLength_header _ _ rfl

theorem EncodedLength.wireSoftwareReset : EncodedLength.Statement .wireSoftwareReset := ⟨_, _, rfl, rfl⟩

theorem EncodedLength.wireSleepOut : EncodedLength.Statement .wireSleepOut := ⟨_, _, rfl, rfl⟩

theorem EncodedLength.wireColorMode : EncodedLength.Statement .wireColorMode := ⟨_, _, rfl, rfl⟩

theorem EncodedLength.wireMemoryAccessControl (pat : Byte) : EncodedLength.Statement (.wireMemoryAccessControl pat) := ⟨_, _, rfl, rfl⟩

theorem EncodedLength.wireInversionOn : EncodedLength.Statement .wireInversionOn := ⟨_, _, rfl, rfl⟩

theorem EncodedLength.wireNormalDisplayOn : EncodedLength.Statement .wireNormalDisplayOn := ⟨_, _, rfl, rfl⟩

theorem EncodedLength.wireDisplayOn : EncodedLength.Statement .wireDisplayOn := ⟨_, _, rfl, rfl⟩

theorem EncodedLength.wireColumnAddressSet (x1 x2 : Word) : EncodedLength.Statement (.wireColumnAddressSet x1 x2) := ⟨_, _, rfl, rfl⟩

theorem EncodedLength.wireRowAddressSet (y1 y2 : Word) : EncodedLength.Statement (.wireRowAddressSet y1 y2) := ⟨_, _, rfl, rfl⟩

theorem EncodedLength.wireMemoryWrite : EncodedLength.Statement .wireMemoryWrite := ⟨_, _, rfl, rfl⟩

end Sys2Proof.Laws
end

