-- ==== Sys2Proof/Laws/Strings.lean ====
section
/-! SUPPORT. The string walk follows the layout as a function of the bytes and the pen, to its end or to the fault that ends
it (spec/44_glyph_string.md R148). -/

namespace Sys2Proof.Machine

/-- The layout cursor between two bytes of a string; a space height found before is the one sp gives. -/
structure State.PenAt (s : State) (xStart : Word) (sp : Except FaultCode Word) (cx cy : Word) : Prop where
  cx : s.work.string.cx = cx
  cy : s.work.string.cy = cy
  xStart : s.work.string.xStart = xStart
  spH : s.work.string.spH = none ∨ ∃ unit, sp = .ok unit ∧ s.work.string.spH = some unit

/-- How a piece of the walk ends: on with a value, or with the fault. -/
def Flow.ofExcept {α : Type} (r : Except FaultCode α) (t : State) : Flow α :=
  match r with
  | .ok v => .ok v t
  | .error e => .raised e t

/-- How the walk of a plan ends. -/
def StringPlan.flow (plan : StringPlan) (t : State) : Flow Unit :=
  match plan.fault with
  | none => .ok () t
  | some e => .raised e t

theorem Draws.glyphOrFault {s t : State} {es : List Event} (h : Draws s es t) : t.glyphOrFault = s.glyphOrFault := by
  funext gh
  unfold State.glyphOrFault State.resolve
  rw [h.assets]

theorem Draws.lookGlyph {s t : State} {es : List Event} (h : Draws s es t) (f : Font) : t.lookGlyph f = s.lookGlyph f := by
  funext c
  unfold State.lookGlyph
  rw [h.glyphOrFault]

theorem Draws.spaceUnit {s t : State} {es : List Event} (h : Draws s es t) (f : Font) : t.spaceUnit f = s.spaceUnit f := by
  unfold State.spaceUnit
  rw [h.lookGlyph]

/-- Asset(h) where a GLYPH is expected, as the statements name it. -/
theorem glyphAsset_spec (s : State) (gh : Handle) : s.glyphAsset gh = Flow.ofExcept (s.glyphOrFault gh) s := by
  unfold State.glyphAsset State.glyphOrFault
  rcases s.resolve gh with _ | (_ | _ | _ | _) <;> rfl

/-- DrawChar of a glyph draws it whole, or raises the fault of its checks before any event. -/
theorem drawGlyph_spec (g : Glyph) (a : CharArgs) (s : State) :
    ∃ t, GlyphDraws s (if glyphFault s.params g = none then glyphEvents s.params g a else []) t ∧
      s.drawGlyph g a = (match glyphFault s.params g with | none => .ok () t | some e => .raised e t) := by
  have z : g.bpr = 0 ↔ g.bpr.toNat = 0 := by
    constructor
    · intro e
      rw [e]
      rfl
    · intro e
      exact BitVec.eq_of_toNat_eq (by simpa using e)
  by_cases ok : glyphOk s.params g
  · obtain ⟨t, e, d⟩ := drawGlyph_draws a s ok
    have n : glyphFault s.params g = none := by
      unfold glyphFault
      rw [if_neg (by have := ok.1; have := ok.2.1; omega), if_neg (by have := ok.2.2; omega)]
    rw [n]
    exact ⟨t, d, e⟩
  · have e := drawGlyph_faults a s ok
    have n : glyphFault s.params g = some (if g.bpr = 0 ∨ g.bpr.toNat > 8 then .glyphFormat else .assetRange) := by
      unfold glyphFault
      unfold glyphOk at ok
      by_cases bad : g.bpr.toNat < 1 ∨ 8 < g.bpr.toNat
      · rw [if_pos bad, if_pos (by rw [z]; omega)]
      · rw [if_neg bad, if_pos (by omega), if_neg (by rw [z]; omega)]
    rw [n]
    exact ⟨s, GlyphDraws.refl s, e⟩

/-- SpaceH answers the height of the space glyph and keeps it, or raises the fault of asking for it (R146). -/
theorem spaceH_draws {s : State} {f : Font} {xStart cx cy : Word} (pen : s.PenAt xStart (s.spaceUnit f) cx cy) :
    ∃ t, s.spaceH f = Flow.ofExcept (s.spaceUnit f) t ∧ Draws s [] t ∧ t.PenAt xStart (s.spaceUnit f) cx cy := by
  rcases pen.spH with e | ⟨unit, ok, e⟩
  · unfold State.spaceH
    rw [e]
    unfold State.spaceUnit State.lookGlyph
    cases l : fontLookup f.entries 0x20 with
    | none => exact ⟨s, rfl, Draws.refl s, pen.cx, pen.cy, pen.xStart, .inl e⟩
    | some gh =>
      simp only [glyphAsset_spec, Option.map_some]
      cases r : s.glyphOrFault gh with
      | error c => exact ⟨s, rfl, Draws.refl s, pen.cx, pen.cy, pen.xStart, .inl e⟩
      | ok g => exact ⟨_, rfl, (Draws.refl s).withWork _, pen.cx, pen.cy, pen.xStart, .inr ⟨g.h, rfl, rfl⟩⟩
  · unfold State.spaceH
    rw [e, ok]
    exact ⟨s, rfl, Draws.refl s, pen.cx, pen.cy, pen.xStart, .inr ⟨unit, rfl, e⟩⟩

/-- How far a wrap moves down, or the fault of asking (R148). -/
def State.lineUnit (s : State) (f : Font) (g : Glyph) : Except FaultCode Word :=
  if s.params.wrapAdvance = .spaceH then s.spaceUnit f else .ok g.h

theorem lineAdv_draws {s : State} {f : Font} {xStart cx cy : Word} (g : Glyph)
    (pen : s.PenAt xStart (s.spaceUnit f) cx cy) :
    ∃ t, s.lineAdv f g = Flow.ofExcept (s.lineUnit f g) t ∧ Draws s [] t ∧ t.PenAt xStart (s.spaceUnit f) cx cy := by
  unfold State.lineAdv State.lineUnit
  cases s.params.wrapAdvance with
  | spaceH => simpa using spaceH_draws pen
  | glyphH => exact ⟨s, rfl, Draws.refl s, pen⟩

/-- The right-edge test and the pen after it, or the fault of the wrap. -/
theorem wrapRight_draws {s : State} {f : Font} {xStart cx cy : Word} (g : Glyph)
    (pen : s.PenAt xStart (s.spaceUnit f) cx cy) :
    ∃ t, Draws s [] t ∧
      match (if cx.toNat + g.w.toNat > s.w.toNat then s.lineUnit f g else .ok 0) with
      | .error e => s.wrapRight f g = .raised e t
      | .ok adv => s.wrapRight f g = .ok () t ∧
          t.PenAt xStart (s.spaceUnit f) (if cx.toNat + g.w.toNat > s.w.toNat then xStart else cx) (cy + adv) := by
  unfold State.wrapRight
  rw [pen.cx]
  by_cases wraps : cx.toNat + g.w.toNat > s.w.toNat
  · simp only [if_pos wraps]
    obtain ⟨t, e, d, p⟩ := lineAdv_draws (s := s.setCx s.work.string.xStart) (cx := xStart) (f := f) g
      ⟨pen.xStart, pen.cy, pen.xStart, pen.spH⟩
    have d' : Draws s [] t := ((Draws.refl s).withWork _).trans d
    have lu : (s.setCx s.work.string.xStart).lineUnit f g = s.lineUnit f g := rfl
    rw [lu] at e
    rw [e]
    cases s.lineUnit f g with
    | error c => exact ⟨t, d', rfl⟩
    | ok adv => exact ⟨_, d'.withWork _, rfl, p.cx, by simp [p.cy], p.xStart, p.spH⟩
  · simp only [if_neg wraps]
    exact ⟨s, Draws.refl s, rfl, by rwa [show cy + 0 = cy by simp]⟩

/-- A character drawn at the pen and the pen moved past it, or the fault of its checks. -/
theorem penGlyph_draws {s : State} {g : Glyph} {gh : Handle} {xStart cx cy : Word} {sp : Except FaultCode Word}
    (st : TextStyle) (pen : s.PenAt xStart sp cx cy) (asset : s.glyphAsset gh = .ok g s) :
    ∃ t, match glyphFault s.params g with
      | some e => Draws s [] t ∧ s.penGlyph g gh st = .raised e t
      | none => Draws s (glyphEvents s.params g ⟨zext cx, zext cy, st.fg, st.bg, st.hasBg⟩) t ∧
          s.penGlyph g gh st = .ok true t ∧ t.PenAt xStart sp (cx + g.w) cy := by
  obtain ⟨u, d, e⟩ := drawGlyph_spec g ⟨zext cx, zext cy, st.fg, st.bg, st.hasBg⟩ s
  unfold State.penGlyph State.drawChar
  rw [pen.cx, pen.cy, asset, Flow.bind_ok, e]
  cases b : glyphFault s.params g with
  | some c =>
    rw [b] at d
    exact ⟨u, d.draws, rfl⟩
  | none =>
    rw [b] at d
    have c := d.string
    exact ⟨u.setCx (u.work.string.cx + g.w), d.draws.withWork _, rfl, by simp only [State.setCx, c, pen.cx],
      by simp only [State.setCx, c, pen.cy], by simp only [State.setCx, c, pen.xStart],
      by simpa only [State.setCx, c] using pen.spH⟩

/-- A printable character: what of the plan it draws, and how it goes on. -/
theorem placeGlyph_draws {s : State} {f : Font} {g : Glyph} {gh : Handle} {xStart cx cy : Word} (st : TextStyle)
    (pen : s.PenAt xStart (s.spaceUnit f) cx cy) (asset : s.glyphAsset gh = .ok g s) :
    ∃ t,
      if s.params.layoutOrder = .bottomFirst ∧ cy.toNat + g.h.toNat > s.h.toNat then
        Draws s [] t ∧ s.placeGlyph f g gh st = .ok false t
      else
        match (if cx.toNat + g.w.toNat > s.w.toNat then s.lineUnit f g else .ok 0) with
        | .error e => Draws s [] t ∧ s.placeGlyph f g gh st = .raised e t
        | .ok adv =>
          if s.params.layoutOrder = .wrapFirst ∧ (cy + adv).toNat + g.h.toNat > s.h.toNat then
            Draws s [] t ∧ s.placeGlyph f g gh st = .ok false t
          else
            match glyphFault s.params g with
            | some e => Draws s [] t ∧ s.placeGlyph f g gh st = .raised e t
            | none =>
              Draws s (glyphEvents s.params g
                ⟨zext (if cx.toNat + g.w.toNat > s.w.toNat then xStart else cx), zext (cy + adv), st.fg, st.bg, st.hasBg⟩) t ∧
              s.placeGlyph f g gh st = .ok true t ∧
              t.PenAt xStart (s.spaceUnit f)
                ((if cx.toNat + g.w.toNat > s.w.toNat then xStart else cx) + g.w) (cy + adv) := by
  unfold State.placeGlyph
  obtain ⟨u, du, ku⟩ := wrapRight_draws g pen
  have asset' : u.glyphAsset gh = .ok g u := by
    rw [glyphAsset_spec] at asset ⊢
    rw [du.glyphOrFault]
    cases r : s.glyphOrFault gh <;> rw [r] at asset <;> simp_all [Flow.ofExcept]
  have drawn : ∀ {x y : Word}, u.PenAt xStart (s.spaceUnit f) x y → ∃ t, match glyphFault s.params g with
      | some e => Draws s [] t ∧ u.penGlyph g gh st = .raised e t
      | none => Draws s (glyphEvents s.params g ⟨zext x, zext y, st.fg, st.bg, st.hasBg⟩) t ∧
          u.penGlyph g gh st = .ok true t ∧ t.PenAt xStart (s.spaceUnit f) (x + g.w) y := by
    intro x y p
    obtain ⟨t, k⟩ := penGlyph_draws st p asset'
    rw [du.params] at k
    refine ⟨t, ?_⟩
    cases b : glyphFault s.params g with
    | some e => rw [b] at k; exact ⟨du.trans k.1, k.2⟩
    | none => rw [b] at k; exact ⟨du.trans k.1, k.2⟩
  cases ord : s.params.layoutOrder with
  | bottomFirst =>
    simp only [State.pastBottom, pen.cy, true_and, reduceCtorEq, false_and, if_false, decide_eq_true_eq]
    by_cases past : cy.toNat + g.h.toNat > s.h.toNat
    · simp only [if_pos past]
      exact ⟨s, Draws.refl s, rfl⟩
    · simp only [if_neg past]
      cases r : (if cx.toNat + g.w.toNat > s.w.toNat then s.lineUnit f g else .ok 0) with
      | error e =>
        rw [r] at ku
        exact ⟨u, du, by rw [ku]; rfl⟩
      | ok adv =>
        rw [r] at ku
        simp only [ku.1, Flow.bind_ok]
        exact drawn ku.2
  | wrapFirst =>
    simp only [reduceCtorEq, false_and, if_false, true_and]
    cases r : (if cx.toNat + g.w.toNat > s.w.toNat then s.lineUnit f g else .ok 0) with
    | error e =>
      rw [r] at ku
      exact ⟨u, du, by rw [ku]; rfl⟩
    | ok adv =>
      rw [r] at ku
      simp only [ku.1, Flow.bind_ok, State.pastBottom, ku.2.cy, du.h, decide_eq_true_eq]
      by_cases past : (cy + adv).toNat + g.h.toNat > s.h.toNat
      · simp only [if_pos past]
        exact ⟨u, du, rfl⟩
      · simp only [if_neg past]
        exact drawn ku.2

/-- The walk over the bytes draws the glyphs of the plan, and ends as the plan does. -/
theorem walkString_draws {f : Font} (st : TextStyle) (bytes : List Byte) {s : State} {xStart cx cy : Word}
    (pen : s.PenAt xStart (s.spaceUnit f) cx cy) :
    ∃ t, State.walkString f st bytes s =
        (planString s.params s.w s.h xStart (s.spaceUnit f) (s.lookGlyph f) bytes cx cy).flow t ∧
      Draws s (planEvents s.params st.fg st.bg st.hasBg
        (planString s.params s.w s.h xStart (s.spaceUnit f) (s.lookGlyph f) bytes cx cy).drawn) t := by
  induction bytes generalizing s cx cy with
  | nil => exact ⟨s, rfl, Draws.refl s⟩
  | cons c rest ih =>
    unfold State.walkString
    set s1 : State := { s with work := { s.work with string := { s.work.string with si := s.work.string.si + 1 } } } with hs1
    have d1 : Draws s [] s1 := (Draws.refl s).withWork _
    have pen1 : s1.PenAt xStart (s1.spaceUnit f) cx cy := ⟨pen.cx, pen.cy, pen.xStart, pen.spH⟩
    have su : s1.spaceUnit f = s.spaceUnit f := rfl
    have more : ∀ {u : State} {es : List Event} {x y : Word}, Draws s es u → u.PenAt xStart (s.spaceUnit f) x y →
        ∃ t, State.walkString f st rest u =
            (planString s.params s.w s.h xStart (s.spaceUnit f) (s.lookGlyph f) rest x y).flow t ∧
          Draws s (es ++ planEvents s.params st.fg st.bg st.hasBg
            (planString s.params s.w s.h xStart (s.spaceUnit f) (s.lookGlyph f) rest x y).drawn) t := by
      intro u es x y d p
      obtain ⟨t, e, k⟩ := ih (s := u) (cx := x) (cy := y) (by rw [d.spaceUnit]; exact p)
      rw [d.params, d.w, d.h, d.lookGlyph, d.spaceUnit] at e k
      exact ⟨t, e, d.trans k⟩
    unfold State.stringByte planString
    split
    · exact ⟨s1, rfl, d1⟩
    · split
      · obtain ⟨u, e, d, p⟩ := spaceH_draws (s := s1.setCx s1.work.string.xStart) (f := f) (xStart := xStart) (cx := xStart)
          (cy := cy) ⟨pen1.xStart, pen1.cy, pen1.xStart, pen1.spH⟩
        have su2 : (s1.setCx s1.work.string.xStart).spaceUnit f = s.spaceUnit f := rfl
        have d2 : Draws s [] u := (d1.withWork (s1.setCx s1.work.string.xStart).work).trans d
        rw [su2] at e p
        simp only [e]
        cases q : s.spaceUnit f with
        | error x => exact ⟨u, rfl, d2⟩
        | ok unit =>
          have m := more (y := cy + unit) (d2.withWork (u.setCy (u.work.string.cy + unit)).work)
            ⟨p.cx, congrArg (· + unit) p.cy, p.xStart, p.spH⟩
          rwa [q] at m
      · split
        · obtain ⟨u, e, d, p⟩ := spaceH_draws pen1
          have d2 : Draws s [] u := d1.trans d
          rw [su] at e p
          simp only [e]
          cases q : s.spaceUnit f with
          | error x => exact ⟨u, rfl, d2⟩
          | ok unit =>
            have m := more (x := cx + 4 * unit) (d2.withWork (u.setCx (u.work.string.cx + 4 * unit)).work)
              ⟨congrArg (· + 4 * unit) p.cx, p.cy, p.xStart, p.spH⟩
            rwa [q] at m
        · have lg : s.lookGlyph f c.toNat = (fontLookup f.entries c.toNat).map s.glyphOrFault := rfl
          rw [lg]
          cases l : fontLookup f.entries c.toNat with
          | none => exact more d1 pen1
          | some gh =>
            simp only [glyphAsset_spec, Option.map_some]
            have gf : s1.glyphOrFault gh = s.glyphOrFault gh := rfl
            rw [gf]
            cases r : s.glyphOrFault gh with
            | error x => exact ⟨s1, rfl, d1⟩
            | ok g =>
              obtain ⟨u, k⟩ := placeGlyph_draws (gh := gh) (g := g) st pen1 (by rw [glyphAsset_spec, gf, r]; rfl)
              have lu : s1.lineUnit f g = if s.params.wrapAdvance = .spaceH then s.spaceUnit f else .ok g.h := rfl
              have p1 : s1.params = s.params := rfl
              have w1 : s1.w = s.w := rfl
              have h1 : s1.h = s.h := rfl
              rw [lu, p1, w1, h1, su] at k
              simp only [Flow.ofExcept, Flow.bind_ok]
              by_cases a : s.params.layoutOrder = .bottomFirst ∧ cy.toNat + g.h.toNat > s.h.toNat
              · rw [if_pos a] at k ⊢
                exact ⟨u, by rw [k.2]; rfl, d1.trans k.1⟩
              · rw [if_neg a] at k ⊢
                cases b : (if cx.toNat + g.w.toNat > s.w.toNat then
                    (if s.params.wrapAdvance = .spaceH then s.spaceUnit f else .ok g.h) else .ok 0) with
                | error x =>
                  rw [b] at k
                  exact ⟨u, by rw [k.2]; rfl, d1.trans k.1⟩
                | ok adv =>
                  rw [b] at k
                  dsimp only at k ⊢
                  by_cases a2 : s.params.layoutOrder = .wrapFirst ∧ (cy + adv).toNat + g.h.toNat > s.h.toNat
                  · rw [if_pos a2] at k ⊢
                    exact ⟨u, by rw [k.2]; rfl, d1.trans k.1⟩
                  · rw [if_neg a2] at k ⊢
                    cases b2 : glyphFault s.params g with
                    | some x =>
                      rw [b2] at k
                      exact ⟨u, by rw [k.2]; rfl, d1.trans k.1⟩
                    | none =>
                      rw [b2] at k
                      rw [k.2.1]
                      exact more (d1.trans k.1) k.2.2

/-- All that DRAW_STRING_MAIN can do once its string and its font have resolved: draw its plan, and end as the plan does. -/
theorem drawString_draws {s : State} {str font : Handle} {bytes : List Byte} {f : Font} (x y : Word) (st : TextStyle)
    (isString : s.resolve str = some (.string bytes)) (isFont : s.resolve font = some (.font f)) :
    ∃ t, s.drawString x y str font st = (s.stringPlan f bytes x y).flow t ∧
      Draws s (planEvents s.params st.fg st.bg st.hasBg (s.stringPlan f bytes x y).drawn) t := by
  obtain ⟨t, e, d⟩ := walkString_draws (f := f) (xStart := x) (cx := x) (cy := y) st bytes
    (s := { s with work := { s.work with string := { cx := x, cy := y, xStart := x, si := 0, spH := none } } })
    ⟨rfl, rfl, rfl, .inl rfl⟩
  refine ⟨t, ?_, ((Draws.refl s).withWork _).trans d⟩
  unfold State.drawString State.stringAsset State.fontAsset
  simp only [isString, isFont, Flow.bind_ok]
  exact e

/-- All that DRAW_STRING_MAIN can do before: BAD_ASSET, with no event, where its string or its font is none (R148). -/
theorem drawString_badAsset {s : State} {str font : Handle} (x y : Word) (st : TextStyle)
    (bad : (∀ bytes, s.resolve str ≠ some (.string bytes)) ∨ ∀ f, s.resolve font ≠ some (.font f)) :
    s.drawString x y str font st = .raised .badAsset s := by
  unfold State.drawString State.stringAsset
  rcases a : s.resolve str with _ | (_ | _ | _ | bytes) <;> try rfl
  simp only [Flow.bind_ok]
  unfold State.fontAsset
  rcases b : s.resolve font with _ | (_ | f | _ | _) <;> try rfl
  rcases bad with k | k
  · exact absurd a (k bytes)
  · exact absurd b (k f)

end Sys2Proof.Machine
end

