-- ==== Sys2Proof/Laws/Raises.lean ====
section
/-! SUPPORT. Which fault an operation raises and what it has emitted by then (spec/60_exceptions.md R178, R180, R181). -/

namespace Sys2Proof.Machine

/-- The end of an operation without a fault. -/
structure Finishes (s t : State) : Prop where
  seq : t.seq = .idle
  busy : t.status.busy = false
  fault : t.status.fault = s.status.fault
  faultCode : t.faultCode = s.faultCode

theorem Paints.finishes {s u : State} (h : Paints s u) : Finishes s u.complete := by
  obtain ⟨es, -, d⟩ := h
  rw [d]
  exact ⟨rfl, rfl, rfl, rfl⟩

theorem Draws.finishes {s u : State} {es : List Event} (h : Draws s es u) : Finishes s u.complete := by
  rw [h]
  exact ⟨rfl, rfl, rfl, rfl⟩

/-- t is how an operation ends that raises what r says: the fault, after exactly the events before it, or none. -/
def EndsAs (s t : State) (r : Option (FaultCode × List Event)) : Prop :=
  match r with
  | some (c, es) => ∃ u, Draws s es u ∧ t = u.raiseFault c
  | none => Finishes s t

theorem drawChar_endsAs (s : State) (glyph : Handle) (a : CharArgs) :
    EndsAs s (s.drawChar glyph a).finish (s.charRaises glyph) := by
  unfold State.drawChar State.charRaises
  rw [glyphAsset_spec]
  cases s.glyphOrFault glyph with
  | error e => exact ⟨s, Draws.refl s, rfl⟩
  | ok g =>
    obtain ⟨t, d, e⟩ := drawGlyph_spec g a s
    simp only [Flow.ofExcept, Flow.bind_ok, e]
    cases b : glyphFault s.params g with
    | some c =>
      rw [b] at d
      exact ⟨t, d.draws, rfl⟩
    | none =>
      rw [b] at d
      exact d.draws.finishes

theorem drawString_endsAs (s : State) (x y : Word) (str font : Handle) (st : TextStyle) :
    EndsAs s (s.drawString x y str font st).finish (s.stringRaises x y str st.fg st.bg font st.hasBg) := by
  unfold State.stringRaises
  split
  · rename_i bytes f a b
    obtain ⟨t, e, d⟩ := drawString_draws x y st a b
    rw [e]
    unfold StringPlan.flow
    cases (s.stringPlan f bytes x y).fault with
    | some c => exact ⟨t, d, rfl⟩
    | none => exact d.finishes
  · rename_i none_of
    rw [drawString_badAsset]
    · exact ⟨s, Draws.refl s, rfl⟩
    · by_contra n
      rw [not_or] at n
      simp only [not_forall, not_not] at n
      obtain ⟨⟨bytes, a⟩, f, b⟩ := n
      exact none_of bytes f a b

theorem drawBitmap_endsAs (s : State) (bitmap : Handle) (x y : Int) :
    EndsAs s ((s.bitmapAsset bitmap).bind fun b s => s.blit b x y).finish (s.bitmapRaises bitmap) := by
  unfold State.bitmapRaises State.bitmapAsset
  rcases s.resolve bitmap with _ | (_ | _ | b | _)
  · exact ⟨s, Draws.refl s, rfl⟩
  · exact ⟨s, Draws.refl s, rfl⟩
  · exact ⟨s, Draws.refl s, rfl⟩
  · have k := blit_paints (Paints.refl s) b x y
    simp only [Flow.bind_ok]
    unfold State.blit bitmapBytes at k ⊢
    split
    · exact ⟨s, Draws.refl s, rfl⟩
    · rename_i enough
      rw [if_neg enough] at k
      exact Paints.finishes k
  · exact ⟨s, Draws.refl s, rfl⟩

/-- Every operation ends with the fault the rules give it, or with none. -/
theorem exec_endsAs (i : Instr) (s : State) : ∃ t, exec i s = .next t ∧ EndsAs s t (s.operationRaises i) := by
  cases i with
  | init =>
    refine ⟨(s.emitAll (initEvents s.params)).afterInit.complete, ?_, ?_⟩
    · rw [← initSequence_emits]
      rfl
    · show Finishes s (s.emitAll (initEvents s.params)).afterInit.complete
      constructor <;> simp
  | rotateDisplay r =>
    refine ⟨_, rfl, ?_⟩
    obtain ⟨es, -, d⟩ := wireCommand_paints s 0x36 [madctl s.params (rotMode r)]
    show Finishes s (((s.wireCommand 0x36 [madctl s.params (rotMode r)]).setOrient (rotMode r)).complete)
    rw [d]
    exact ⟨rfl, rfl, rfl, rfl⟩
  | setWindow => exact ⟨_, rfl, (setWindow_paints _ _ _ _ _).finishes⟩
  | fillColor => exact ⟨_, rfl, (fillColor_paints _ _ _).finishes⟩
  | drawPixel => exact ⟨_, rfl, (fillWindow_paints _ _ _ _ _ _ _).finishes⟩
  | fillRect => exact ⟨_, rfl, (clipped_paints _ _ _ _ _ _ fun _ _ _ => fillWindow_paints _ _ _ _ _ _ _).finishes⟩
  | fillRectFast => exact ⟨_, rfl, (fillWindow_paints _ _ _ _ _ _ _).finishes⟩
  | fillScreen => exact ⟨_, rfl, (clipped_paints _ _ _ _ _ _ fun _ _ _ => fillWindow_paints _ _ _ _ _ _ _).finishes⟩
  | drawRectangle => exact ⟨_, rfl, (clipped_paints _ _ _ _ _ _ fun _ _ _ => outline_paints _ _ _ _ _ _).finishes⟩
  | drawFastHLine => exact ⟨_, rfl, (fillWindow_paints _ _ _ _ _ _ _).finishes⟩
  | drawFastVLine => exact ⟨_, rfl, (fillWindow_paints _ _ _ _ _ _ _).finishes⟩
  | drawLine => exact ⟨_, rfl, (drawLine_paints _ _ _ _ _ _ _).finishes⟩
  | drawChar => exact ⟨_, rfl, drawChar_endsAs _ _ _⟩
  | drawStringMain x y str fg bg font hasBg => exact ⟨_, rfl, drawString_endsAs s x y str font ⟨fg, bg, hasBg⟩⟩
  | drawString x y str fg bg font => exact ⟨_, rfl, drawString_endsAs s x y str font ⟨fg, bg, false⟩⟩
  | drawStringWithbg x y str fg bg font => exact ⟨_, rfl, drawString_endsAs s x y str font ⟨fg, bg, true⟩⟩
  | drawBitmap => exact ⟨_, rfl, drawBitmap_endsAs _ _ _ _⟩
  | wireSoftwareReset => exact ⟨_, rfl, (wireCommand_paints _ _ _).finishes⟩
  | wireSleepOut => exact ⟨_, rfl, (wireCommand_paints _ _ _).finishes⟩
  | wireColorMode => exact ⟨_, rfl, (wireCommand_paints _ _ _).finishes⟩
  | wireMemoryAccessControl => exact ⟨_, rfl, (wireCommand_paints _ _ _).finishes⟩
  | wireInversionOn => exact ⟨_, rfl, (wireCommand_paints _ _ _).finishes⟩
  | wireNormalDisplayOn => exact ⟨_, rfl, (wireCommand_paints _ _ _).finishes⟩
  | wireDisplayOn => exact ⟨_, rfl, (wireCommand_paints _ _ _).finishes⟩
  | wireColumnAddressSet => exact ⟨_, rfl, (wireCommand_paints _ _ _).finishes⟩
  | wireRowAddressSet => exact ⟨_, rfl, (wireCommand_paints _ _ _).finishes⟩
  | wireMemoryWrite => exact ⟨_, rfl, (wireCommand_paints _ _ _).finishes⟩

/-- And so does what was accepted, an illegal descriptor among them. -/
theorem runLatched_endsAs (s : State) : ∃ t, s.runLatched = .next t ∧ EndsAs s t (s.raises s.work.latch) := by
  unfold State.runLatched State.raises
  cases decode s.work.latch with
  | ok i => exact exec_endsAs i s
  | error e => exact ⟨_, rfl, s, Draws.refl s, rfl⟩

end Sys2Proof.Machine
end

