-- ==== Sys2Proof/Laws/Stream.lean ====
section
/-! SUPPORT. Where a stream of pixels has nowhere to go any more: after windows that were filled, or that were malformed
(spec/20_memory.md R66 to R68). -/

namespace Sys2Proof.Machine

/-- The observer takes no further pixel: it is undefined, or no memory write is in progress and no command waits for data,
or the window is full. `Panel.after_pixels_spent` says what one more pixel does. -/
def Panel.Spent (q : Panel) : Prop :=
  q.undef = true ∨ (q.armed = false ∧ dataCount q.lastCmd ≤ q.args.length) ∨ (q.Ready ∧ q.py > zext q.ye)

/-- The bytes among the events. -/
def wireBytes (es : List Event) : List Event := es.filter fun e => e.isCmd || e.isDat

theorem wireBytes_append (es fs : List Event) : wireBytes (es ++ fs) = wireBytes es ++ wireBytes fs := List.filter_append ..

/-- Chip select brings no byte. -/
theorem wireBytes_bracketed (p : Params) (es : List Event) : wireBytes (bracketed p es) = wireBytes es := by
  unfold bracketed
  cases p.csMode with
  | none => rfl
  | perGroup => simp [wireBytes, Event.isCmd, Event.isDat]

theorem not_endsInData_nil : ¬ endsInData [] := by
  rintro ⟨b, h⟩
  simp at h

/-- A window ends in the memory-write command. -/
theorem not_endsInData_window (es : List Event) (p : Params) (x1 y1 x2 y2 : Word) :
    ¬ endsInData (es ++ windowEvents p x1 y1 x2 y2) := by
  rintro ⟨b, h⟩
  have last : (wireBytes (windowEvents p x1 y1 x2 y2)).getLast? = some (.cmd 0x2C) := by
    unfold windowEvents
    rw [wireBytes_append, wireBytes_bracketed, List.getLast?_append]
    rfl
  change (wireBytes _).getLast? = _ at h
  rw [wireBytes_append, List.getLast?_append, last] at h
  simp at h

/-- As many pixels as a window has left fill it. -/
theorem Panel.takePixels_full {p : Params} (colors : List Word) {q : Panel} {wd ht n : Nat} (h : q.At wd n)
    (height : q.ys.toNat + ht = q.ye.toNat + 1) (all : n + colors.length = wd * ht) : (q.takePixels p colors).Spent := by
  induction colors generalizing q n with
  | nil =>
    refine .inr (.inr ⟨h.ready, ?_⟩)
    show q.py > zext q.ye
    simp only [List.length_nil, Nat.add_zero] at all
    rw [h.py, all, Nat.mul_div_cancel_left _ h.pos]
    unfold zext
    omega
  | cons c rest ih =>
    have fr := Panel.takePixel_frame p q c
    simp only [List.length_cons] at all
    exact ih (q := q.takePixel p c) (Panel.takePixel_at h c) (by rw [fr.2.2.1, fr.2.2.2.1]; exact height) (by omega)

/-- n pixels leave nothing of the window: none are sent, it is malformed, or it is full. -/
def fills (x1 y1 x2 y2 : Word) (n : Nat) : Prop :=
  n = 0 ∨ x1.toNat > x2.toNat ∨ y1.toNat > y2.toNat ∨ n = (x2.toNat + 1 - x1.toNat) * (y2.toNat + 1 - y1.toNat)

theorem Panel.after_paint_spent (p : Params) (q : Panel) {x1 y1 x2 y2 : Word} (color : Word) {n : Nat} (sent : n ≠ 0)
    (f : fills x1 y1 x2 y2 n) : (q.after p (paintEvents p x1 y1 x2 y2 color n)).Spent := by
  rw [Panel.after_paint]
  by_cases bad : x1.toNat > x2.toNat ∨ y1.toNat > y2.toNat
  · exact .inl (Panel.takePixels_stays _ (Panel.windowed_malformed q bad))
  · rcases f with f | f | f | f
    · exact absurd f sent
    · exact absurd (.inl f) bad
    · exact absurd (.inr f) bad
    · exact Panel.takePixels_full _
        (q.windowed_at x1 y1 x2 y2 (wd := x2.toNat + 1 - x1.toNat) (by omega) (by omega)) (ht := y2.toNat + 1 - y1.toNat)
        (by simp only [Panel.windowed_ys, Panel.windowed_ye]; omega) (by simpa using f)

/-- Events that are windows, each with pixels that leave nothing of it. -/
inductive Filled (p : Params) : List Event → Prop
  | nil : Filled p []
  | snoc {es : List Event} (h : Filled p es) (x1 y1 x2 y2 color : Word) (n : Nat) (f : fills x1 y1 x2 y2 n) :
      Filled p (es ++ paintEvents p x1 y1 x2 y2 color n)

theorem Filled.one {p : Params} (x1 y1 x2 y2 color : Word) (n : Nat) (f : fills x1 y1 x2 y2 n) :
    Filled p (paintEvents p x1 y1 x2 y2 color n) := by
  simpa using Filled.snoc .nil x1 y1 x2 y2 color n f

theorem Filled.append {p : Params} {es fs : List Event} (h : Filled p es) (k : Filled p fs) : Filled p (es ++ fs) := by
  induction k with
  | nil => simpa using h
  | snoc _ x1 y1 x2 y2 color n f ih =>
    rw [← List.append_assoc]
    exact .snoc ih x1 y1 x2 y2 color n f

theorem Filled.flatMap {α : Type} {p : Params} (l : List α) (f : α → List Event) (h : ∀ a ∈ l, Filled p (f a)) :
    Filled p (l.flatMap f) := by
  induction l with
  | nil => exact .nil
  | cons a rest ih =>
    rw [List.flatMap_cons]
    exact (h a (.head _)).append (ih fun b hb => h b (.tail _ hb))

/-- Once the last window's pixels are in, the observer takes no further pixel. -/
theorem Filled.spent {p : Params} {es : List Event} (h : Filled p es) (e : endsInData es) (q : Panel) :
    (q.after p es).Spent := by
  cases h with
  | nil => exact absurd e not_endsInData_nil
  | snoc _ x1 y1 x2 y2 color n f =>
    rw [Panel.after_append]
    by_cases z : n = 0
    · subst z
      unfold paintEvents pixelsEvents at e
      rw [if_pos rfl, List.append_nil] at e
      exact (not_endsInData_window _ _ _ _ _ _ e).elim
    · exact Panel.after_paint_spent _ _ _ z f

/-- One pixel fills its own window. -/
theorem fills_pixel (x y : Word) : fills x y x y 1 := by
  refine .inr (.inr (.inr ?_))
  rw [Nat.add_sub_cancel_left, Nat.add_sub_cancel_left]

/-- a · b pixels fill a window a wide and b high. -/
theorem fills_area {x1 y1 x2 y2 : Word} {a b : Nat} (ha : x2.toNat + 1 = x1.toNat + a) (hb : y2.toNat + 1 = y1.toNat + b) :
    fills x1 y1 x2 y2 (a * b) := by
  refine .inr (.inr (.inr ?_))
  congr 1 <;> omega

theorem fills_swap {x1 y1 x2 y2 : Word} {n : Nat} (h : fills x1 y1 x2 y2 n) : fills y1 x1 y2 x2 n := by
  rcases h with h | h | h | h
  · exact .inl h
  · exact .inr (.inr (.inl h))
  · exact .inr (.inl h)
  · exact .inr (.inr (.inr (by rw [h, Nat.mul_comm])))

/-- w · h pixels leave nothing of the window w wide and h high, whether or not it passes 65535. -/
theorem fills_unchecked (x y w h : Word) : fills x y (x + w - 1) (y + h - 1) (w.toNat * h.toNat) := by
  by_cases w0 : w.toNat = 0
  · exact .inl (by simp [w0])
  by_cases h0 : h.toNat = 0
  · exact .inl (by simp [h0])
  have last : ∀ u v : Word, v.toNat ≠ 0 → (u + v - 1).toNat = (u.toNat + v.toNat - 1) % 65536 := by
    intro u v hv
    rw [BitVec.toNat_sub, BitVec.toNat_add]
    simp
    omega
  have ex := last x w w0
  have ey := last y h h0
  have := x.isLt
  have := y.isLt
  have := w.isLt
  have := h.isLt
  by_cases a : x.toNat + w.toNat - 1 < 65536
  · by_cases b : y.toNat + h.toNat - 1 < 65536
    · exact fills_area (by omega) (by omega)
    · exact .inr (.inr (.inl (by omega)))
  · exact .inr (.inl (by omega))

theorem glyphEvents_filled (p : Params) (g : Glyph) (a : CharArgs) : Filled p (glyphEvents p g a) := by
  unfold glyphEvents
  refine Filled.flatMap _ _ fun i _ => Filled.flatMap _ _ fun j _ => ?_
  split
  · split
    · exact .one _ _ _ _ _ _ (fills_pixel _ _)
    · exact .nil
  · exact .one _ _ _ _ _ _ (fills_pixel _ _)

theorem planEvents_filled (p : Params) (fg bg : Word) (hasBg : Bool) (plan : List (Glyph × Word × Word)) :
    Filled p (planEvents p fg bg hasBg plan) := Filled.flatMap _ _ fun _ _ => glyphEvents_filled ..

/-- What an operation has emitted when it faults. -/
theorem operationRaises_filled {s : State} {i : Instr} {c : FaultCode} {es : List Event}
    (h : s.operationRaises i = some (c, es)) : Filled s.params es := by
  have text : ∀ x y str fg bg font hasBg, s.stringRaises x y str fg bg font hasBg = some (c, es) → Filled s.params es := by
    intro x y str fg bg font hasBg h
    unfold State.stringRaises at h
    split at h
    · simp only [Option.map_eq_some_iff, Prod.mk.injEq] at h
      obtain ⟨_, _, _, rfl⟩ := h
      exact planEvents_filled ..
    · cases h
      exact .nil
  cases i <;> simp only [State.operationRaises] at h <;> try cases h
  · unfold State.charRaises at h
    split at h
    · cases h
      exact .nil
    · simp only [Option.map_eq_some_iff, Prod.mk.injEq] at h
      obtain ⟨_, _, _, rfl⟩ := h
      exact .nil
  · exact text _ _ _ _ _ _ _ h
  · unfold State.bitmapRaises at h
    split at h
    · split at h
      · cases h
        exact .nil
      · cases h
    all_goals
      cases h
      exact .nil
  · exact text _ _ _ _ _ _ _ h
  · exact text _ _ _ _ _ _ _ h

end Sys2Proof.Machine
end

