-- ==== Sys2Proof/Laws/Unchecked.lean ====
section
/-! SUPPORT. The operations that check nothing do not read the surface: they commute with a change of W, H and ORIENT. -/

namespace Sys2Proof.Machine

/-- s with another surface. -/
def State.onSurface (w h : Word) (orient : BitVec 2) (s : State) : State := { s with w := w, h := h, orient := orient }

variable (w h : Word) (orient : BitVec 2)

theorem onSurface_wireCommand (s : State) (c : Byte) (bs : List Byte) :
    (s.onSurface w h orient).wireCommand c bs = (s.wireCommand c bs).onSurface w h orient := rfl

theorem onSurface_writeData (s : State) (bs : List Byte) :
    (s.onSurface w h orient).writeData bs = (s.writeData bs).onSurface w h orient := rfl

theorem onSurface_complete (s : State) : (s.onSurface w h orient).complete = s.complete.onSurface w h orient := rfl

theorem onSurface_setWindow (s : State) (x1 y1 x2 y2 : Int) :
    (s.onSurface w h orient).setWindow x1 y1 x2 y2 = (s.setWindow x1 y1 x2 y2).onSurface w h orient := by
  unfold State.setWindow State.columnAddressSet State.rowAddressSet State.memoryWrite
  rw [onSurface_wireCommand, onSurface_wireCommand, onSurface_wireCommand]

theorem onSurface_fillColor (s : State) (color : Word) (n : Nat) :
    (s.onSurface w h orient).fillColor color n = (s.fillColor color n).onSurface w h orient := by
  unfold State.fillColor
  simp only [onSurface_writeData]
  rfl

theorem onSurface_fillWindow (s : State) (x1 y1 x2 y2 : Int) (color : Word) (n : Nat) :
    (s.onSurface w h orient).fillWindow x1 y1 x2 y2 color n = (s.fillWindow x1 y1 x2 y2 color n).onSurface w h orient := by
  unfold State.fillWindow
  rw [onSurface_setWindow, onSurface_fillColor]

theorem onSurface_pixel (s : State) (x y : Int) (color : Word) :
    (s.onSurface w h orient).pixel x y color = (s.pixel x y color).onSurface w h orient :=
  onSurface_fillWindow w h orient s x y x y color 1

theorem onSurface_hLine (s : State) (x0 y0 x1 : Int) (t : Nat) (color : Word) :
    (s.onSurface w h orient).hLine x0 y0 x1 t color = (s.hLine x0 y0 x1 t color).onSurface w h orient :=
  onSurface_fillWindow ..

theorem onSurface_vLine (s : State) (x0 y0 y1 : Int) (t : Nat) (color : Word) :
    (s.onSurface w h orient).vLine x0 y0 y1 t color = (s.vLine x0 y0 y1 t color).onSurface w h orient :=
  onSurface_fillWindow ..

theorem onSurface_stepLine (next : LineRegs → LineRegs) (t : Nat) (color : Word) (n : Nat) (r : LineRegs) (s : State) :
    State.stepLine next t color n r (s.onSurface w h orient) =
      (State.stepLine next t color n r s).onSurface w h orient := by
  induction n generalizing r s with
  | zero => rfl
  | succ n ih =>
    unfold State.stepLine State.thick
    rw [onSurface_fillWindow, ih]

theorem onSurface_drawLine (s : State) (x0 y0 x1 y1 : Int) (t : Nat) (color : Word) :
    (s.onSurface w h orient).drawLine x0 y0 x1 y1 t color = (s.drawLine x0 y0 x1 y1 t color).onSurface w h orient := by
  unfold State.drawLine State.shallow State.steep
  simp only [onSurface_hLine, onSurface_vLine, onSurface_stepLine]
  split
  · rfl
  · split
    · rfl
    · split <;> split <;> rfl

/-- The same end on another surface. -/
def Flow.onSurface {α : Type} (r : Flow α) : Flow α :=
  match r with
  | .ok v s => .ok v (s.onSurface w h orient)
  | .raised c s => .raised c (s.onSurface w h orient)

theorem Flow.onSurface_finish {α : Type} (r : Flow α) :
    (r.onSurface w h orient).finish = r.finish.onSurface w h orient := by
  cases r <;> rfl

theorem Flow.onSurface_bind {α β : Type} (r : Flow α) (f g : α → State → Flow β)
    (k : ∀ v s, f v (s.onSurface w h orient) = (g v s).onSurface w h orient) :
    (r.onSurface w h orient).bind f = (r.bind g).onSurface w h orient := by
  cases r
  · exact k _ _
  · rfl

theorem onSurface_glyphAsset (s : State) (gh : Handle) :
    (s.onSurface w h orient).glyphAsset gh = (s.glyphAsset gh).onSurface w h orient := by
  unfold State.glyphAsset
  have e : (s.onSurface w h orient).resolve gh = s.resolve gh := rfl
  rw [e]
  split <;> rfl

theorem onSurface_bitmapAsset (s : State) (bh : Handle) :
    (s.onSurface w h orient).bitmapAsset bh = (s.bitmapAsset bh).onSurface w h orient := by
  unfold State.bitmapAsset
  have e : (s.onSurface w h orient).resolve bh = s.resolve bh := rfl
  rw [e]
  split <;> rfl

theorem onSurface_memRead (s : State) (bytes : List Byte) (k : Nat) :
    (s.onSurface w h orient).memRead bytes k = (s.memRead bytes k).onSurface w h orient := by
  unfold State.memRead
  split <;> rfl

theorem onSurface_gbLoad (s : State) (g : Glyph) :
    (s.onSurface w h orient).gbLoad g = (s.gbLoad g).onSurface w h orient := by
  unfold State.gbLoad
  have e : (s.onSurface w h orient).work = s.work := rfl
  rw [e, onSurface_memRead]
  exact Flow.onSurface_bind w h orient _ _ _ fun _ _ => rfl

theorem onSurface_gbNext (s : State) (g : Glyph) :
    (s.onSurface w h orient).gbNext g = (s.gbNext g).onSurface w h orient := by
  unfold State.gbNext
  have e : (s.onSurface w h orient).work = s.work := rfl
  have l : (if s.work.glyph.rem = 0 then (s.onSurface w h orient).gbLoad g else .ok () (s.onSurface w h orient)) =
      (if s.work.glyph.rem = 0 then s.gbLoad g else .ok () s).onSurface w h orient := by
    split
    · rw [onSurface_gbLoad]
    · rfl
  rw [e, l]
  exact Flow.onSurface_bind w h orient _ _ _ fun _ _ => rfl

theorem onSurface_glyphPixel (s : State) (a : CharArgs) (i j : Nat) (bit : Bool) :
    (s.onSurface w h orient).glyphPixel a i j bit = (s.glyphPixel a i j bit).onSurface w h orient := by
  unfold State.glyphPixel
  simp only [onSurface_pixel]
  split
  · split <;> rfl
  · rfl

theorem onSurface_glyphRows (g : Glyph) (a : CharArgs) (i n j : Nat) (s : State) :
    State.glyphRows g a i n j (s.onSurface w h orient) = (State.glyphRows g a i n j s).onSurface w h orient := by
  induction n generalizing j s with
  | zero => rfl
  | succ n ih =>
    unfold State.glyphRows
    rw [onSurface_gbNext]
    apply Flow.onSurface_bind
    intro v t
    rw [onSurface_glyphPixel, ih]

theorem onSurface_endColumn (s : State) : (s.onSurface w h orient).endColumn = s.endColumn.onSurface w h orient := by
  unfold State.endColumn
  have e : (s.onSurface w h orient).params = s.params := rfl
  rw [e]
  split <;> rfl

theorem onSurface_glyphColumns (g : Glyph) (a : CharArgs) (n i : Nat) (s : State) :
    State.glyphColumns g a n i (s.onSurface w h orient) = (State.glyphColumns g a n i s).onSurface w h orient := by
  induction n generalizing i s with
  | zero => rfl
  | succ n ih =>
    unfold State.glyphColumns
    rw [onSurface_glyphRows]
    apply Flow.onSurface_bind
    intro v t
    rw [onSurface_endColumn, ih]

theorem onSurface_drawGlyph (s : State) (g : Glyph) (a : CharArgs) :
    (s.onSurface w h orient).drawGlyph g a = (s.drawGlyph g a).onSurface w h orient := by
  unfold State.drawGlyph
  have e : (s.onSurface w h orient).params = s.params := rfl
  rw [e]
  split
  · rfl
  · split
    · rfl
    · exact onSurface_glyphColumns w h orient g a g.w.toNat 0
        { s with work := { s.work with glyph := { s.work.glyph with idx := 0, rem := 0 } } }

theorem onSurface_drawChar (s : State) (gh : Handle) (a : CharArgs) :
    (s.onSurface w h orient).drawChar gh a = (s.drawChar gh a).onSurface w h orient := by
  unfold State.drawChar
  rw [onSurface_glyphAsset]
  exact Flow.onSurface_bind w h orient _ _ _ fun v t => onSurface_drawGlyph w h orient t v a

theorem onSurface_blit (s : State) (b : Bitmap) (x y : Int) :
    (s.onSurface w h orient).blit b x y = (s.blit b x y).onSurface w h orient := by
  unfold State.blit
  split
  · rfl
  · simp only [onSurface_setWindow, onSurface_writeData]
    rfl

end Sys2Proof.Machine
end

