-- ==== Sys2Proof/Tests/Slice0.lean ====
section
/-! SUPPORT. The model's own tests: well-formedness, decoding from words written out from R81 and R89, one step or two for
each instruction with the results of spec/95_test_vectors.md, and a witness for the hypotheses of each statement. -/

namespace Sys2Proof.Tests

open Sys2Proof Sys2Proof.Machine

/-! ## Helpers -/

/-- The conditions of spec/95_test_vectors.md, with a table of four different bytes for the symbolic p0 to p3. -/
def params (cs : CsMode) : Params where
  panelW := 240
  panelH := 240
  csMode := cs
  madctlPat := #v[0xA0, 0xA1, 0xA2, 0xA3]
  glyphColumnRealign := false
  layoutOrder := .bottomFirst
  wrapAdvance := .spaceH

/-- The glyphs of spec/95_test_vectors.md, sections 2.6 and 2.7. -/
def g2 : Glyph := ⟨1, 8, 8, [0x0F]⟩
@[inherit_doc g2] def g3 : Glyph := ⟨1, 8, 4, [0xA0, 0x50]⟩
@[inherit_doc g2] def g5 : Glyph := ⟨1, 8, 0, [0x00]⟩
@[inherit_doc g2] def ga : Glyph := ⟨2, 2, 4, [0x60]⟩
@[inherit_doc g2] def gsp : Glyph := ⟨2, 3, 8, [0xFF]⟩

/-- The asset store of the tests: the assets of program P3, and the others of section 2 under handles of their own. -/
def store : Memory Asset :=
  [(0x01, .glyph ⟨1, 8, 8, [0xFF]⟩), (0x02, .glyph g2), (0x03, .glyph g3), (0x05, .glyph g5),
   (0x06, .glyph ⟨2, 8, 8, [0x00]⟩), (0x20, .font ⟨[(0x20, 0x22), (0x41, 0x21), (0x41, 0x01)]⟩),
   (0x21, .glyph ga), (0x22, .glyph gsp), (0x23, .font ⟨[(0x41, 0x21)]⟩), (0x30, .string [0x41, 0x41, 0x41]),
   (0x31, .string [0x0A]), (0x32, .string [0x42, 0x09, 0x41]),
   (0x33, .string [0x09]), (0x40, .bitmap ⟨2, 1, [0xF8, 0x00, 0x07, 0xE0]⟩), (0x41, .bitmap ⟨2, 2, [0, 0, 0, 0, 0, 0]⟩),
   (0x42, .bitmap ⟨0, 3, []⟩)]

/-- The block of the tests right after block reset, with its assets. -/
def block (cs : CsMode) : State := { State.resetWith (params cs) with assets := store }

/-- The block with CS_MODE = NONE. -/
def idle : State := block .none

/-- The block with a defined observer that knows no pixel, as after INIT. -/
def shown : State := { idle with panel := { Panel.reset with undef := false } }

/-- The state an outcome goes on with; the reset state where there is none. -/
def after (r : Host.Outcome State Fault Refusal) : State :=
  match r with
  | .next t => t
  | .fault _ => State.resetWith (params .none)
  | .refused _ => State.resetWith (params .none)

/-- Whether an outcome is a next state. -/
def goes (r : Host.Outcome State Fault Refusal) : Bool :=
  match r with
  | .next _ => true
  | .fault _ => false
  | .refused _ => false

/-- The events of an instruction from the idle block. -/
def events (i : Instr) : List Event := (after (exec i idle)).trace

/-- The instruction a decoder answers. -/
def answer (r : Except Reject Instr) : Option Instr :=
  match r with
  | .ok i => some i
  | .error _ => none

/-- Why a decoder rejects. -/
def reason (r : Except Reject Instr) : Option Reject :=
  match r with
  | .ok _ => none
  | .error e => some e

/-- WIN(x1, y1, x2, y2) of spec/95_test_vectors.md, for coordinates below 256. -/
def win (x1 y1 x2 y2 : Byte) : List Event :=
  [.cmd 0x2A, .dat 0, .dat x1, .dat 0, .dat x2, .cmd 0x2B, .dat 0, .dat y1, .dat 0, .dat y2, .cmd 0x2C]

/-- PIX(c) × n of spec/95_test_vectors.md, for c = {hi, lo}. -/
def pix (hi lo : Byte) (n : Nat) : List Event := (List.replicate n [.dat hi, .dat lo]).flatten

/-- One pixel of one colour. -/
def dot (x y hi lo : Byte) : List Event := win x y x y ++ pix hi lo 1

/-! ## Well-formedness and memory -/

theorem test_wellFormed_refuses_drawString : (Instr.drawString 0 0 0 0 0 0).wellFormed = false := by decide
theorem test_wellFormed_refuses_drawStringWithbg : (Instr.drawStringWithbg 0 0 0 0 0 0).wellFormed = false := by decide
theorem test_wellFormed_takes_drawStringMain : (Instr.drawStringMain 0 0 0 0 0 0 true).wellFormed = true := by decide
theorem test_reset_memory : Memory.wf State.reset.assets = true ∧ Memory.wf State.reset.panel.gram = true := by decide
theorem test_store_memory : Memory.wf store = true := by decide
theorem test_memory_takes_away : Memory.put [(3, true), (5, false)] 3 none = [(5, false)] := by decide

/-! ## Decoding: the rows of R81 and R89, word by word -/

theorem test_decode_init : answer (decodeWords [0x0100]) = some .init := by decide
theorem test_decode_setWindow :
    answer (decodeWords [0x1000, 0x0064, 0x0065, 0x0067, 0x0066]) = some (.setWindow 100 101 103 102) := by decide
theorem test_decode_fillColor :
    answer (decodeWords [0x1100, 0xF800, 0x0001, 0x0008]) = some (.fillColor 0xF800 0x00010008) := by decide
theorem test_decode_drawPixel : answer (decodeWords [0x2000, 1, 2, 0xFFFF]) = some (.drawPixel 1 2 0xFFFF) := by decide
theorem test_decode_fillRect :
    answer (decodeWords [0x2100, 0x000A, 0x000B, 0x0032, 0x0033, 0xFFFF]) = some (.fillRect 10 11 50 51 0xFFFF) := by
  decide
theorem test_decode_fillRectFast :
    answer (decodeWords [0x2200, 0, 1, 2, 3, 0x1234]) = some (.fillRectFast 0 1 2 3 0x1234) := by decide
theorem test_decode_fillScreen : answer (decodeWords [0x2300, 0x1234]) = some (.fillScreen 0x1234) := by decide
theorem test_decode_drawRectangle :
    answer (decodeWords [0x2400, 0x0014, 0x0015, 3, 2, 0x001F]) = some (.drawRectangle 20 21 3 2 0x001F) := by decide
theorem test_decode_drawFastHLine :
    answer (decodeWords [0x3002, 8, 3, 5, 0x07E0]) = some (.drawFastHLine 8 3 5 2 0x07E0) := by decide
theorem test_decode_drawFastVLine :
    answer (decodeWords [0x3103, 4, 9, 2, 0x07E0]) = some (.drawFastVLine 4 9 2 3 0x07E0) := by decide
theorem test_decode_drawLine :
    answer (decodeWords [0x3201, 0, 1, 4, 2, 0x07E0]) = some (.drawLine 0 1 4 2 1 0x07E0) := by decide
theorem test_decode_drawChar :
    answer (decodeWords [0x4001, 6, 7, 0xFFFF, 0x1111, 0x0002, 0x0005]) =
      some (.drawChar 6 7 0xFFFF 0x1111 0x00020005 true) := by decide
theorem test_decode_drawStringMain :
    answer (decodeWords [0x4101, 0x00ED, 1, 0x0003, 0x0030, 0xFFFF, 0x1111, 0x0004, 0x0020]) =
      some (.drawStringMain 237 1 0x00030030 0xFFFF 0x1111 0x00040020 true) := by decide
theorem test_decode_drawBitmap :
    answer (decodeWords [0x5000, 8, 9, 0x0001, 0x0040]) = some (.drawBitmap 8 9 0x00010040) := by decide
theorem test_decode_rotateDisplay : answer (decodeWords [0x60FF]) = some (.rotateDisplay 255) := by decide
theorem test_encode_drawString :
    encode (.drawString 1 2 0x00000030 3 4 0x00000020) = .descriptor [0x4100, 1, 2, 0, 0x0030, 3, 4, 0, 0x0020] := by decide
theorem test_encode_drawStringWithbg :
    encode (.drawStringWithbg 237 0 0x00000030 0xFFFF 0 0x00000020) =
      .descriptor [0x4101, 0x00ED, 0, 0, 0x0030, 0xFFFF, 0, 0, 0x0020] := by decide
theorem test_decode_wire_plain :
    [0x01, 0x11, 0x3A, 0x21, 0x13, 0x29, 0x2C].map (fun b => answer (decodeWire [b])) =
      [some .wireSoftwareReset, some .wireSleepOut, some .wireColorMode, some .wireInversionOn,
       some .wireNormalDisplayOn, some .wireDisplayOn, some .wireMemoryWrite] := by decide
theorem test_decode_wireMemoryAccessControl :
    answer (decodeWire [0x36, 0xA1]) = some (.wireMemoryAccessControl 0xA1) := by decide
theorem test_decode_wireColumnAddressSet :
    answer (decodeWire [0x2A, 0x01, 0x23, 0x06, 0x78]) = some (.wireColumnAddressSet 0x0123 0x0678) := by decide
theorem test_decode_wireRowAddressSet :
    answer (decodeWire [0x2B, 0x00, 0x45, 0x00, 0x9A]) = some (.wireRowAddressSet 0x0045 0x009A) := by decide

/-- Section 2.11, and an empty descriptor: each rejected by name. -/
theorem test_decode_rejects :
    [[], [0x0000], [0x2101, 0, 0, 1, 1, 0xFFFF], [0x4102, 0, 0, 0, 0, 0, 0, 0, 0], [0x2000, 5, 7], [0x7000]].map
      (fun ws => reason (decodeWords ws)) =
    [some .noHeader, some .unknownOpcode, some .reservedSub, some .reservedSub, some .wrongWordCount,
     some .unknownOpcode] := by decide
theorem test_decodeWire_rejects :
    [[], [0x02], [0x01, 0x00], [0x2A, 0, 0, 0]].map (fun bs => reason (decodeWire bs)) =
      [some .noHeader, some .unknownWireCommand, some .wrongWireLength, some .wrongWireLength] := by decide

/-- The table's rows, as the table numbers their bits. -/
theorem test_decodeTableWord :
    [decodeTableWord 16 0x0100, decodeTableWord 16 0x3005, decodeTableWord 16 0x4001, decodeTableWord 64 0x000300020001_2000,
     decodeTableWord 8 0x36, decodeTableWord 8 0x2A, decodeTableWord 16 0x0000] =
    [some .init, some (.drawFastHLine 0 0 0 5 0), some (.drawChar 0 0 0 0 0 true), some (.drawPixel 1 2 3),
     some (.wireMemoryAccessControl 0), some (.wireColumnAddressSet 0 0), none] := by decide

/-! ## The operations, with the results of spec/95_test_vectors.md -/

/-- 2.1: high byte first. -/
theorem test_setWindow :
    events (.setWindow 0x0123 0x0045 0x0678 0x009A) =
      [.cmd 0x2A, .dat 0x01, .dat 0x23, .dat 0x06, .dat 0x78, .cmd 0x2B, .dat 0x00, .dat 0x45, .dat 0x00, .dat 0x9A,
       .cmd 0x2C] := by decide
/-- 2.1, PER_GROUP. -/
theorem test_setWindow_perGroup :
    (after (exec (.setWindow 1 2 3 4) (block .perGroup))).trace =
      [.csAssert, .cmd 0x2A, .csRelease, .csAssert, .dat 0, .dat 1, .dat 0, .dat 3, .csRelease,
       .csAssert, .cmd 0x2B, .csRelease, .csAssert, .dat 0, .dat 2, .dat 0, .dat 4, .csRelease,
       .csAssert, .cmd 0x2C, .csRelease] := by decide
/-- 2.2. -/
theorem test_fillColor : events (.fillColor 0xF800 2) = [.dat 0xF8, .dat 0x00, .dat 0xF8, .dat 0x00] := by decide
/-- 2.2, PER_GROUP, one pixel and none. -/
theorem test_fillColor_perGroup :
    (after (exec (.fillColor 0xF800 1) (block .perGroup))).trace = [.csAssert, .dat 0xF8, .dat 0x00, .csRelease] ∧
    (after (exec (.fillColor 0xF800 0) (block .perGroup))).trace = [] := by decide
/-- 2.3, off the surface. -/
theorem test_drawPixel :
    events (.drawPixel 300 0 0x1234) =
      [.cmd 0x2A, .dat 0x01, .dat 0x2C, .dat 0x01, .dat 0x2C, .cmd 0x2B, .dat 0, .dat 0, .dat 0, .dat 0, .cmd 0x2C,
       .dat 0x12, .dat 0x34] := by decide
/-- S1: FILL_RECT 230, 0, 20, 1. -/
theorem test_fillRect : events (.fillRect 230 0 20 1 0xABCD) = win 230 0 239 0 ++ pix 0xAB 0xCD 10 := by decide
/-- S2. -/
theorem test_fillRect_noop :
    [events (.fillRect 240 0 5 5 1), events (.fillRect 5 5 0 5 1), events (.fillRect 0 240 5 5 1),
     events (.fillRect 5 5 5 0 1)] = [[], [], [], []] := by decide
/-- 2.3: x2 = lo16(−1), no pixels. -/
theorem test_fillRectFast_empty :
    events (.fillRectFast 0 0 0 5 0) =
      [.cmd 0x2A, .dat 0, .dat 0, .dat 0xFF, .dat 0xFF, .cmd 0x2B, .dat 0, .dat 0, .dat 0, .dat 4, .cmd 0x2C] := by decide
/-- 2.3: x2 = lo16(65536) = 0. -/
theorem test_fillRectFast_wraps :
    events (.fillRectFast 65535 0 2 1 0) =
      [.cmd 0x2A, .dat 0xFF, .dat 0xFF, .dat 0, .dat 0, .cmd 0x2B, .dat 0, .dat 0, .dat 0, .dat 0, .cmd 0x2C,
       .dat 0, .dat 0, .dat 0, .dat 0] := by decide
/-- R110 on a surface of 3 by 2. -/
theorem test_fillScreen :
    (after (exec (.fillScreen 0x1234) { idle with w := 3, h := 2 })).trace = win 0 0 2 1 ++ pix 0x12 0x34 6 := by decide
/-- 2.3: FILL_SCREEN with W = 0. -/
theorem test_fillScreen_empty : (after (exec (.fillScreen 0x1234) { idle with w := 0 })).trace = [] := by decide
/-- 2.3. -/
theorem test_drawRectangle :
    events (.drawRectangle 10 10 3 2 0x001F) =
      win 10 10 12 10 ++ pix 0 0x1F 3 ++ win 10 12 12 12 ++ pix 0 0x1F 3 ++ win 10 10 10 11 ++ pix 0 0x1F 2 ++
      win 13 10 13 11 ++ pix 0 0x1F 2 := by decide
/-- 2.3: clipped to cw = 5, the right edge off the surface. -/
theorem test_drawRectangle_clipped :
    events (.drawRectangle 235 0 10 3 0x001F) =
      win 235 0 239 0 ++ pix 0 0x1F 5 ++ win 235 3 239 3 ++ pix 0 0x1F 5 ++ win 235 0 235 2 ++ pix 0 0x1F 3 ++
      win 240 0 240 2 ++ pix 0 0x1F 3 := by decide
/-- 2.4. -/
theorem test_drawFastHLine : events (.drawFastHLine 8 3 5 2 0x07E0) = win 5 3 8 4 ++ pix 0x07 0xE0 8 := by decide
/-- 2.4: t = 0, y2 = lo16(3 − 1). -/
theorem test_drawFastHLine_thin : events (.drawFastHLine 5 3 8 0 0x07E0) = win 5 3 8 2 := by decide
/-- 2.4. -/
theorem test_drawFastVLine : events (.drawFastVLine 4 9 2 3 0x07E0) = win 4 2 6 9 ++ pix 0x07 0xE0 24 := by decide
/-- 2.5: the tie at x = 1 does not step. -/
theorem test_drawLine_tie :
    events (.drawLine 0 0 4 1 1 0x07E0) =
      dot 0 0 0x07 0xE0 ++ dot 1 0 0x07 0xE0 ++ dot 2 0 0x07 0xE0 ++ dot 3 1 0x07 0xE0 ++ dot 4 1 0x07 0xE0 := by decide
/-- 2.5: steep, inc = −1. -/
theorem test_drawLine_steep :
    events (.drawLine 3 0 0 3 1 0x07E0) =
      dot 3 0 0x07 0xE0 ++ dot 2 1 0x07 0xE0 ++ dot 1 2 0x07 0xE0 ++ dot 0 3 0x07 0xE0 := by decide
/-- 2.6: G2 without a background. -/
theorem test_drawChar :
    events (.drawChar 3 4 0xFFFF 0 0x02 false) =
      dot 3 4 0xFF 0xFF ++ dot 3 5 0xFF 0xFF ++ dot 3 6 0xFF 0xFF ++ dot 3 7 0xFF 0xFF := by decide
/-- 2.6: G5, GLYPH_FORMAT; STATUS and FAULT_CODE, and no event. -/
theorem test_drawChar_fault :
    (after (exec (.drawChar 3 4 0xFFFF 0 0x05 true) idle)).status = ⟨false, true, false⟩ ∧
    (after (exec (.drawChar 3 4 0xFFFF 0 0x05 true) idle)).faultCode = 0x04 ∧
    (after (exec (.drawChar 3 4 0xFFFF 0 0x05 true) idle)).seq = .halted ∧ events (.drawChar 3 4 0xFFFF 0 0x05 true) = [] := by
  decide
/-- 2.7 and P3: "AAA" at (237, 0), two wraps. -/
theorem test_drawStringMain :
    events (.drawStringMain 237 0 0x30 0xFFFF 0 0x20 false) =
      dot 237 0 0xFF 0xFF ++ dot 238 1 0xFF 0xFF ++ dot 237 3 0xFF 0xFF ++ dot 238 4 0xFF 0xFF ++ dot 237 6 0xFF 0xFF ++
      dot 238 7 0xFF 0xFF := by decide
/-- 2.7: font F' has no space glyph, so the first wrap faults; what was drawn stays. -/
theorem test_drawStringMain_noSpace :
    events (.drawStringMain 237 0 0x30 0xFFFF 0 0x23 false) = dot 237 0 0xFF 0xFF ++ dot 238 1 0xFF 0xFF ∧
    (after (exec (.drawStringMain 237 0 0x30 0xFFFF 0 0x23 false) idle)).faultCode = 0x05 := by decide
/-- 2.7: "B" has no glyph and the tab adds 4 × 3. -/
theorem test_drawString : events (.drawString 0 0 0x32 0xFFFF 0 0x20) = dot 12 0 0xFF 0xFF ++ dot 13 1 0xFF 0xFF := by decide
/-- 2.7: an 'A' with a background. -/
theorem test_drawStringWithbg :
    events (.drawStringWithbg 0 0 0x32 0xFFFF 0 0x20) =
      dot 12 0 0xFF 0xFF ++ dot 12 1 0 0 ++ dot 13 0 0 0 ++ dot 13 1 0xFF 0xFF := by decide
/-- 2.8: not clipped. -/
theorem test_drawBitmap :
    events (.drawBitmap 239 239 0x40) =
      [.cmd 0x2A, .dat 0, .dat 0xEF, .dat 0, .dat 0xF0, .cmd 0x2B, .dat 0, .dat 0xEF, .dat 0, .dat 0xEF, .cmd 0x2C,
       .dat 0xF8, .dat 0x00, .dat 0x07, .dat 0xE0] := by decide
/-- 2.8: too little data. -/
theorem test_drawBitmap_fault :
    events (.drawBitmap 0 0 0x41) = [] ∧ (after (exec (.drawBitmap 0 0 0x41) idle)).faultCode = 0x03 := by decide
/-- 2.9. -/
theorem test_rotateDisplay :
    events (.rotateDisplay 255) = [.cmd 0x36, .dat 0xA3] ∧ (after (exec (.rotateDisplay 255) idle)).orient = 3 := by decide
/-- 2.9: PANEL_W = 320, PANEL_H = 240. -/
theorem test_rotateDisplay_wide :
    ((after (exec (.rotateDisplay 1) (State.resetWith { params .none with panelW := 320 }))).w,
     (after (exec (.rotateDisplay 1) (State.resetWith { params .none with panelW := 320 }))).h) = (240, 320) := by decide
/-- 2.10. -/
theorem test_init :
    events .init =
      [.xportEnable, .cmd 0x01, .settle, .cmd 0x11, .settle, .cmd 0x3A, .dat 0x55, .settle, .cmd 0x36, .dat 0xA0, .settle,
       .cmd 0x21, .settle, .cmd 0x13, .settle, .cmd 0x29, .settle] := by decide
/-- 2.10, PER_GROUP: 36 events, and STATUS = 0x0004. -/
theorem test_init_perGroup :
    (after (exec .init (block .perGroup))).trace.length = 36 ∧
    (after (exec .init (block .perGroup))).trace.take 5 = [.xportEnable, .csRelease, .csAssert, .cmd 0x01, .csRelease] ∧
    (after (exec .init (block .perGroup))).status.word = 0x0004 := by decide
/-- R89. -/
theorem test_wire_plain :
    [Instr.wireSoftwareReset, .wireSleepOut, .wireColorMode, .wireInversionOn, .wireNormalDisplayOn, .wireDisplayOn,
     .wireMemoryWrite].map events =
    [[.cmd 0x01], [.cmd 0x11], [.cmd 0x3A, .dat 0x55], [.cmd 0x21], [.cmd 0x13], [.cmd 0x29], [.cmd 0x2C]] := by decide
/-- R89. -/
theorem test_wire_operands :
    [Instr.wireMemoryAccessControl 0xA1, .wireColumnAddressSet 0x0123 0x0678, .wireRowAddressSet 1 2].map events =
    [[.cmd 0x36, .dat 0xA1], [.cmd 0x2A, .dat 0x01, .dat 0x23, .dat 0x06, .dat 0x78],
     [.cmd 0x2B, .dat 0, .dat 1, .dat 0, .dat 2]] := by decide

/-! ## The machine's steps and the panel -/

/-- R183: offered in HALTED, stuck. -/
theorem test_halted_stuck : goes (step { idle with seq := .halted, host := [.offer [0x0100]] }) = false := by decide
/-- R183, R194: an offer in HALTED does not hold up a block reset. -/
theorem test_halted_reset :
    (after (step { idle with seq := .halted, host := [.offer [0x0100], .blockReset, .readReg 0] })).seq = .idle ∧
    (after (step { idle with seq := .halted, host := [.offer [0x0100], .blockReset, .readReg 0] })).host = [.readReg 0] := by
  decide
/-- R194: behind a wait, a read comes after the running operation has ended; ROTATE_DISPLAY 1 has set ORIENT. -/
theorem test_read_after_wait :
    (after (step (after (step (after (step { idle.latch (.descriptor [0x6001]) with
      host := [.wait, .readReg 2] })))))).readData = 1 := by decide
/-- R74, R194: an asset change, after the offer that came before it has run. -/
theorem test_putAsset :
    (after (step { idle with host := [.putAsset 0x99 (some (.string [0x41]))] })).resolve 0x99 = some (.string [0x41]) ∧
    (after (step { idle.latch (.descriptor [0x6001]) with host := [.putAsset 0x40 none] })).assets = store := by decide
/-- P4: the word 0x7000. -/
theorem test_illegal_word :
    (after (step { idle.latch (.descriptor [0x7000]) with status := ⟨true, false, true⟩ })).status.word = 0x0006 ∧
    (after (step { idle.latch (.descriptor [0x7000]) with status := ⟨true, false, true⟩ })).faultCode = 0x01 := by
  decide
/-- The next step after withFetchWord runs the instruction. -/
theorem test_withFetchWord : (after (step (idle.withFetchWord 16 0x6005))).trace = [.cmd 0x36, .dat 0xA1] := by decide
/-- P4: GRAM (0,0) = 0xF800 and (1,0) = 0x07E0. -/
theorem test_bitmap_on_panel :
    (after (exec (.drawBitmap 0 0 0x40) shown)).panel.gram = [(0, 0xF800), (1, 0x07E0)] ∧
    (after (exec (.drawBitmap 0 0 0x40) shown)).panel.undef = false := by decide
/-- 2.1: SET_WINDOW 10, 0, 5, 0 is UNDEF at the 0x2C. -/
theorem test_malformed_window : (after (exec (.setWindow 10 0 5 0) shown)).panel.undef = true := by decide

/-! ## Witnesses: a state and operands that meet the hypotheses of each statement -/

/-- The block while it runs op, with the host's next action a. -/
def running (ws : List Word) (host : List HostAction) : State :=
  { idle.latch (.descriptor ws) with host := host }

/-- The block after a fault. -/
def halted (host : List HostAction) : State :=
  { idle with seq := .halted, status := ⟨false, true, false⟩, faultCode := 0x04, host := host }

theorem witness_BlockResetRestoresTheListedValues :
    ((running [0x6001] [.blockReset]).host = [] ++ .blockReset :: []) ∧
    ((halted [.offer [0x0100], .blockReset]).seq = .halted ∧ [HostAction.offer [0x0100]].all HostAction.isOffer = true ∧
      (halted [.offer [0x0100], .blockReset]).host = [.offer [0x0100]] ++ .blockReset :: []) := ⟨rfl, rfl, rfl, rfl⟩

theorem witness_OnlyBlockResetLeavesHalted :
    (halted []).seq = .halted ∧ (halted []).host.all HostAction.isOffer = true ∧
    (halted [.offer [], .offer [0x0100]]).host.all HostAction.isOffer = true ∧
    (∃ t, step (halted [.offer [], .readReg 3]) = .next t ∧ t.readData = 2) ∧ ∃ t, step (halted [.wait]) = .next t :=
  ⟨rfl, rfl, rfl, ⟨_, rfl, by decide⟩, _, rfl⟩

theorem witness_OnlyBlockResetLeavesHalted_reset :
    (halted [.blockReset]).seq = .halted ∧ ∃ t, step (halted [.blockReset]) = .next t ∧ t.seq = .idle := ⟨rfl, _, rfl, rfl⟩

theorem witness_SequencerTransitionsAreTheListedOnes :
    (∃ t, step { idle with host := [.offer [0x0100]] } = .next t ∧ t.seq = .busy ∧ t.work.latch = .descriptor [0x0100]) ∧
    (∃ t, step (running [0x2300, 0] []) = .next t ∧ t.seq = .idle) ∧
    (∃ t, step (running [0x7000] []) = .next t ∧ t.seq = .halted) ∧ (∃ t, step idle = .next t ∧ t.seq = .idle) :=
  ⟨⟨_, rfl, rfl, rfl⟩, ⟨_, rfl, rfl⟩, ⟨_, rfl, rfl⟩, ⟨_, rfl, rfl⟩⟩

theorem witness_HostOffersAssetChangesAndWaits :
    ({ idle with host := [.offer []] } : State).seq = .idle ∧
    (running [0x0100] [.offer [0x0100]]).seq = .busy ∧
    ((halted [.offer [0x0100]]).seq = .halted ∧ ([] : List HostAction).all HostAction.isOffer = true) ∧
    (∃ t, step (halted [.offer [0x0100], .wait]) = .next t) ∧
    ((halted [.offer [], .putAsset 0x40 none]).pending = [.putAsset 0x40 none] ∧
      (halted [.offer [], .putAsset 0x40 none]).seq ≠ .busy ∧ Memory.wf store = true) ∧
    (running [0x0100] [.putAsset 0x40 none]).pending = [.putAsset 0x40 none] ∧ (running [0x0100] [.wait]).pending = [.wait] ∧
    (halted [.wait]).pending = [.wait] :=
  ⟨rfl, rfl, ⟨rfl, rfl⟩, ⟨_, rfl⟩, ⟨rfl, by simp [halted], by decide⟩, rfl, rfl, rfl⟩

theorem hostWaits_nil {s : State} (h : s.host = []) : s.hostWaits := by
  simp [State.hostWaits, h]

theorem witness_StepRunsTheLatchedOperation :
    (running [0x6001] []).seq = .busy ∧ (running [0x6001] []).hostWaits ∧
    decode (running [0x6001] []).work.latch = .ok (.rotateDisplay 1) ∧ decodeTableWord 16 0x6001 = some (.rotateDisplay 1) :=
  ⟨rfl, hostWaits_nil rfl, rfl, rfl⟩

theorem witness_IllegalDescriptorFaultsBeforeAnyEvent :
    (running [] []).seq = .busy ∧ (running [] []).hostWaits ∧ (running [] []).status.fault = false ∧
    decode (running [] []).work.latch = .error .noHeader := ⟨rfl, hostWaits_nil rfl, rfl, rfl⟩

theorem witness_RegisterReadsFollowTheMap :
    ({ idle with host := [.readReg 0] } : State).seq ≠ .busy ∧ (running [0x6001] [.readReg 3]).pending = [.readReg 3] ∧
    (running [0x6001] [.readReg 2]).seq = .busy := ⟨by simp [idle, block, State.resetWith], rfl, rfl⟩

theorem witness_FirstFaultCodeIsKept :
    (halted [.offer [], .putAsset 1 none]).status.fault = true ∧
    (∀ rest, (halted [.offer [], .putAsset 1 none]).pending ≠ .blockReset :: rest) ∧
    ∃ t, step (halted [.offer [], .putAsset 1 none]) = .next t := ⟨rfl, by simp [halted, State.pending, passOffers], _, rfl⟩

/-- DRAW_CHAR of G5, a word of no operation, "AAA" in a font without a space glyph at its first wrap, and FILL_SCREEN. -/
theorem witness_FaultEntryIsPrecise :
    (running [0x4001, 3, 4, 0xFFFF, 0, 0, 5] []).seq = .busy ∧
    (running [0x4001, 3, 4, 0xFFFF, 0, 0, 5] []).hostWaits ∧
    (running [0x4001, 3, 4, 0xFFFF, 0, 0, 5] []).status.fault = false ∧
    idle.raises (.descriptor [0x4001, 3, 4, 0xFFFF, 0, 0, 5]) = some (.glyphFormat, []) ∧
    idle.raises (.descriptor [0x7000]) = some (.illegalOp, []) ∧
    idle.raises (.descriptor [0x4100, 237, 0, 0, 0x30, 0xFFFF, 0, 0, 0x23]) =
      some (.noSpaceGlyph, dot 237 0 0xFF 0xFF ++ dot 238 1 0xFF 0xFF) ∧
    idle.raises (.descriptor [0x5000, 0, 0, 0, 0x41]) = some (.assetRange, []) ∧ idle.raises (.descriptor [0x2300, 0]) = none ∧
    (running [0x7000] []).seq ≠ .halted ∧ ∃ t, step (running [0x7000] []) = .next t ∧ t.seq = .halted :=
  ⟨rfl, hostWaits_nil rfl, rfl, by decide, by decide, by decide, by decide, by decide, by simp [running], _, rfl, rfl⟩

theorem witness_DecodeOfEncodeIsIdentity :
    (Instr.drawLine 0 1 2 3 255 4).wellFormed = true ∧ (Instr.wireRowAddressSet 0xFFFF 0).wellFormed = true := by decide

theorem witness_EncodeOfDecodeIsIdentity : decodeWords [0x4001, 1, 2, 3, 4, 5, 6] = .ok (.drawChar 1 2 3 4 0x00050006 true) :=
  rfl

theorem witness_BlockedFillIsTheSameStream : 0 < Config.fillBlock / Config.fillUnroll ∧ 0 < Config.fillUnroll := by decide

theorem witness_FillRectClipsToTheSurface :
    (239 : Word).toNat < idle.w.toNat ∧ (239 : Word).toNat < idle.h.toNat ∧ (65535 : Word) ≠ 0 ∧ (1 : Word) ≠ 0 := by decide

theorem witness_EmptyRectanglesEmitNothing :
    idle.w.toNat ≤ (240 : Word).toNat ∧ idle.h.toNat ≤ (240 : Word).toNat ∧ (0 : Word) = 0 := by decide

/-- DRAW_RECTANGLE 235, 0, 10, 3 is clipped to cw = 5. -/
theorem witness_DrawRectangleDrawsFourEdges :
    (235 : Word).toNat < idle.w.toNat ∧ (0 : Word).toNat < idle.h.toNat ∧ (10 : Word) ≠ 0 ∧ (3 : Word) ≠ 0 ∧
    5 = min (10 : Word).toNat (idle.w.toNat - (235 : Word).toNat) ∧
    3 = min (3 : Word).toNat (idle.h.toNat - (0 : Word).toNat) := by decide

/-- The steep line of spec/95_test_vectors.md from (65535, 0) to (65534, 3). -/
theorem witness_LineSamplesSpanTheEndpoints :
    (65535 : Word) ≠ 65534 ∧ (0 : Word) ≠ 3 ∧
    1 = max (65535 : Word).toNat (65534 : Word).toNat - min (65535 : Word).toNat (65534 : Word).toNat ∧
    3 = max (0 : Word).toNat (3 : Word).toNat - min (0 : Word).toNat (3 : Word).toNat := by decide

theorem witness_DrawCharDrawsTheClosedForm : idle.resolve 0x03 = some (.glyph g3) ∧ glyphOk idle.params g3 := by
  unfold glyphOk
  decide

/-- G1, without realignment and with it. -/
theorem witness_FullByteIsAFullColumn :
    idle.resolve 0x01 = some (.glyph ⟨1, 8, 8, [0xFF]⟩) ∧ glyphOk idle.params ⟨1, 8, 8, [0xFF]⟩ ∧
    idle.params.glyphColumnRealign = false ∧ glyphOk { params .none with glyphColumnRealign := true } ⟨1, 8, 8, [0xFF]⟩ := by
  unfold glyphOk
  decide

/-- The idle block with a font under handle 0x50 and a string under 0x51. -/
def texts (f : Font) (bytes : List Byte) : State :=
  (idle.putAsset 0x50 (some (.font f))).putAsset 0x51 (some (.string bytes))

/-- "AAA" in font F; and "A" in a font without a space glyph that holds a glyph of format 0. -/
theorem witness_DrawStringFollowsTheLayout :
    (idle.resolve 0x30 = some (.string [0x41, 0x41, 0x41]) ∧
      idle.resolve 0x20 = some (.font ⟨[(0x20, 0x22), (0x41, 0x21), (0x41, 0x01)]⟩) ∧
      (idle.stringPlan ⟨[(0x20, 0x22), (0x41, 0x21), (0x41, 0x01)]⟩ [0x41, 0x41, 0x41] 237 0).fault = none) ∧
    ((texts ⟨[(0x41, 0x21), (0x43, 0x05)]⟩ [0x41]).resolve 0x51 = some (.string [0x41]) ∧
      (texts ⟨[(0x41, 0x21), (0x43, 0x05)]⟩ [0x41]).resolve 0x50 = some (.font ⟨[(0x41, 0x21), (0x43, 0x05)]⟩) ∧
      (texts ⟨[(0x41, 0x21), (0x43, 0x05)]⟩ [0x41]).stringPlan ⟨[(0x41, 0x21), (0x43, 0x05)]⟩ [0x41] 0 0 =
        ⟨[(ga, 0, 0)], none⟩) := by decide

theorem witness_DrawStringFaults :
    idle.status.fault = false ∧ (∀ bytes, idle.resolve 0x40 ≠ some (.string bytes)) ∧
    (∀ f, idle.resolve 0x30 ≠ some (.font f)) ∧ idle.resolve 0x31 = some (.string (0x0A :: [])) ∧
    idle.resolve 0x33 = some (.string (0x09 :: [])) ∧ idle.resolve 0x23 = some (.font ⟨[(0x41, 0x21)]⟩) ∧
    fontLookup [(0x41, 0x21)] 0x20 = none := by
  have b : idle.resolve 0x40 = some (.bitmap ⟨2, 1, [0xF8, 0x00, 0x07, 0xE0]⟩) := by decide
  have t : idle.resolve 0x30 = some (.string [0x41, 0x41, 0x41]) := by decide
  refine ⟨rfl, ?_, ?_, by decide, by decide, by decide, rfl⟩
  · rw [b]
    simp
  · rw [t]
    simp

/-- How an 'A' and then a byte run at (237, 0) in a font of the entry of 'A' and another one. -/
def secondByte (entry : Nat × Handle) (c : Byte) : StringPlan :=
  (texts ⟨[(0x41, 0x21), entry]⟩ [0x41, c]).stringPlan ⟨[(0x41, 0x21), entry]⟩ [0x41, c] 237 0

/-- Every fault in the middle of a string, after one glyph: a tab, a newline and a wrap without a space glyph, a space
glyph and a character that are no glyphs, a glyph of format 0, a glyph of too few bytes. -/
theorem witness_DrawStringFaults_inside :
    secondByte (0x42, 0x21) 0x09 = ⟨[(ga, 237, 0)], some .noSpaceGlyph⟩ ∧
    secondByte (0x42, 0x21) 0x0A = ⟨[(ga, 237, 0)], some .noSpaceGlyph⟩ ∧
    secondByte (0x42, 0x21) 0x41 = ⟨[(ga, 237, 0)], some .noSpaceGlyph⟩ ∧
    secondByte (0x20, 0x40) 0x0A = ⟨[(ga, 237, 0)], some .badAsset⟩ ∧
    secondByte (0x42, 0x99) 0x42 = ⟨[(ga, 237, 0)], some .badAsset⟩ ∧
    secondByte (0x42, 0x05) 0x42 = ⟨[(ga, 237, 0)], some .glyphFormat⟩ ∧
    (texts ⟨[(0x42, 0x06)]⟩ [0x42]).stringPlan ⟨[(0x42, 0x06)]⟩ [0x42] 237 0 = ⟨[], some .assetRange⟩ := by decide

theorem witness_DrawBitmapStreamsItsBytes :
    idle.resolve 0x42 = some (.bitmap ⟨0, 3, []⟩) ∧ idle.resolve 0x40 = some (.bitmap ⟨2, 1, [0xF8, 0x00, 0x07, 0xE0]⟩) ∧
    2 * (2 : Word).toNat * (1 : Word).toNat ≤ [0xF8, 0x00, 0x07, 0xE0].length := by decide

theorem witness_AssetFaultsComeBeforeAnyEvent :
    idle.status.fault = false ∧ idle.resolve 0x99 = none ∧ idle.resolve 0x05 = some (.glyph g5) ∧ g5.bpr.toNat = 0 ∧
    idle.resolve 0x06 = some (.glyph ⟨2, 8, 8, [0x00]⟩) ∧ (2 * 8 + 8 - 1) / 8 > [0x00].length ∧
    idle.resolve 0x41 = some (.bitmap ⟨2, 2, [0, 0, 0, 0, 0, 0]⟩) ∧ [0, 0, 0, 0, 0, 0].length < 2 * 2 * 2 := by decide

theorem witness_OnlyInitSettles : (∃ t, exec .init idle = .next t) ∧ ∃ t, exec (.fillScreen 0) idle = .next t :=
  ⟨⟨_, rfl⟩, ⟨_, rfl⟩⟩

theorem witness_UncheckedOperationsIgnoreTheSurface :
    (Instr.drawPixel 300 0 1).ignoresSurface = true ∧ ∃ t, exec (.drawPixel 300 0 1) idle = .next t := ⟨rfl, _, rfl⟩

theorem witness_FillRectPaintsTheClippedRectangle :
    (239 : Word).toNat < shown.w.toNat ∧ (0 : Word).toNat < shown.h.toNat ∧ (2 : Word) ≠ 0 ∧ (239 : Nat) < 65536 ∧
    (after (exec (.fillRect 239 0 2 1 7) shown)).panel.undef = false ∧ shown.panel.settled ∧
    shown.w.toNat ≤ shown.params.panelW.toNat ∧ shown.h.toNat ≤ shown.params.panelH.toNat := by
  unfold Panel.settled
  decide

theorem witness_FillRectFastPaintsItsRectangle :
    ((0 : Word) = 0) ∧ ((1 : Word) ≠ 0 ∧ (239 : Word).toNat + (1 : Word).toNat ≤ 65536 ∧
      (after (exec (.fillRectFast 239 239 1 1 7) shown)).panel.undef = false) ∧
    (65535 : Word).toNat + (2 : Word).toNat > 65536 := by decide

theorem witness_DrawPixelPaintsOnePixel : (after (exec (.drawPixel 239 239 7) shown)).panel.undef = false := by decide

theorem witness_LinesKeepPixelsOutsideTheirBlocks :
    inWindow (lower 8 7).toNat (3 : Word).toNat (upper 8 7).toNat ((3 : Word).toNat + (1 : Byte).toNat - 1) 9 3 = false ∧
    inWindow (4 : Word).toNat (lower 3 2).toNat ((4 : Word).toNat + (1 : Byte).toNat - 1) (upper 3 2).toNat 5 2 = false ∧
    ∀ q ∈ linePoints 0 0 2 1,
      ¬ (q.1 ≤ (2 : Nat) ∧ (2 : Nat) < q.1 + (1 : Byte).toNat ∧ q.2 ≤ (0 : Nat) ∧ (0 : Nat) < q.2 + (1 : Byte).toNat) := by
  decide

/-- The observer is defined after the lines of the witness. -/
theorem witness_LinesKeepPixelsOutsideTheirBlocks_defined :
    (after (exec (.drawFastHLine 8 3 7 1 7) shown)).panel.undef = false ∧
    (after (exec (.drawFastVLine 4 3 2 1 7) shown)).panel.undef = false ∧
    (after (exec (.drawLine 0 0 2 1 1 7) shown)).panel.undef = false := by decide

/-- P2: the corner (23, 22) is off the edges. -/
theorem witness_OutlineKeepsPixelsOffItsEdges :
    (20 : Word).toNat < idle.w.toNat ∧ (20 : Word).toNat < idle.h.toNat ∧ (3 : Word) ≠ 0 ∧ (2 : Word) ≠ 0 ∧
    (after (exec (.drawRectangle 20 20 3 2 7) shown)).panel.undef = false ∧
    3 = min (3 : Word).toNat (idle.w.toNat - (20 : Word).toNat) ∧ 2 = min (2 : Word).toNat (idle.h.toNat - (20 : Word).toNat) ∧
    ¬ ((20 : Word).toNat ≤ 23 ∧ 23 < (20 : Word).toNat + 3 ∧ (22 = (20 : Word).toNat ∨ 22 = (20 : Word).toNat + 2)) ∧
    ¬ ((20 : Word).toNat ≤ 22 ∧ 22 < (20 : Word).toNat + 2 ∧ (23 = (20 : Word).toNat ∨ 23 = (20 : Word).toNat + 3)) := by decide

/-- Pixel (5, 4) is outside G2's column 3, and pixel (0, 0) outside the one cell of "B\tA" at (0, 0). -/
theorem witness_TextKeepsPixelsOutsideItsCells :
    idle.resolve 0x02 = some (.glyph g2) ∧
    (∀ i < g2.w.toNat, ∀ j < g2.h.toNat, ¬ (5 = ((3 : Word).toNat + i) % 65536 ∧ 4 = ((4 : Word).toNat + j) % 65536)) ∧
    idle.resolve 0x32 = some (.string [0x42, 0x09, 0x41]) ∧
    idle.resolve 0x20 = some (.font ⟨[(0x20, 0x22), (0x41, 0x21), (0x41, 0x01)]⟩) ∧
    (∀ q ∈ (idle.stringPlan ⟨[(0x20, 0x22), (0x41, 0x21), (0x41, 0x01)]⟩ [0x42, 0x09, 0x41] 0 0).drawn,
      ∀ i < q.1.w.toNat, ∀ j < q.1.h.toNat, ¬ (0 = (q.2.1.toNat + i) % 65536 ∧ 0 = (q.2.2.toNat + j) % 65536)) :=
  ⟨by decide, by decide, by decide, by decide, by decide⟩

/-- The observer is defined after the text of the witness. -/
theorem witness_TextKeepsPixelsOutsideItsCells_defined :
    (after (exec (.drawChar 3 4 1 0 0x02 false) shown)).panel.undef = false ∧
    (after (exec (.drawStringMain 0 0 0x32 1 0 0x20 false) shown)).panel.undef = false := by decide

/-- The block with a window of four pixels armed. -/
def armed : State := after (exec (.setWindow 10 20 11 21) shown)

theorem witness_FillColorStaysInTheWindow :
    shown.panel.armed = false ∧ armed.panel.armed = true ∧ (armed.panel.xs.toNat : Int) ≤ armed.panel.px ∧
    armed.panel.px ≤ armed.panel.xe.toNat ∧ (armed.panel.ys.toNat : Int) ≤ armed.panel.py ∧
    (after (exec (.fillColor 7 4) armed)).panel.undef = false ∧
    inWindow armed.panel.xs.toNat armed.panel.ys.toNat armed.panel.xe.toNat armed.panel.ye.toNat 12 20 = false := by decide

theorem witness_BitmapPixelsLandInPlace :
    shown.resolve 0x40 = some (.bitmap ⟨2, 1, [0xF8, 0x00, 0x07, 0xE0]⟩) ∧
    (after (exec (.drawBitmap 238 239 0x40) shown)).panel.undef = false ∧ shown.panel.settled ∧
    (238 : Word).toNat + (2 : Word).toNat ≤ shown.params.panelW.toNat ∧
    (239 : Word).toNat + (1 : Word).toNat ≤ shown.params.panelH.toNat := by
  unfold Panel.settled
  decide

/-- INIT, and one operation of each family whose last byte is data. -/
theorem witness_CommandsEndTheStream :
    (∃ t, exec .init shown = .next t) ∧ (1 : Long) ≠ 0 ∧
    ∀ i ∈ [Instr.rotateDisplay 1, .drawPixel 0 0 1, .fillRect 0 0 1 2 3, .fillRectFast 0 0 1 2 3, .drawRectangle 0 0 1 1 3,
        .drawFastHLine 0 0 1 1 3, .drawFastVLine 0 0 1 1 3, .drawLine 0 0 2 1 1 3, .drawChar 3 4 1 0 0x02 false,
        .drawStringMain 0 0 0x32 1 0 0x20 false, .drawBitmap 0 0 0x40],
      i.isWire = false ∧ endsInData (events i) := by
  refine ⟨⟨_, rfl⟩, by decide, ?_⟩
  simp only [List.forall_mem_cons, List.not_mem_nil, false_implies, implies_true, and_true]
  refine ⟨?_, ?_, ?_, ?_, ?_, ?_, ?_, ?_, ?_, ?_, ?_⟩ <;> exact ⟨rfl, _, rfl⟩

theorem witness_OverrunIsUndefined :
    (10 : Word).toNat ≤ (11 : Word).toNat ∧ (20 : Word).toNat ≤ (21 : Word).toNat ∧ exec (.setWindow 10 20 11 21) shown = .next armed ∧
    (5 : Long).toNat > ((11 : Word).toNat - (10 : Word).toNat + 1) * ((21 : Word).toNat - (20 : Word).toNat + 1) ∧
    (4 : Long).toNat ≤ ((11 : Word).toNat - (10 : Word).toNat + 1) * ((21 : Word).toNat - (20 : Word).toNat + 1) ∧
    shown.panel.settled ∧ (11 : Word).toNat < shown.params.panelW.toNat ∧ (21 : Word).toNat < shown.params.panelH.toNat :=
  ⟨by decide, by decide, rfl, by decide, by decide, rfl, by decide, by decide⟩

theorem witness_UndefinedUntilInit :
    Instr.fillScreen 0 ≠ .init ∧ idle.panel.undef = true ∧ ∃ t, exec (.fillScreen 0) idle = .next t :=
  ⟨by decide, rfl, _, rfl⟩

theorem witness_WireCommandsAndThePanel :
    shown.panel.initFirst = false ∧ (∃ t, exec .wireSoftwareReset shown = .next t) ∧
    (∃ t, exec (.wireMemoryAccessControl 0) shown = .next t) ∧ Instr.wireMemoryWrite.isWire = true := ⟨rfl, ⟨_, rfl⟩, ⟨_, rfl⟩, rfl⟩

theorem witness_StepKeepsStatusAgreement :
    ({ idle with host := [.offer [0x0100]] } : State).statusAgrees ∧
    ∃ t, step { idle with host := [.offer [0x0100]] } = .next t :=
  ⟨by simp [State.statusAgrees, idle, block, State.resetWith], _, rfl⟩

theorem witness_StepKeepsSurfaceInvariant :
    (running [0x6001] []).surfaceFollows ∧ ∃ t, step (running [0x6001] []) = .next t ∧ t.orient = 1 :=
  ⟨by unfold State.surfaceFollows; decide, _, rfl, rfl⟩

theorem witness_StepKeepsMemoryCanonical :
    (running [0x5000, 0, 0, 0, 0x0040] []).memoryOk ∧ ∃ t, step (running [0x5000, 0, 0, 0, 0x0040] []) = .next t :=
  ⟨⟨by decide, by decide, by simp [gramInRange, running, idle, block, State.resetWith, Panel.reset]⟩, _, rfl⟩

theorem witness_StepKeepsGroupsClosed :
    ((block .perGroup).latch (.descriptor [0x0100])).groupsClosed ∧
    ∃ t, step ((block .perGroup).latch (.descriptor [0x0100])) = .next t ∧ t.trace.length = 36 :=
  ⟨⟨by decide, rfl⟩, _, rfl, by decide⟩

end Sys2Proof.Tests
end

/-! What every operation leaves as it was (spec/10_state.md R22, R26, R29; spec/20_memory.md R74), from `exec_cases`. -/

namespace Sys2Proof.Machine

/-- All of a state that painting cannot write, the surface registers among it; TRACE only grows. -/
structure KeepsUnpainted (s t : State) : Prop where
  params : t.params = s.params
  assets : t.assets = s.assets
  host : t.host = s.host
  readData : t.readData = s.readData
  inited : t.status.inited = s.status.inited
  w : t.w = s.w
  h : t.h = s.h
  orient : t.orient = s.orient
  trace : ∃ es, t.trace = s.trace ++ es

theorem Paints.keepsUnpainted {s t : State} (p : Paints s t) : KeepsUnpainted s t := by
  obtain ⟨es, -, draws⟩ := p
  rw [draws]
  exact ⟨rfl, rfl, rfl, rfl, rfl, rfl, rfl, rfl, es, rfl⟩

/-- Completion and fault entry write only STATUS, FAULT_CODE and SEQ, and not INITED. -/
theorem Ends.keepsUnpainted {s t : State} (e : Ends s t) : KeepsUnpainted s t := by
  obtain ⟨u, p, rfl | ⟨c, rfl⟩⟩ := e
  · exact { p.keepsUnpainted with }
  · exact { p.keepsUnpainted with }

/-- An operation's end clears BUSY, faulted or not (R27). -/
theorem Ends.busy {s t : State} (e : Ends s t) : t.status.busy = false := by
  obtain ⟨u, -, rfl | ⟨c, rfl⟩⟩ := e
  · rfl
  · rfl

/-- Settles O41: by `exec_cases`, INIT writes the surface and INITED, ROTATE_DISPLAY writes the surface after it paints,
and every other operation only paints and ends. -/
theorem operationsKeepWhatTheyDoNotWrite : Obligations.OperationsKeepWhatTheyDoNotWrite := by
  intro i s
  obtain ⟨t, run, ⟨rfl, rfl⟩ | ⟨rotation, rfl, u, paints, rfl⟩ | ⟨notInit, -, ends⟩⟩ := exec_cases i s
  · -- The field laws of `emitAll`, `afterInit` and `complete` say all of it.
    refine ⟨_, run, ?_⟩
    simp [Instr.writesSurface]
  · have k := paints.keepsUnpainted
    refine ⟨_, run, k.params, k.assets, k.host, k.readData, ?_, rfl, ?_, k.trace⟩
    · simpa using k.inited
    · simp [Instr.writesSurface]
  · have k := ends.keepsUnpainted
    refine ⟨t, run, k.params, k.assets, k.host, k.readData, ?_, ends.busy, fun _ => ⟨k.w, k.h, k.orient⟩, k.trace⟩
    simpa [notInit] using k.inited

end Sys2Proof.Machine

/-! The registers and the sequencer over one step (spec/10_state.md R22 to R32, R43, R44), from `step_cases` and
`exec_cases`. -/

namespace Sys2Proof.Machine

/-! ## The end of a run -/

/-- What the end of a run does to STATUS, FAULT_CODE and SEQ: normal completion (R16, R43), or the entry of a fault, which
keeps an earlier code (R30, R180). -/
inductive Concludes (s t : State) : Prop
  | completed (seq : t.seq = .idle) (busy : t.status.busy = false) (fault : t.status.fault = s.status.fault)
      (code : t.faultCode = s.faultCode)
  | faulted (c : FaultCode) (seq : t.seq = .halted) (busy : t.status.busy = false) (fault : t.status.fault = true)
      (code : t.faultCode = if s.status.fault then s.faultCode else c.code)

theorem Paints.status {s u : State} (p : Paints s u) : u.status = s.status := by
  obtain ⟨es, -, draws⟩ := p
  rw [draws]
  rfl

theorem Paints.faultCode {s u : State} (p : Paints s u) : u.faultCode = s.faultCode := by
  obtain ⟨es, -, draws⟩ := p
  rw [draws]
  rfl

theorem Ends.concludes {s t : State} (e : Ends s t) : Concludes s t := by
  obtain ⟨u, paints, rfl | ⟨c, rfl⟩⟩ := e
  · exact .completed rfl rfl (by simp [paints.status]) paints.faultCode
  · exact .faulted c rfl rfl rfl (by simp [paints.status, paints.faultCode])

/-- Every operation concludes: INIT and ROTATE_DISPLAY complete, and every other one completes or faults. -/
theorem exec_concludes {i : Instr} {s t : State} (run : exec i s = .next t) : Concludes s t := by
  obtain ⟨t', run', kind⟩ := exec_cases i s
  obtain rfl : t' = t := Host.Outcome.next.inj (run'.symm.trans run)
  obtain ⟨-, rfl⟩ | ⟨rotation, -, u, paints, rfl⟩ | ⟨-, -, ends⟩ := kind
  · exact .completed rfl rfl (by simp) (by simp)
  · exact .completed rfl rfl (by simp [paints.status]) paints.faultCode
  · exact ends.concludes

/-- The run of what was accepted is the meaning of what it decodes to, or the fault of what decodes to nothing (R83). -/
theorem runLatched_next {s t : State} (run : s.runLatched = .next t) :
    (∃ i, exec i s = .next t) ∨ t = s.raiseFault .illegalOp := by
  obtain ⟨t', run', kind⟩ := runLatched_cases s
  obtain rfl : t' = t := Host.Outcome.next.inj (run'.symm.trans run)
  exact kind.imp (fun ⟨i, _, e⟩ => ⟨i, e⟩) And.right

theorem runLatched_concludes {s t : State} (run : s.runLatched = .next t) : Concludes s t := by
  obtain ⟨i, e⟩ | rfl := runLatched_next run
  · exact exec_concludes e
  · exact .faulted .illegalOp rfl rfl rfl rfl

/-! ## A step, by what it does to the registers -/

/-- The parameters, SEQ and every register of the map (R22) are as they were. -/
structure KeepsRegisters (s t : State) : Prop where
  params : t.params = s.params
  w : t.w = s.w
  h : t.h = s.h
  orient : t.orient = s.orient
  status : t.status = s.status
  faultCode : t.faultCode = s.faultCode
  seq : t.seq = s.seq

theorem readRegister_keepsRegisters (s : State) (k : Nat) : KeepsRegisters s (s.readRegister k) := by
  rw [readRegister_frame]
  exact ⟨rfl, rfl, rfl, rfl, rfl, rfl, rfl⟩

/-- A host that waits has no register read in front of a running operation. -/
theorem not_hostWaits_of_pending_readReg {s : State} {k : Nat} {rest : List HostAction} (busy : s.seq = .busy)
    (hp : s.pending = .readReg k :: rest) : ¬ s.hostWaits := fun waits =>
  waits.2 k rest (pending_busy busy ▸ hp)

/-- A step is a block reset, a step that writes no register, an acceptance, or the run of what was accepted. -/
theorem step_registers {s t : State} (run : step s = .next t) :
    (∃ rest, s.pending = .blockReset :: rest ∧ t = { s.blockReset with host := rest }) ∨
    (KeepsRegisters s t ∧ (s.seq ≠ .busy ∨ ¬ s.hostWaits)) ∨
    (∃ ws rest, s.pending = .offer ws :: rest ∧ s.seq = .idle ∧ t = { s.accept ws with host := rest }) ∨
    (s.seq = .busy ∧ s.hostWaits ∧ s.runLatched = .next t) := by
  obtain reset | ⟨k, rest, hp, rfl⟩ | accepts | ⟨hd, a, rest, -, rests, rfl⟩ | ⟨rest, -, rests, rfl⟩ |
    ⟨-, idle, rfl⟩ | runs := step_cases run
  · exact .inl reset
  · refine .inr (.inl ⟨{ readRegister_keepsRegisters s k with }, ?_⟩)
    exact not_or_of_imp fun busy => not_hostWaits_of_pending_readReg busy hp
  · exact .inr (.inr (.inl accepts))
  · exact .inr (.inl ⟨⟨rfl, rfl, rfl, rfl, rfl, rfl, rfl⟩, .inl rests⟩)
  · exact .inr (.inl ⟨⟨rfl, rfl, rfl, rfl, rfl, rfl, rfl⟩, .inl rests⟩)
  · exact .inr (.inl ⟨⟨rfl, rfl, rfl, rfl, rfl, rfl, rfl⟩, .inl (by simp [idle])⟩)
  · exact .inr (.inr (.inr runs))

/-! ## STATUS, FAULT_CODE and SEQ -/

theorem FaultCode.code_bounds (c : FaultCode) : 1 ≤ c.code.toNat ∧ c.code.toNat ≤ 5 := by
  cases c <;> decide

theorem KeepsRegisters.statusAgrees {s t : State} (k : KeepsRegisters s t) (agrees : s.statusAgrees) :
    t.statusAgrees := by
  unfold State.statusAgrees at agrees ⊢
  rwa [k.status, k.seq, k.faultCode]

/-- An IDLE block that agrees has no fault, so the accepted descriptor sets BUSY alone. -/
theorem accept_statusAgrees {s : State} (agrees : s.statusAgrees) (idle : s.seq = .idle) (ws : List Word) :
    (s.accept ws).statusAgrees := by
  obtain ⟨-, halted, noCode, -⟩ := agrees
  have noFault : s.status.fault = false := by simpa [idle] using halted
  simp [State.statusAgrees, noFault, noCode noFault]

/-- A running block that agrees has no fault, so a run that faults records its own code, one of R178. -/
theorem Concludes.statusAgrees {s t : State} (conc : Concludes s t) (agrees : s.statusAgrees) (running : s.seq = .busy) :
    t.statusAgrees := by
  obtain ⟨-, halted, noCode, -⟩ := agrees
  have noFault : s.status.fault = false := by simpa [running] using halted
  cases conc with
  | completed seq busy fault code => simp [State.statusAgrees, seq, busy, fault, code, noFault, noCode noFault]
  | faulted c seq busy fault code => simpa [State.statusAgrees, seq, busy, fault, code, noFault] using c.code_bounds

/-- Settles O57, over the four kinds of step. -/
theorem stepKeepsStatusAgreement : Obligations.StepKeepsStatusAgreement := by
  intro s t agrees run
  obtain ⟨rest, -, rfl⟩ | ⟨keeps, -⟩ | ⟨ws, rest, -, idle, rfl⟩ | ⟨busy, -, run⟩ := step_registers run
  · simp [State.statusAgrees]
  · exact keeps.statusAgrees agrees
  · exact accept_statusAgrees agrees idle ws
  · exact (runLatched_concludes run).statusAgrees agrees busy

/-- Settles O9: completion keeps FAULT and its code, and a fault raised while FAULT = 1 keeps the code (R30). -/
theorem firstFaultCodeIsKept : Obligations.FirstFaultCodeIsKept := by
  intro s t fault noReset run
  obtain ⟨rest, hp, -⟩ | ⟨keeps, -⟩ | ⟨ws, rest, -, -, rfl⟩ | ⟨-, -, run⟩ := step_registers run
  · exact absurd hp (noReset rest)
  · exact ⟨keeps.status ▸ fault, keeps.faultCode⟩
  · exact ⟨fault, rfl⟩
  · cases runLatched_concludes run with
    | completed _ _ sameFault code => exact ⟨sameFault.trans fault, code⟩
    | faulted c _ _ fault' code => exact ⟨fault', by simpa [fault] using code⟩

/-- Settles O4, over the four kinds of step: the run of an operation is the two transitions out of BUSY. -/
theorem sequencerTransitionsAreTheListedOnes : Obligations.SequencerTransitionsAreTheListedOnes := by
  intro s t run
  obtain ⟨rest, hp, rfl⟩ | ⟨keeps, quiet⟩ | ⟨ws, rest, hp, idle, rfl⟩ | ⟨busy, waits, run⟩ := step_registers run
  · exact .inr (.inr (.inr (.inr ⟨rest, hp, rfl⟩)))
  · exact .inl ⟨keeps.seq, quiet⟩
  · exact .inr (.inl ⟨ws, rest, idle, hp, rfl, rfl⟩)
  · cases runLatched_concludes run with
    | completed seq done => exact .inr (.inr (.inl ⟨busy, waits, seq, done⟩))
    | faulted c seq done fault => exact .inr (.inr (.inr (.inl ⟨busy, waits, seq, done, fault⟩)))

/-! ## W, H and ORIENT -/

/-- The surface invariant is about the parameters and the three surface registers alone. -/
theorem State.surfaceFollows.transfer {s t : State} (follows : s.surfaceFollows) (params : t.params = s.params)
    (w : t.w = s.w) (h : t.h = s.h) (orient : t.orient = s.orient) : t.surfaceFollows := by
  unfold State.surfaceFollows at follows ⊢
  rwa [params, w, h, orient]

theorem KeepsRegisters.surfaceFollows {s t : State} (k : KeepsRegisters s t) (follows : s.surfaceFollows) :
    t.surfaceFollows :=
  follows.transfer k.params k.w k.h k.orient

theorem Ends.surfaceFollows {s t : State} (e : Ends s t) (follows : s.surfaceFollows) : t.surfaceFollows :=
  have k := e.keepsUnpainted
  follows.transfer k.params k.w k.h k.orient

/-- INIT and ROTATE_DISPLAY write W and H from the orientation they write; no other operation writes one of the three. -/
theorem exec_surfaceFollows {i : Instr} {s t : State} (follows : s.surfaceFollows) (run : exec i s = .next t) :
    t.surfaceFollows := by
  obtain ⟨t', run', kind⟩ := exec_cases i s
  obtain rfl : t' = t := Host.Outcome.next.inj (run'.symm.trans run)
  obtain ⟨-, rfl⟩ | ⟨rotation, -, u, -, rfl⟩ | ⟨-, -, ends⟩ := kind
  · rfl
  · rfl
  · exact ends.surfaceFollows follows

theorem runLatched_surfaceFollows {s t : State} (follows : s.surfaceFollows) (run : s.runLatched = .next t) :
    t.surfaceFollows := by
  obtain ⟨i, e⟩ | rfl := runLatched_next run
  · exact exec_surfaceFollows follows e
  · exact follows

/-- Settles O58: a reset and the two operations that turn the surface set it anew, and nothing else writes it. -/
theorem stepKeepsSurfaceInvariant : Obligations.StepKeepsSurfaceInvariant := by
  intro s t follows run
  obtain ⟨rest, -, rfl⟩ | ⟨keeps, -⟩ | ⟨ws, rest, -, -, rfl⟩ | ⟨-, -, run⟩ := step_registers run
  · rfl
  · exact keeps.surfaceFollows follows
  · exact follows
  · exact runLatched_surfaceFollows follows run

/-! ## Register reads -/

theorem step_readReg {s : State} {k : Nat} {rest : List HostAction} (hp : s.pending = .readReg k :: rest) :
    step s = .next { s.readRegister k with host := rest } := by
  simp [step, State.advance, hp]

theorem Status.word_toNat (st : Status) :
    st.word.toNat = (if st.busy then 1 else 0) + (if st.fault then 2 else 0) + (if st.inited then 4 else 0) := by
  obtain ⟨busy, fault, inited⟩ := st
  cases busy <;> cases fault <;> cases inited <;> decide

theorem configWord_toNat (p : Params) : (configWord p).toNat = if p.csMode = .perGroup then 1 else 0 := by
  unfold configWord
  cases p.csMode <;> rfl

/-- The registers as numbers, by index (R22, R32). -/
theorem State.reg_toNat (s : State) (k : Nat) :
    (s.reg k).toNat =
      if k = 0 then s.w.toNat else if k = 1 then s.h.toNat else if k = 2 then s.orient.toNat
      else if k = 3 then
        (if s.status.busy then 1 else 0) + (if s.status.fault then 2 else 0) + (if s.status.inited then 4 else 0)
      else if k = 4 then s.faultCode.toNat
      else if k = 5 then (if s.params.csMode = .perGroup then 1 else 0) else 0 := by
  match k with
  | 0 => rfl
  | 1 => rfl
  | 2 => exact BitVec.toNat_setWidth_of_le (by decide)
  | 3 => exact s.status.word_toNat
  | 4 => exact BitVec.toNat_setWidth_of_le (by decide)
  | 5 => exact configWord_toNat s.params
  | n + 6 => simp [State.reg]

/-- A surface register is one of the first three of the map. -/
theorem isSurfaceReg_iff (k : Nat) : isSurfaceReg k = true ↔ k ≤ 2 := by
  simp only [isSurfaceReg, Bool.or_eq_true, beq_iff_eq]
  omega

theorem readData_of_steady {s : State} {k : Nat} (steady : s.seq ≠ .busy ∨ 3 ≤ k) :
    (s.readRegister k).readData = s.reg k := by
  have notSurface : s.seq = .busy → isSurfaceReg k = false := by
    intro busy
    rw [← Bool.not_eq_true, isSurfaceReg_iff]
    have := steady.resolve_left (not_not_intro busy)
    omega
  cases hq : s.seq with
  | busy => simp [State.readRegister, hq, notSurface hq]
  | idle => simp [State.readRegister, hq]
  | halted => simp [State.readRegister, hq]

/-- A read of a surface register while BUSY returns it before or after the running operation's write (R32). -/
theorem readData_of_busy {s u : State} {k : Nat} (busy : s.seq = .busy) (surface : k ≤ 2)
    (run : s.runLatched = .next u) :
    (s.readRegister k).readData = s.reg k ∨ (s.readRegister k).readData = u.reg k := by
  have after : s.regAfter k = u.reg k := by simp [State.regAfter, run]
  have data : (s.readRegister k).readData = if Config.freeBit s.free then u.reg k else s.reg k := by
    simp [State.readRegister, busy, (isSurfaceReg_iff k).2 surface, after]
  rw [data]
  exact (ite_eq_or_eq _ _ _).symm

/-- Settles O8: the read's frame, the map as numbers, and the two values of a surface register while BUSY. -/
theorem registerReadsFollowTheMap : Obligations.RegisterReadsFollowTheMap := by
  intro s k rest hp
  refine ⟨_, step_readReg hp, ?frame, fun steady => ?map, fun busy surface => ?surface⟩
  case frame => rw [readRegister_frame]
  case map => exact (congrArg BitVec.toNat (readData_of_steady steady)).trans (s.reg_toNat k)
  case surface =>
    obtain ⟨u, run, -⟩ := runLatched_cases s
    refine ⟨u, run, ?_⟩
    have data := readData_of_busy busy surface run
    match k, surface with
    | 0, _ => exact .inl ⟨rfl, data⟩
    | 1, _ => exact .inr (.inl ⟨rfl, data⟩)
    | 2, _ =>
      have asNumber : ∀ v : State, (v.reg 2).toNat = v.orient.toNat := fun v => v.reg_toNat 2
      refine .inr (.inr ⟨rfl, data.imp (fun e => ?_) (fun e => ?_)⟩)
      · exact (congrArg BitVec.toNat e).trans (asNumber s)
      · exact (congrArg BitVec.toNat e).trans (asNumber u)

/-! ## Reset -/

theorem configWord_eq_zero_iff (p : Params) : configWord p = 0 ↔ p.csMode = .none := by
  unfold configWord
  cases p.csMode <;> simp

/-- Settles O1. -/
theorem resetHoldsTheListedValues : Obligations.ResetHoldsTheListedValues :=
  ⟨rfl, rfl, rfl, rfl, rfl, rfl, rfl, rfl, rfl, rfl, rfl, configWord_eq_zero_iff _⟩

/-- The state right after reset is safe whatever the parameters are. -/
theorem State.resetWith_safe (p : Params) : (State.resetWith p).Safe where
  status := by simp [State.statusAgrees, State.resetWith]
  surface := rfl
  memory := ⟨rfl, rfl, by simp [gramInRange, State.resetWith, Panel.reset]⟩
  groups := ⟨rfl, rfl⟩

/-- Settles O56. -/
theorem resetIsSafe : Obligations.ResetIsSafe := State.resetWith_safe _

/-- Offers in front are passed over. -/
theorem passOffers_append {offers : List HostAction} (all : offers.all HostAction.isOffer = true)
    (actions : List HostAction) : passOffers (offers ++ actions) = passOffers actions := by
  induction offers with
  | nil => rfl
  | cons a rest ih =>
    rw [List.all_cons, Bool.and_eq_true] at all
    obtain ⟨offer, all⟩ := all
    cases a with
    | offer words => exact ih all
    | readReg | blockReset | putAsset | wait => simp [HostAction.isOffer] at offer

/-- A reset in front is pending whatever SEQ is, and in HALTED one behind offers is too (R183, R194). -/
theorem pending_blockReset {s : State} {offers rest : List HostAction}
    (front : offers = [] ∨ (s.seq = .halted ∧ offers.all HostAction.isOffer = true))
    (host : s.host = offers ++ .blockReset :: rest) : s.pending = .blockReset :: rest := by
  obtain rfl | ⟨halted, all⟩ := front
  · unfold State.pending
    rw [host]
    split <;> rfl
  · simp [State.pending, halted, host, passOffers_append all, passOffers]

theorem step_blockReset {s : State} {rest : List HostAction} (hp : s.pending = .blockReset :: rest) :
    step s = .next { s.blockReset with host := rest } := by
  simp [step, State.advance, hp]

/-- Settles O2: the reset is pending, the step is `State.blockReset`, and its fields are the listed ones. -/
theorem blockResetRestoresTheListedValues : Obligations.BlockResetRestoresTheListedValues := fun _ _ _ front host =>
  ⟨_, step_blockReset (pending_blockReset front host),
    rfl, rfl, rfl, rfl, rfl, rfl, rfl, rfl, rfl, rfl, rfl, rfl, rfl, rfl⟩

/-! ## The operation that a step runs -/

theorem runLatched_of_decode {s : State} {i : Instr} (decodes : decode s.work.latch = .ok i) :
    s.runLatched = exec i s := by
  simp [State.runLatched, decodes]

/-- A latched descriptor has nothing of the host's before it. -/
theorem latch_hostWaits (s : State) (op : Fetched) : (s.latch op).hostWaits := by
  simp [State.hostWaits]

theorem decodeTableWord_some {nbits w : Nat} {i : Instr} (table : decodeTableWord nbits w = some i) :
    decode (tableFetched nbits w) = .ok i := by
  unfold decodeTableWord at table
  cases hd : decode (tableFetched nbits w) with
  | ok j => simpa [hd] using table
  | error e => simp [hd] at table

/-- Settles O6, both halves from `step_runs`. -/
theorem stepRunsTheLatchedOperation : Obligations.StepRunsTheLatchedOperation := by
  refine ⟨fun s i busy waits decodes => ?_, fun s nbits w i table => ?_⟩
  · exact (step_runs busy waits).trans (runLatched_of_decode decodes)
  · exact (step_runs rfl (latch_hostWaits s _)).trans (runLatched_of_decode (decodeTableWord_some table))

end Sys2Proof.Machine

/-! The panel observer and the two memories (spec/20_memory.md R47, R64 to R69): when a fill overruns its window, what only
INIT can mend, what each wire command does, and what every step keeps. -/

namespace Sys2Proof.Machine

/-! ## The observer after an operation -/

theorem State.emitAll_panel_after (s : State) (es : List Event) : (s.emitAll es).panel = s.panel.after s.params es := rfl

theorem Draws.panel {s u : State} {es : List Event} (draws : Draws s es u) : u.panel = s.panel.after s.params es := by
  rw [draws]
  rfl

theorem Paints.panel {s u : State} (p : Paints s u) : ∃ es, u.panel = s.panel.after s.params es := by
  obtain ⟨es, -, draws⟩ := p
  exact ⟨es, draws.panel⟩

theorem Ends.panel {s t : State} (e : Ends s t) : ∃ es, t.panel = s.panel.after s.params es := by
  obtain ⟨u, paints, rfl | ⟨c, rfl⟩⟩ := e
  · exact paints.panel
  · exact paints.panel

/-- The observer follows the wire through every operation; only INIT does more to it, once its events are out (R204). -/
theorem exec_panel {i : Instr} {s t : State} (run : exec i s = .next t) :
    (i = .init ∧ t.panel = (s.panel.after s.params (initEvents s.params)).afterInit s.free) ∨
    (i ≠ .init ∧ ∃ es, t.panel = s.panel.after s.params es) := by
  obtain ⟨t', run', kind⟩ := exec_cases i s
  obtain rfl : t' = t := Host.Outcome.next.inj (run'.symm.trans run)
  obtain ⟨isInit, rfl⟩ | ⟨rotation, rfl, u, paints, rfl⟩ | ⟨notInit, -, ends⟩ := kind
  · refine .inl ⟨isInit, ?_⟩
    rw [State.complete_panel, State.afterInit_panel, State.emitAll_panel_after, State.emitAll_free]
  · exact .inr ⟨by simp, paints.panel⟩
  · exact .inr ⟨notInit, ends.panel⟩

/-- Settles O54: no event makes the observer defined, and every operation but INIT only sends events. -/
theorem undefinedUntilInit : Obligations.UndefinedUntilInit := by
  intro i s t notInit undef run
  obtain ⟨isInit, -⟩ | ⟨-, es, panel⟩ := exec_panel run
  · exact absurd isInit notInit
  · rw [panel]
    exact Panel.after_undef es undef

/-! ## A window and a fill, one operation after the other -/

/-- SET_WINDOW and FILL_COLOR show the observer what one painted window shows it. -/
theorem setWindow_fillColor_panel (s : State) (x1 y1 x2 y2 color : Word) (n : Nat) :
    ((s.setWindow (zext x1) (zext y1) (zext x2) (zext y2)).complete.fillColor color n).panel =
      s.panel.after s.params (paintEvents s.params x1 y1 x2 y2 color n) := by
  have window := setWindow_draws s (zext x1) (zext y1) (zext x2) (zext y2)
  simp only [lo16_zext] at window
  have fill := (fillColor_draws (s.setWindow (zext x1) (zext y1) (zext x2) (zext y2)).complete color n).panel
  rw [State.complete_params, State.complete_panel, window.params, window.panel] at fill
  rw [fill, paintEvents, Panel.after_append]

/-- A fill of more pixels than a well-formed window holds leaves the observer undefined (R67). -/
theorem Panel.after_paint_overrun (p : Params) (q : Panel) {x1 y1 x2 y2 : Word} (color : Word) {n : Nat}
    (cols : x1.toNat ≤ x2.toNat) (rows : y1.toNat ≤ y2.toNat)
    (more : (x2.toNat - x1.toNat + 1) * (y2.toNat - y1.toNat + 1) < n) :
    (q.after p (paintEvents p x1 y1 x2 y2 color n)).undef = true := by
  have width : x1.toNat + (x2.toNat - x1.toNat + 1) = x2.toNat + 1 := by omega
  have height : y1.toNat + (y2.toNat - y1.toNat + 1) = y2.toNat + 1 := by omega
  rw [Panel.after_paint]
  exact Panel.takePixels_overrun _ (q.windowed_at x1 y1 x2 y2 width (by omega)) height (Nat.zero_le _)
    (by simpa using more)

/-- Settles O53: both operations together are one painted window. -/
theorem overrunIsUndefined : Obligations.OverrunIsUndefined := by
  intro s t x1 y1 x2 y2 color n cols rows run
  obtain rfl := Host.Outcome.next.inj run
  refine ⟨_, rfl, fun more => ?overrun, fun room settled inx iny => ?fits⟩
  all_goals rw [State.complete_panel, setWindow_fillColor_panel]
  case overrun => exact Panel.after_paint_overrun s.params s.panel color cols rows more
  case fits => exact Panel.after_paint_undef s.params color settled cols rows room inx iny

/-! ## The wire commands -/

/-- Every command byte but memory-write's leaves the observer not armed (R65, R68). -/
theorem Panel.takeCmd_armed (q : Panel) {c : Byte} (notWrite : c ≠ 0x2C) : (q.takeCmd c).armed = false := by
  simp only [Panel.takeCmd, if_neg notWrite]
  split
  · rfl
  · split <;> rfl

/-- A command byte changes no pixel, but for memory-access-control's, which makes every pixel unknown (R69). -/
theorem Panel.takeCmd_gram (q : Panel) (c : Byte) : (q.takeCmd c).gram = if c = 0x36 then [] else q.gram := by
  unfold Panel.takeCmd
  by_cases access : c = 0x36
  · simp [access]
  · simp only [if_neg access]
    split
    · rfl
    · split <;> rfl

theorem bytesEvents_dataOnly (p : Params) (bs : List Byte) : dataOnly (bytesEvents p bs) := by
  have sent : ∀ e ∈ bs.map Event.dat, ∃ b, e = .dat b := by simp
  intro e mem
  unfold bytesEvents bracketed at mem
  split at mem
  · simp at mem
  · split at mem
    · exact .inl (sent e mem)
    · simp only [List.mem_append, List.mem_singleton] at mem
      obtain (edge | byte) | edge := mem
      · exact .inr (.inl edge)
      · exact .inl (sent e byte)
      · exact .inr (.inr edge)

theorem wireCommand_panel (s : State) (c : Byte) (bs : List Byte) :
    (s.wireCommand c bs).panel = (s.panel.takeCmd c).after s.params (bytesEvents s.params bs) := by
  rw [(wireCommand_draws s c bs).panel, Panel.after_append, Panel.after_bracketed]
  rfl

/-- A wire command writes no pixel with its own data bytes: they come with the observer not armed, and memory-write has
none. -/
theorem wireCommand_gram (s : State) {c : Byte} {bs : List Byte} (noPixels : c ≠ 0x2C ∨ bs = []) :
    (s.wireCommand c bs).panel.gram = if c = 0x36 then [] else s.panel.gram := by
  rw [wireCommand_panel, ← Panel.takeCmd_gram]
  obtain notWrite | rfl := noPixels
  · obtain ⟨-, keeps, -⟩ := Panel.after_dataOnly s.params (bytesEvents_dataOnly s.params bs) (s.panel.takeCmd c)
    exact keeps (Panel.takeCmd_armed _ notWrite)
  · rfl

/-- Memory-access-control makes every pixel unknown (R69). -/
theorem memoryAccessControl_gram (s : State) (pat : Byte) : (s.memoryAccessControl pat).panel.gram = [] :=
  (wireCommand_gram s (.inl (by simp))).trans (if_pos rfl)

/-- A software reset that is not INIT's first command leaves the observer undefined (R69). -/
theorem softwareReset_undef {s : State} (outside : s.panel.initFirst = false) : s.softwareReset.panel.undef = true := by
  change (s.wireCommand 0x01 []).panel.undef = true
  rw [wireCommand_panel]
  simp [bytesEvents, Panel.takeCmd, outside]

/-- A wire instruction sends one wire command; its data bytes are the command's own. -/
theorem exec_wire {i : Instr} (wire : i.isWire = true) (s : State) :
    ∃ c bs, exec i s = .next (s.wireCommand c bs).complete ∧ (c ≠ 0x2C ∨ bs = []) ∧
      (c = 0x36 → ∃ pat, i = .wireMemoryAccessControl pat) := by
  cases i with
  | wireSoftwareReset => exact ⟨_, _, rfl, .inr rfl, by simp⟩
  | wireSleepOut => exact ⟨_, _, rfl, .inr rfl, by simp⟩
  | wireColorMode => exact ⟨_, _, rfl, .inl (by simp), by simp⟩
  | wireMemoryAccessControl pat => exact ⟨_, _, rfl, .inl (by simp), fun _ => ⟨pat, rfl⟩⟩
  | wireInversionOn => exact ⟨_, _, rfl, .inr rfl, by simp⟩
  | wireNormalDisplayOn => exact ⟨_, _, rfl, .inr rfl, by simp⟩
  | wireDisplayOn => exact ⟨_, _, rfl, .inr rfl, by simp⟩
  | wireColumnAddressSet => exact ⟨_, _, rfl, .inl (by simp), by simp⟩
  | wireRowAddressSet => exact ⟨_, _, rfl, .inl (by simp), by simp⟩
  | wireMemoryWrite => exact ⟨_, _, rfl, .inr rfl, by simp⟩
  | _ => simp [Instr.isWire] at wire

/-- Settles O55: the pixels by `wireCommand_gram`, and the reset by `softwareReset_undef`. -/
theorem wireCommandsAndThePanel : Obligations.WireCommandsAndThePanel := by
  intro s t
  refine ⟨fun pat run => ?access, fun rotation run => ?rotate, fun outside run => ?reset,
    fun i wire notAccess run => ?others⟩
  case access =>
    obtain rfl := Host.Outcome.next.inj run
    exact memoryAccessControl_gram s _
  case rotate =>
    obtain rfl := Host.Outcome.next.inj run
    exact memoryAccessControl_gram s _
  case reset =>
    obtain rfl := Host.Outcome.next.inj run
    exact softwareReset_undef outside
  case others =>
    obtain ⟨c, bs, run', noPixels, access⟩ := exec_wire wire s
    obtain rfl := Host.Outcome.next.inj (run'.symm.trans run)
    have other : c ≠ 0x36 := fun h => let ⟨pat, isAccess⟩ := access h; notAccess pat isAccess
    exact (wireCommand_gram s noPixels).trans (if_neg other)

/-! ## Both memories over one step -/

theorem State.memoryOk_iff (s : State) : s.memoryOk ↔ Memory.wf s.assets = true ∧ s.panel.gramOk s.params := Iff.rfl

theorem Panel.gramOk_of_unknown {p : Params} {q : Panel} (unknown : q.gram = []) : q.gramOk p := by
  simp [Panel.gramOk, gramInRange, unknown, Memory.wf]

theorem exec_params_assets {i : Instr} {s t : State} (run : exec i s = .next t) :
    t.params = s.params ∧ t.assets = s.assets := by
  obtain ⟨t', run', params, assets, -⟩ := operationsKeepWhatTheyDoNotWrite i s
  obtain rfl : t' = t := Host.Outcome.next.inj (run'.symm.trans run)
  exact ⟨params, assets⟩

/-- INIT leaves every pixel unknown, and the events of every other operation keep GRAM in form and in range. -/
theorem exec_memoryOk {i : Instr} {s t : State} (ok : s.memoryOk) (run : exec i s = .next t) : t.memoryOk := by
  obtain ⟨params, assets⟩ := exec_params_assets run
  rw [State.memoryOk_iff] at ok ⊢
  obtain ⟨assetsOk, gramOk⟩ := ok
  rw [params, assets]
  refine ⟨assetsOk, ?_⟩
  obtain ⟨-, panel⟩ | ⟨-, es, panel⟩ := exec_panel run
  · rw [panel]
    exact Panel.gramOk_of_unknown rfl
  · rw [panel]
    exact Panel.after_gramOk es gramOk

theorem runLatched_memoryOk {s t : State} (ok : s.memoryOk) (run : s.runLatched = .next t) : t.memoryOk := by
  obtain ⟨i, e⟩ | rfl := runLatched_next run
  · exact exec_memoryOk ok e
  · exact ok

/-- Settles O59, over the kinds of step: block reset and the run of an operation touch GRAM, an asset change touches the
asset store, and nothing else touches either. -/
theorem stepKeepsMemoryCanonical : Obligations.StepKeepsMemoryCanonical := by
  intro s t ok run
  have ⟨assetsOk, gramOk⟩ := (State.memoryOk_iff s).1 ok
  obtain ⟨rest, -, rfl⟩ | ⟨k, rest, -, rfl⟩ | ⟨ws, rest, -, -, rfl⟩ | ⟨hd, a, rest, -, -, rfl⟩ | ⟨rest, -, -, rfl⟩ |
    ⟨-, -, rfl⟩ | ⟨-, -, run⟩ := step_cases run
  · exact ⟨assetsOk, Panel.gramOk_of_unknown rfl⟩
  · rw [readRegister_frame]
    exact ok
  · exact ok
  · exact ⟨Memory.wf_put _ _ assetsOk, gramOk⟩
  · exact ok
  · exact ok
  · exact runLatched_memoryOk ok run

end Sys2Proof.Machine

/-! Encoding and decoding undo each other, and the legal descriptors are the rows of the opcode table
(spec/30_encoding.md R77 to R94); what an illegal descriptor and a wire command do. -/

namespace Sys2Proof.Machine

/-! ## SUB by format (R78, R84) -/

theorem subLegal_n {sub : Byte} : subLegal .n sub = true ↔ sub = 0 := by
  simp [subLegal]

theorem subLegal_b {sub : Byte} : subLegal .b sub = true ↔ sub.extractLsb' 1 7 = 0 := by
  simp [subLegal]

theorem hasBgSub_of_legal {sub : Byte} (legal : subLegal .b sub = true) : hasBgSub (sub.getLsbD 0) = sub :=
  hasBgSub_bit (subLegal_b.1 legal)

theorem hasBgSub_getLsbD (b : Bool) : (hasBgSub b).getLsbD 0 = b := by
  cases b <;> rfl

theorem subLegal_hasBgSub (b : Bool) : subLegal .b (hasBgSub b) = true := by
  cases b <;> rfl

/-! ## Operands that do not stand in a word of their own (R78, R80) -/

theorem buildInstr_fillColor (sub : Byte) (color : Word) (n : Long) :
    buildInstr .fillColor sub [color, hiWord n, loWord n] = some (.fillColor color n) := by
  change some (Instr.fillColor color (joinWords (hiWord n) (loWord n))) = _
  rw [joinWords_eta]

theorem buildInstr_drawChar (x y fg bg : Word) (glyph : Handle) (hasBg : Bool) :
    buildInstr .drawChar (hasBgSub hasBg) [x, y, fg, bg, hiWord glyph, loWord glyph] =
      some (.drawChar x y fg bg glyph hasBg) := by
  change some (Instr.drawChar x y fg bg (joinWords (hiWord glyph) (loWord glyph)) ((hasBgSub hasBg).getLsbD 0)) = _
  rw [joinWords_eta, hasBgSub_getLsbD]

theorem buildInstr_drawStringMain (x y : Word) (str : Handle) (fg bg : Word) (font : Handle) (hasBg : Bool) :
    buildInstr .drawStringMain (hasBgSub hasBg) [x, y, hiWord str, loWord str, fg, bg, hiWord font, loWord font] =
      some (.drawStringMain x y str fg bg font hasBg) := by
  change some (Instr.drawStringMain x y (joinWords (hiWord str) (loWord str)) fg bg
    (joinWords (hiWord font) (loWord font)) ((hasBgSub hasBg).getLsbD 0)) = _
  rw [joinWords_eta, joinWords_eta, hasBgSub_getLsbD]

theorem buildInstr_drawBitmap (sub : Byte) (x y : Word) (bitmap : Handle) :
    buildInstr .drawBitmap sub [x, y, hiWord bitmap, loWord bitmap] = some (.drawBitmap x y bitmap) := by
  change some (Instr.drawBitmap x y (joinWords (hiWord bitmap) (loWord bitmap))) = _
  rw [joinWords_eta]

/-! ## Decoding what was encoded -/

/-- An operation encodes to a header that is legal for it and to the argument words that build it again. -/
theorem encode_operation {i : Instr} (operation : i.isOperation = true) :
    ∃ o sub args, encode i = .descriptor (headerWord o sub :: args) ∧ args.length + 1 = (opRow o).words ∧
      subLegal (opRow o).fmt sub = true ∧ buildInstr o sub args = some i := by
  cases i with
  | init => exact ⟨.init, 0, _, rfl, rfl, rfl, rfl⟩
  | setWindow => exact ⟨.setWindow, 0, _, rfl, rfl, rfl, rfl⟩
  | fillColor color n => exact ⟨.fillColor, 0, _, rfl, rfl, rfl, buildInstr_fillColor 0 color n⟩
  | drawPixel => exact ⟨.drawPixel, 0, _, rfl, rfl, rfl, rfl⟩
  | fillRect => exact ⟨.fillRect, 0, _, rfl, rfl, rfl, rfl⟩
  | fillRectFast => exact ⟨.fillRectFast, 0, _, rfl, rfl, rfl, rfl⟩
  | fillScreen => exact ⟨.fillScreen, 0, _, rfl, rfl, rfl, rfl⟩
  | drawRectangle => exact ⟨.drawRectangle, 0, _, rfl, rfl, rfl, rfl⟩
  | drawFastHLine => exact ⟨.drawFastHLine, _, _, rfl, rfl, rfl, rfl⟩
  | drawFastVLine => exact ⟨.drawFastVLine, _, _, rfl, rfl, rfl, rfl⟩
  | drawLine => exact ⟨.drawLine, _, _, rfl, rfl, rfl, rfl⟩
  | drawChar x y fg bg glyph hasBg =>
    exact ⟨.drawChar, _, _, rfl, rfl, subLegal_hasBgSub hasBg, buildInstr_drawChar x y fg bg glyph hasBg⟩
  | drawStringMain x y str fg bg font hasBg =>
    exact ⟨.drawStringMain, _, _, rfl, rfl, subLegal_hasBgSub hasBg,
      buildInstr_drawStringMain x y str fg bg font hasBg⟩
  | drawBitmap x y bitmap => exact ⟨.drawBitmap, 0, _, rfl, rfl, rfl, buildInstr_drawBitmap 0 x y bitmap⟩
  | rotateDisplay => exact ⟨.rotateDisplay, _, _, rfl, rfl, rfl, rfl⟩
  | _ => simp [Instr.isOperation, Instr.isPseudo, Instr.isWire] at operation

theorem decode_encode_operation {i : Instr} (operation : i.isOperation = true) : decode (encode i) = .ok i := by
  obtain ⟨o, sub, args, words, len, legal, build⟩ := encode_operation operation
  rw [words]
  exact decodeWords_header len legal build

/-- The code of a wire command names it, and its coordinates are sent high byte first (R56, R89). -/
theorem decode_encode_wire {i : Instr} (wire : i.isWire = true) : decode (encode i) = .ok i := by
  cases i with
  | wireSoftwareReset => rfl
  | wireSleepOut => rfl
  | wireColorMode => rfl
  | wireMemoryAccessControl => rfl
  | wireInversionOn => rfl
  | wireNormalDisplayOn => rfl
  | wireDisplayOn => rfl
  | wireColumnAddressSet x1 x2 => simp [encode, decode, decodeWire]
  | wireRowAddressSet y1 y2 => simp [encode, decode, decodeWire]
  | wireMemoryWrite => rfl
  | _ => simp [Instr.isWire] at wire

/-- Settles O11: a well-formed instruction is an operation of the port or a wire command. -/
theorem decodeOfEncodeIsIdentity : Obligations.DecodeOfEncodeIsIdentity := by
  intro i wellFormed
  by_cases wire : i.isWire = true
  · exact decode_encode_wire wire
  · have notPseudo : i.isPseudo = false := by simpa [Instr.wellFormed] using wellFormed
    exact decode_encode_operation (by simp [Instr.isOperation, notPseudo, wire])

/-! ## Encoding what was decoded -/

/-- The mnemonic of R86 that a row of R81 stands under. -/
def opMnemonic : Op → String
  | .init => "INIT"
  | .setWindow => "SET_WINDOW"
  | .fillColor => "FILL_COLOR"
  | .drawPixel => "DRAW_PIXEL"
  | .fillRect => "FILL_RECT"
  | .fillRectFast => "FILL_RECT_FAST"
  | .fillScreen => "FILL_SCREEN"
  | .drawRectangle => "DRAW_RECTANGLE"
  | .drawFastHLine => "DRAW_FAST_H_LINE"
  | .drawFastVLine => "DRAW_FAST_V_LINE"
  | .drawLine => "DRAW_LINE"
  | .drawChar => "DRAW_CHAR"
  | .drawStringMain => "DRAW_STRING_MAIN"
  | .drawBitmap => "DRAW_BITMAP"
  | .rotateDisplay => "ROTATE_DISPLAY"

/-- i is the operation of row o whose descriptor has this SUB and these argument words. -/
structure Encodes (o : Op) (sub : Byte) (args : List Word) (i : Instr) : Prop where
  build : buildInstr o sub args = some i
  words : encode i = .descriptor (headerWord o sub :: args)
  operation : i.isOperation = true
  mnemonic : i.mnemonic = opMnemonic o

/-- Every legal SUB and every list of as many argument words as the row counts is an operation (R94). -/
theorem exists_encodes {o : Op} {sub : Byte} {args : List Word} (len : args.length + 1 = (opRow o).words)
    (legal : subLegal (opRow o).fmt sub = true) : ∃ i, Encodes o sub args i := by
  cases o with
  | init =>
    obtain rfl := subLegal_n.1 legal
    match args, len with
    | [], _ => exact ⟨_, rfl, rfl, rfl, rfl⟩
  | setWindow =>
    obtain rfl := subLegal_n.1 legal
    match args, len with
    | [_, _, _, _], _ => exact ⟨_, rfl, rfl, rfl, rfl⟩
  | fillColor =>
    obtain rfl := subLegal_n.1 legal
    match args, len with
    | [color, nHi, nLo], _ =>
      refine ⟨_, rfl, ?_, rfl, rfl⟩
      simp only [encode, hiWord_joinWords, loWord_joinWords]
  | drawPixel =>
    obtain rfl := subLegal_n.1 legal
    match args, len with
    | [_, _, _], _ => exact ⟨_, rfl, rfl, rfl, rfl⟩
  | fillRect =>
    obtain rfl := subLegal_n.1 legal
    match args, len with
    | [_, _, _, _, _], _ => exact ⟨_, rfl, rfl, rfl, rfl⟩
  | fillRectFast =>
    obtain rfl := subLegal_n.1 legal
    match args, len with
    | [_, _, _, _, _], _ => exact ⟨_, rfl, rfl, rfl, rfl⟩
  | fillScreen =>
    obtain rfl := subLegal_n.1 legal
    match args, len with
    | [_], _ => exact ⟨_, rfl, rfl, rfl, rfl⟩
  | drawRectangle =>
    obtain rfl := subLegal_n.1 legal
    match args, len with
    | [_, _, _, _, _], _ => exact ⟨_, rfl, rfl, rfl, rfl⟩
  | drawFastHLine =>
    match args, len with
    | [_, _, _, _], _ => exact ⟨_, rfl, rfl, rfl, rfl⟩
  | drawFastVLine =>
    match args, len with
    | [_, _, _, _], _ => exact ⟨_, rfl, rfl, rfl, rfl⟩
  | drawLine =>
    match args, len with
    | [_, _, _, _, _], _ => exact ⟨_, rfl, rfl, rfl, rfl⟩
  | drawChar =>
    match args, len with
    | [x, y, fg, bg, gHi, gLo], _ =>
      refine ⟨_, rfl, ?_, rfl, rfl⟩
      simp only [encode, hiWord_joinWords, loWord_joinWords, hasBgSub_of_legal legal]
  | drawStringMain =>
    match args, len with
    | [x, y, sHi, sLo, fg, bg, fHi, fLo], _ =>
      refine ⟨_, rfl, ?_, rfl, rfl⟩
      simp only [encode, hiWord_joinWords, loWord_joinWords, hasBgSub_of_legal legal]
  | drawBitmap =>
    obtain rfl := subLegal_n.1 legal
    match args, len with
    | [x, y, bHi, bLo], _ =>
      refine ⟨_, rfl, ?_, rfl, rfl⟩
      simp only [encode, hiWord_joinWords, loWord_joinWords]
  | rotateDisplay =>
    match args, len with
    | [], _ => exact ⟨_, rfl, rfl, rfl, rfl⟩

/-- A descriptor decodes to i exactly when it is the header and the argument words of a row that i encodes to. -/
theorem decodeWords_ok_iff {ws : List Word} {i : Instr} :
    decodeWords ws = .ok i ↔ ∃ o sub args, ws = headerWord o sub :: args ∧ args.length + 1 = (opRow o).words ∧
      subLegal (opRow o).fmt sub = true ∧ Encodes o sub args i := by
  constructor
  · intro decodes
    obtain ⟨o, sub, args, words, len, legal, build⟩ := decodeWords_ok decodes
    obtain ⟨j, enc⟩ := exists_encodes len legal
    obtain rfl : j = i := Option.some.inj (enc.build.symm.trans build)
    exact ⟨o, sub, args, words, len, legal, enc⟩
  · rintro ⟨o, sub, args, rfl, len, legal, enc⟩
    exact decodeWords_header len legal enc.build

/-- Settles O12: the words are those of the row that the operation was built from. -/
theorem encodeOfDecodeIsIdentity : Obligations.EncodeOfDecodeIsIdentity := by
  intro ws i decodes
  obtain ⟨o, sub, args, rfl, -, -, enc⟩ := decodeWords_ok_iff.1 decodes
  exact ⟨enc.words, enc.operation⟩

/-! ## The rows of the opcode table -/

/-- The bits of SUB that a format reserves (R78, R84). -/
def reservedSubBits : Format → Byte
  | .n => 0xFF
  | .t => 0x00
  | .b => 0xFE
  | .r => 0x00

theorem subLegal_iff_reserved {f : Format} {sub : Byte} : subLegal f sub = true ↔ sub &&& reservedSubBits f = 0 := by
  revert sub
  cases f <;> decide

/-- The row of the opcode table for a row of R81: the header with SUB clear, under a mask that leaves out the free bits
of SUB. -/
def tableRowOf (o : Op) : TableRow :=
  ⟨opMnemonic o, headerWord o 0, joinBytes 0xFF (reservedSubBits (opRow o).fmt), (opRow o).words⟩

theorem opcodeTable_eq_map : opcodeTable = allOps.map tableRowOf := by decide

theorem mem_allOps (o : Op) : o ∈ allOps := by cases o <;> decide

theorem mem_opcodeTable {r : TableRow} : r ∈ opcodeTable ↔ ∃ o, tableRowOf o = r := by
  simp [opcodeTable_eq_map, mem_allOps]

/-- The mask compares OPC and the reserved bits of SUB. -/
theorem joinBytes_and_mask {o : Op} {opc sub : Byte} :
    joinBytes opc sub &&& (tableRowOf o).mask = (tableRowOf o).bits ↔
      opc = (opRow o).opc ∧ subLegal (opRow o).fmt sub = true := by
  have opcKept : opc &&& 0xFF = opc := BitVec.and_allOnes
  rw [subLegal_iff_reserved]
  simp only [tableRowOf, headerWord, joinBytes_and, joinBytes_inj, opcKept]

theorem headerWord_of_mask {o : Op} {hd : Word} (mask : hd &&& (tableRowOf o).mask = (tableRowOf o).bits) :
    hd = headerWord o (loByte hd) ∧ subLegal (opRow o).fmt (loByte hd) = true := by
  rw [← joinBytes_eta hd] at mask
  obtain ⟨opc, legal⟩ := joinBytes_and_mask.1 mask
  exact ⟨by rw [headerWord, ← opc, joinBytes_eta], legal⟩

theorem tableRowOf_matches {o : Op} {ws : List Word} :
    (tableRowOf o).matches ws ↔ ∃ sub args, ws = headerWord o sub :: args ∧ args.length + 1 = (opRow o).words ∧
      subLegal (opRow o).fmt sub = true := by
  constructor
  · rintro ⟨len, hd, head, mask⟩
    obtain ⟨args, rfl⟩ := List.head?_eq_some_iff.1 head
    obtain ⟨header, legal⟩ := headerWord_of_mask mask
    exact ⟨loByte hd, args, by rw [← header], len, legal⟩
  · rintro ⟨sub, args, rfl, len, legal⟩
    exact ⟨len, _, rfl, joinBytes_and_mask.2 ⟨rfl, legal⟩⟩

/-- Settles O13: the table has one row for each row of R81, and what matches it is what decodes to its operation. -/
theorem legalDescriptorsAreTheTableRows : Obligations.LegalDescriptorsAreTheTableRows := by
  intro ws name
  constructor
  · rintro ⟨i, decodes, rfl⟩
    obtain ⟨o, sub, args, words, len, legal, enc⟩ := decodeWords_ok_iff.1 decodes
    exact ⟨_, mem_opcodeTable.2 ⟨o, rfl⟩, enc.mnemonic.symm, tableRowOf_matches.2 ⟨sub, args, words, len, legal⟩⟩
  · rintro ⟨r, row, rfl, found⟩
    obtain ⟨o, rfl⟩ := mem_opcodeTable.1 row
    obtain ⟨sub, args, words, len, legal⟩ := tableRowOf_matches.1 found
    obtain ⟨i, enc⟩ := exists_encodes len legal
    exact ⟨i, decodeWords_ok_iff.2 ⟨o, sub, args, words, len, legal, enc⟩, enc.mnemonic⟩

/-! ## The wire commands (R88, R89) -/

theorem wireCommand_completes (s : State) (c : Byte) (bs : List Byte) :
    Completes s (bracketed s.params [.cmd c] ++ bytesEvents s.params bs) (s.wireCommand c bs).complete :=
  (wireCommand_draws s c bs).completes

/-- A command without data bytes has no second group (R96). -/
theorem wireCommand_completes_nil (s : State) (c : Byte) :
    Completes s (bracketed s.params [.cmd c]) (s.wireCommand c []).complete := by
  simpa [bytesEvents] using wireCommand_completes s c []

/-- Two coordinates are one group, each with its high byte first (R56). -/
theorem bytesEvents_coordBytes (p : Params) (a b : Word) :
    bytesEvents p (coordBytes (zext a) (zext b)) = bracketed p (wordEvents a ++ wordEvents b) := by
  change bracketed p ((coordBytes (zext a) (zext b)).map .dat) = _
  rw [coordBytes_events, lo16_zext, lo16_zext]

theorem wireCommand_completes_coords (s : State) (c : Byte) (a b : Word) :
    Completes s (bracketed s.params [.cmd c] ++ bracketed s.params (wordEvents a ++ wordEvents b))
      (s.wireCommand c (coordBytes (zext a) (zext b))).complete := by
  rw [← bytesEvents_coordBytes]
  exact wireCommand_completes s c _

/-- Settles O43: a command has no data bytes, one data byte, or two coordinates. -/
theorem wireCommandsComplete : Obligations.WireCommandsComplete := by
  intro s
  exact ⟨⟨_, rfl, wireCommand_completes_nil s 0x01⟩, ⟨_, rfl, wireCommand_completes_nil s 0x11⟩,
    ⟨_, rfl, wireCommand_completes s 0x3A [0x55]⟩, fun pat => ⟨_, rfl, wireCommand_completes s 0x36 [pat]⟩,
    ⟨_, rfl, wireCommand_completes_nil s 0x21⟩, ⟨_, rfl, wireCommand_completes_nil s 0x13⟩,
    ⟨_, rfl, wireCommand_completes_nil s 0x29⟩, fun x1 x2 => ⟨_, rfl, wireCommand_completes_coords s 0x2A x1 x2⟩,
    fun y1 y2 => ⟨_, rfl, wireCommand_completes_coords s 0x2B y1 y2⟩, ⟨_, rfl, wireCommand_completes_nil s 0x2C⟩⟩

/-! ## Illegal descriptors, pseudo-operations and written-out words -/

theorem runLatched_of_reject {s : State} {e : Reject} (rejects : decode s.work.latch = .error e) :
    s.runLatched = .next (s.raiseFault .illegalOp) := by
  simp [State.runLatched, rejects]

/-- Settles O7: nothing was drawn before the fault. -/
theorem illegalDescriptorFaultsBeforeAnyEvent : Obligations.IllegalDescriptorFaultsBeforeAnyEvent := by
  intro s e busy waits noFault rejects
  exact ⟨_, (step_runs busy waits).trans (runLatched_of_reject rejects), (Draws.refl s).faults noFault .illegalOp⟩

/-- Settles O14: encoder and meaning of a pseudo-operation are DRAW_STRING_MAIN's, has_bg filled in. -/
theorem pseudoOperationsAreStringMain : Obligations.PseudoOperationsAreStringMain := by
  intro x y str fg bg font s
  exact ⟨rfl, rfl, ⟨_, rfl⟩, ⟨_, rfl⟩, rfl, rfl⟩

/-- Settles O15, from the words that the operations encode to. -/
theorem writtenOutWordsDecode : Obligations.WrittenOutWordsDecode :=
  ⟨decode_encode_operation (i := .fillRect 10 10 50 50 0xFFFF) rfl,
   decode_encode_operation (i := .fillColor 0xF800 0x00010008) rfl,
   decode_encode_operation (i := .drawLine 0 0 4 2 1 0x07E0) rfl,
   decode_encode_operation (i := .drawChar 1 2 0xFFFF 0 5 true) rfl,
   decode_encode_operation (i := .rotateDisplay 5) rfl⟩

end Sys2Proof.Machine

/-! The window on the wire and on the panel (spec/40_address_window.md R95 to R99; spec/20_memory.md R65, R66), and the
chip-select groups over one step (R214). -/

namespace Sys2Proof.Machine

/-! ## Chip-select groups (R95, R96, R214) -/

theorem groupsAfter_cons (m : CsMode) (g : GroupState) (e : Event) (rest : List Event) :
    groupsAfter m g (e :: rest) = (groupStep m g e).bind fun g' => groupsAfter m g' rest := rfl

theorem groupsAfter_append (m : CsMode) (g : GroupState) (es fs : List Event) :
    groupsAfter m g (es ++ fs) = (groupsAfter m g es).bind fun g' => groupsAfter m g' fs := by
  induction es generalizing g with
  | nil => rfl
  | cons e rest ih =>
    simp only [List.cons_append, groupsAfter_cons, ih, Option.bind_assoc]

/-- Emitted between groups with the line released, es obeys the discipline and ends so again. -/
def KeepsClosed (p : Params) (es : List Event) : Prop :=
  groupsAfter p.csMode .outside es = some .outside ∧ es.foldl csAfter .released = .released

theorem KeepsClosed.append {p : Params} {es fs : List Event} (first : KeepsClosed p es) (second : KeepsClosed p fs) :
    KeepsClosed p (es ++ fs) := by
  obtain ⟨groups, line⟩ := first
  obtain ⟨groups', line'⟩ := second
  refine ⟨?_, ?_⟩
  · rw [groupsAfter_append, groups]
    exact groups'
  · rw [List.foldl_append, line, line']

theorem keepsClosed_command (p : Params) (c : Byte) : KeepsClosed p (bracketed p [.cmd c]) := by
  unfold KeepsClosed bracketed
  cases p.csMode <;> exact ⟨rfl, rfl⟩

/-- Data bytes leave a group of data open, and in NONE mode there is no group. -/
theorem groupsAfter_data {m : CsMode} {g : GroupState} (sends : ∀ b, groupStep m g (.dat b) = some g) (bs : List Byte) :
    groupsAfter m g (bs.map .dat) = some g := by
  induction bs with
  | nil => rfl
  | cons b rest ih =>
    rw [List.map_cons, groupsAfter_cons, sends, Option.bind_some, ih]

/-- Data bytes do not drive the chip-select line (R34). -/
theorem csAfter_data (cs : CsLevel) (bs : List Byte) : (bs.map Event.dat).foldl csAfter cs = cs := by
  induction bs with
  | nil => rfl
  | cons b rest ih => exact ih

theorem keepsClosed_data (p : Params) (b : Byte) (bs : List Byte) :
    KeepsClosed p (bracketed p ((b :: bs).map .dat)) := by
  unfold KeepsClosed bracketed
  cases p.csMode with
  | none => exact ⟨groupsAfter_data (fun _ => rfl) (b :: bs), csAfter_data .released (b :: bs)⟩
  | perGroup =>
    refine ⟨?_, ?_⟩
    · -- The assertion opens the group, the first byte makes it one of data, and the others keep it so.
      change groupsAfter .perGroup .data (bs.map .dat ++ [.csRelease]) = _
      rw [groupsAfter_append, groupsAfter_data fun _ => rfl]
      rfl
    · rw [List.foldl_append]
      rfl

/-- Whole groups keep the discipline, one group after the other. -/
theorem Grouped.keepsClosed {p : Params} {es : List Event} (grouped : Grouped p es) : KeepsClosed p es := by
  induction grouped with
  | nil => exact ⟨rfl, rfl⟩
  | command c _ ih => exact (keepsClosed_command p c).append ih
  | data b bs _ ih => exact (keepsClosed_data p b bs).append ih

/-- INIT's fixed sequence in either mode, its release of an idle line among it (R202). -/
theorem initEvents_keepsClosed (p : Params) : KeepsClosed p (initEvents p) := by
  unfold KeepsClosed initEvents bracketed csEdge
  cases p.csMode <;> exact ⟨rfl, rfl⟩

/-- The discipline is about the parameters, TRACE and CS alone. -/
theorem State.groupsClosed.transfer {s t : State} (closed : s.groupsClosed) (params : t.params = s.params)
    (trace : t.trace = s.trace) (cs : t.cs = s.cs) : t.groupsClosed := by
  unfold State.groupsClosed at closed ⊢
  rwa [params, trace, cs]

theorem State.groupsClosed.emitAll {s : State} {es : List Event} (closed : s.groupsClosed)
    (keeps : KeepsClosed s.params es) : (s.emitAll es).groupsClosed := by
  obtain ⟨groups, line⟩ := closed
  obtain ⟨groups', line'⟩ := keeps
  refine ⟨?_, ?_⟩
  · rw [State.emitAll_params, State.emitAll_trace, groupsAfter_append, groups]
    exact groups'
  · rw [State.emitAll_cs, line, line']

theorem Paints.groupsClosed {s u : State} (paints : Paints s u) (closed : s.groupsClosed) : u.groupsClosed := by
  obtain ⟨es, grouped, draws⟩ := paints
  rw [draws]
  exact closed.emitAll grouped.keepsClosed

/-- Completion and fault entry send nothing. -/
theorem Ends.groupsClosed {s t : State} (e : Ends s t) (closed : s.groupsClosed) : t.groupsClosed := by
  obtain ⟨u, paints, rfl | ⟨c, rfl⟩⟩ := e
  · exact paints.groupsClosed closed
  · exact paints.groupsClosed closed

/-- Every operation emits whole groups, INIT its own sequence; what it writes besides is neither TRACE nor CS. -/
theorem exec_groupsClosed {i : Instr} {s t : State} (closed : s.groupsClosed) (run : exec i s = .next t) :
    t.groupsClosed := by
  obtain ⟨t', run', kind⟩ := exec_cases i s
  obtain rfl : t' = t := Host.Outcome.next.inj (run'.symm.trans run)
  obtain ⟨-, rfl⟩ | ⟨rotation, -, u, paints, rfl⟩ | ⟨-, -, ends⟩ := kind
  · exact (closed.emitAll (initEvents_keepsClosed s.params)).transfer (by simp) (by simp) (by simp)
  · exact paints.groupsClosed closed
  · exact ends.groupsClosed closed

theorem runLatched_groupsClosed {s t : State} (closed : s.groupsClosed) (run : s.runLatched = .next t) :
    t.groupsClosed := by
  obtain ⟨i, e⟩ | rfl := runLatched_next run
  · exact exec_groupsClosed closed e
  · exact closed

/-- Settles O60, over the kinds of step: block reset empties TRACE and releases the line, the run of an operation emits
whole groups, and nothing else touches the wire. -/
theorem stepKeepsGroupsClosed : Obligations.StepKeepsGroupsClosed := by
  intro s t closed run
  obtain ⟨rest, -, rfl⟩ | ⟨k, rest, -, rfl⟩ | ⟨ws, rest, -, -, rfl⟩ | ⟨hd, a, rest, -, -, rfl⟩ | ⟨rest, -, -, rfl⟩ |
    ⟨-, -, rfl⟩ | ⟨-, -, run⟩ := step_cases run
  · exact ⟨rfl, rfl⟩
  · rw [readRegister_frame]
    exact closed
  · exact closed
  · exact closed
  · exact closed
  · exact closed
  · exact runLatched_groupsClosed closed run

/-! ## SetWindow (R97 to R99) -/

theorem Draws.trace {s u : State} {es : List Event} (draws : Draws s es u) : u.trace = s.trace ++ es := by
  rw [draws]
  rfl

/-- Settles O16: whatever the coordinates, the window is 11 events in NONE mode and 21 in PER_GROUP mode, and none of the
counts looks into a byte. -/
theorem setWindowEmitsElevenBytes : Obligations.SetWindowEmitsElevenBytes := by
  intro s x1 y1 x2 y2
  refine ⟨_, (setWindow_draws s x1 y1 x2 y2).trace, ?_⟩
  unfold windowEvents bracketed
  cases s.params.csMode with
  | none => exact ⟨rfl, rfl, rfl, rfl, rfl, rfl, rfl⟩
  | perGroup => exact ⟨rfl, rfl, rfl, rfl, rfl, rfl, rfl⟩

theorem setWindow_completes (s : State) (x1 y1 x2 y2 : Word) :
    Completes s (windowEvents s.params x1 y1 x2 y2)
      (s.setWindow (zext x1) (zext y1) (zext x2) (zext y2)).complete := by
  simpa only [lo16_zext] using (setWindow_draws s (zext x1) (zext y1) (zext x2) (zext y2)).completes

/-- A window leaves the observer undefined where it was, after a command left half sent, and where the window is malformed
(R65, R66). -/
theorem Panel.windowed_undef_iff (q : Panel) (x1 y1 x2 y2 : Word) :
    (q.windowed x1 y1 x2 y2).undef = true ↔
      q.undef = true ∨ ¬ q.settled ∨ x1.toNat > x2.toNat ∨ y1.toNat > y2.toNat := by
  simp [Panel.windowed, Panel.settled, or_assoc]

/-- Settles O17: the observer after the window's events is `Panel.windowed`. -/
theorem setWindowArmsThePanel : Obligations.SetWindowArmsThePanel := by
  intro s x1 y1 x2 y2
  have completes := setWindow_completes s x1 y1 x2 y2
  have panel := completes.panel.trans (Panel.after_window_eq s.params s.panel x1 y1 x2 y2)
  refine ⟨_, rfl, completes, ?_⟩
  rw [panel]
  exact ⟨rfl, rfl, rfl, rfl, rfl, rfl, rfl, rfl, Panel.windowed_undef_iff s.panel x1 y1 x2 y2⟩

end Sys2Proof.Machine

/-! The pixel stream (spec/41_pixel_stream.md R100 to R104): the bytes of FILL_COLOR as one group, and where they go on the
panel (spec/20_memory.md R67, R68). -/

namespace Sys2Proof.Machine

/-! ## One group of data bytes (R96) -/

theorem length_bracketed (p : Params) (es : List Event) :
    (bracketed p es).length = es.length + if p.csMode = .perGroup then 2 else 0 := by
  unfold bracketed
  cases p.csMode with
  | none => rfl
  | perGroup => simp

/-- The chip-select edges around a group do not count where a predicate leaves them out. -/
theorem countP_bracketed (p : Params) {counts : Event → Bool} (assertion : counts .csAssert = false)
    (release : counts .csRelease = false) (es : List Event) : (bracketed p es).countP counts = es.countP counts := by
  unfold bracketed
  cases p.csMode with
  | none => rfl
  | perGroup => simp [assertion, release]

theorem countP_isDat_bytesEvents (p : Params) (bs : List Byte) : (bytesEvents p bs).countP Event.isDat = bs.length := by
  unfold bytesEvents
  split
  case isTrue empty => simp [empty]
  case isFalse =>
    rw [countP_bracketed p rfl rfl, List.countP_map]
    exact List.countP_eq_length.2 fun _ _ => rfl

/-- The group's two edges are all that is sent beside its bytes; no bytes are no group. -/
theorem length_bytesEvents (p : Params) (bs : List Byte) :
    (bytesEvents p bs).length = bs.length + if p.csMode = .perGroup ∧ bs ≠ [] then 2 else 0 := by
  unfold bytesEvents
  split
  case isTrue empty => simp [empty]
  case isFalse sent => simp [length_bracketed, sent]

theorem countP_isCmd_of_dataOnly {es : List Event} (data : dataOnly es) : es.countP Event.isCmd = 0 := by
  refine List.countP_eq_zero.2 fun e mem => ?_
  obtain ⟨b, rfl⟩ | rfl | rfl := data e mem
  all_goals simp [Event.isCmd]

/-! ## The bytes of a fill (R100, R102) -/

@[simp] theorem length_pixelBytes (color : Word) (n : Nat) : (pixelBytes color n).length = 2 * n := by
  simp [pixelBytes, Nat.mul_comm]

theorem pixelBytes_add (color : Word) (m n : Nat) :
    pixelBytes color (m + n) = pixelBytes color m ++ pixelBytes color n := by
  unfold pixelBytes
  rw [List.replicate_add, List.flatten_append]

/-- k fills of n pixels each are one fill of k · n pixels. -/
theorem flatten_replicate_pixelBytes (color : Word) (k n : Nat) :
    (List.replicate k (pixelBytes color n)).flatten = pixelBytes color (k * n) := by
  unfold pixelBytes
  rw [← List.flatten_replicate_replicate, List.flatten_flatten, List.map_replicate]

/-- Whole blocks of groups · unroll pixels and then the remainder are the n pixels, one after the other. -/
theorem pixelBytes_blocked (color : Word) (n groups unroll : Nat) :
    (List.replicate (n / (groups * unroll)) (List.replicate groups (pixelBytes color unroll)).flatten).flatten ++
      pixelBytes color (n % (groups * unroll)) = pixelBytes color n := by
  rw [flatten_replicate_pixelBytes, flatten_replicate_pixelBytes, ← pixelBytes_add, Nat.div_add_mod']

/-! ## FILL_COLOR -/

theorem exec_fillColor (color : Word) (n : Long) (s : State) :
    exec (.fillColor color n) s = .next (s.fillColor color n.toNat).complete := rfl

/-- Settles O18: `fillColor_draws` and completion. -/
theorem fillColorCompletes : Obligations.FillColorCompletes := fun s color n =>
  ⟨_, exec_fillColor color n s, (fillColor_draws s color n.toNat).completes⟩

/-- Settles O19: the fill is one group of 2n bytes. -/
theorem fillColorByteCountLaw : Obligations.FillColorByteCountLaw := by
  intro s color n
  refine ⟨_, (fillColor_draws s color n).trace, ?_⟩
  have pixels : pixelBytes color n ≠ [] ↔ n > 0 := by
    rw [← List.length_pos_iff, length_pixelBytes]
    omega
  rw [← pixelBytes_group, countP_isDat_bytesEvents, length_bytesEvents, length_pixelBytes]
  simp only [pixels, and_self]

/-- Settles O20, by `pixelBytes_blocked`: one pixel's bytes, again and again, are what `pixelBytes` is. -/
theorem blockedFillIsTheSameStream : Obligations.BlockedFillIsTheSameStream := by
  intro s color n groups unroll _ _
  refine ⟨_, exec_fillColor color n s, ?_⟩
  rw [State.complete_trace, (fillColor_draws s color n.toNat).trace, ← pixelBytes_group,
    ← pixelBytes_blocked color n.toNat groups unroll]
  rfl

/-! ## Data bytes on an armed panel (R67) -/

/-- While armed, a data byte is the first half of a pixel or completes one. -/
theorem Panel.takeDat_armed (p : Params) {q : Panel} (armed : q.armed = true) (b : Byte) :
    q.takeDat p b = { q with pairHi := some b } ∨
    ∃ hi, q.takeDat p b = Panel.takePixel p { q with pairHi := none } (joinBytes hi b) := by
  unfold Panel.takeDat
  rw [if_pos armed]
  split
  · exact .inl rfl
  · exact .inr ⟨_, rfl⟩

theorem Panel.takeDat_inside {p : Params} {q : Panel} (armed : q.armed = true) (inside : q.Inside) (b : Byte)
    {col row : Nat} (hc : col < 65536)
    (out : inWindow q.xs.toNat q.ys.toNat (max q.xs.toNat q.xe.toNat) q.ye.toNat col row = false) :
    (q.takeDat p b).Inside ∧ (q.takeDat p b).pixel col row = q.pixel col row := by
  obtain ⟨left, right, top⟩ := inside
  obtain half | ⟨hi, whole⟩ := Panel.takeDat_armed p armed b
  · rw [half]
    exact ⟨⟨left, right, top⟩, rfl⟩
  · rw [whole]
    exact Panel.takePixel_inside (q := { q with pairHi := none }) ⟨left, right, top⟩ _ hc out

theorem dataOnly_cons {e : Event} {es : List Event} : dataOnly (e :: es) ↔ dataOnly [e] ∧ dataOnly es := by
  simp [dataOnly]

/-- Data changes no pixel outside the window of an armed panel whose cursor is in the window's columns and not above it.
The first data byte may be the second half of a pixel begun before. -/
theorem Panel.after_dataOnly_pixel (p : Params) {es : List Event} (data : dataOnly es) {q : Panel} (armed : q.armed = true)
    (inside : q.Inside) {col row : Nat} (hc : col < 65536)
    (out : inWindow q.xs.toNat q.ys.toNat (max q.xs.toNat q.xe.toNat) q.ye.toNat col row = false) :
    (q.after p es).pixel col row = q.pixel col row := by
  induction es generalizing q with
  | nil => rfl
  | cons e rest ih =>
    obtain ⟨first, others⟩ := dataOnly_cons.1 data
    have step : (q.observe p e).Inside ∧ (q.observe p e).pixel col row = q.pixel col row := by
      obtain ⟨b, rfl⟩ | rfl | rfl := first e (.head _)
      · exact Panel.takeDat_inside armed inside b hc out
      · exact ⟨inside, rfl⟩
      · exact ⟨inside, rfl⟩
    obtain ⟨inside', pixel⟩ := step
    have kept := Panel.after_dataOnly p first q
    rw [Panel.after_cons, Panel.after_nil] at kept
    obtain ⟨armed', -, window⟩ := kept
    obtain ⟨xs, xe, ys, ye⟩ := window armed
    rw [Panel.after_cons, ih others (armed'.trans armed) inside' (by rwa [xs, xe, ys, ye]), pixel]

/-- Settles O50: the pixels are data and chip select alone, which arm and disarm nothing and stay in the window, whether or
not the observer is defined after them. -/
theorem fillColorStaysInTheWindow : Obligations.FillColorStaysInTheWindow := by
  intro s color n
  have draws := fillColor_draws s color n.toNat
  have data := pixelsEvents_dataOnly s.params color n.toNat
  obtain ⟨armed, unarmed, window⟩ := Panel.after_dataOnly s.params data s.panel
  refine ⟨_, _, exec_fillColor color n s, draws.trace, countP_isCmd_of_dataOnly data, ?_⟩
  rw [State.complete_panel, draws.panel]
  refine ⟨armed, unarmed, window, fun isArmed left right top _ col row hc _ out => ?_⟩
  have columns : max s.panel.xs.toNat s.panel.xe.toNat = s.panel.xe.toNat := by omega
  have inside : s.panel.Inside := ⟨left, le_max_of_le_right right, top⟩
  exact Panel.after_dataOnly_pixel s.params data isArmed inside hc (by rwa [columns])

end Sys2Proof.Machine

/-! Pixels and rectangles (spec/42_rasterizer_rect.md R105 to R114): the events of each operation, what they paint on the
panel (spec/20_memory.md R66 to R69), and that the operations that check nothing do not read the surface. -/

namespace Sys2Proof.Machine

/-! ## The clip (R107) -/

theorem State.clipped_noop {s : State} {x y w h : Word}
    (empty : s.w.toNat ≤ x.toNat ∨ s.h.toNat ≤ y.toNat ∨ w = 0 ∨ h = 0) (draw : Word → Word → State → State) :
    s.clipped x y w h draw = s := by
  rw [State.clipped, rectClip_none.2 empty]

/-- A side clipped from an origin on the surface is not empty and ends on the surface. -/
theorem clipped_side {x w surface : Word} (on : x.toNat < surface.toNat) (sized : w ≠ 0) :
    0 < min w.toNat (surface.toNat - x.toNat) ∧
    x.toNat + min w.toNat (surface.toNat - x.toNat) ≤ surface.toNat := by
  have pos : 0 < w.toNat := BitVec.toNat_pos_of_ne_zero sized
  omega

/-- Drawing does not depend on the working registers it starts from. -/
theorem Draws.fromWork {s t : State} {es : List Event} {wk : Work} (d : Draws { s with work := wk } es t) :
    Draws s es t := d

/-- A rectangle with its origin on the surface and a size is drawn at its clipped width and height, which are positive. -/
theorem clipped_draws {s : State} {x y w h : Word} {draw : Word → Word → State → State} {es : Nat → Nat → List Event}
    (hx : x.toNat < s.w.toNat) (hy : y.toNat < s.h.toNat) (hw : w ≠ 0) (hh : h ≠ 0)
    (draws : ∀ (cw ch : Word) (wk : Work), 1 ≤ cw.toNat → 1 ≤ ch.toNat →
      Draws { s with work := wk } (es cw.toNat ch.toNat) (draw cw ch { s with work := wk })) :
    Draws s (es (min w.toNat (s.w.toNat - x.toNat)) (min h.toNat (s.h.toNat - y.toNat))) (s.clipped x y w h draw) := by
  obtain ⟨cw, ch, clip, width, height⟩ := rectClip_some hx hy hw hh
  obtain ⟨cw_pos, -⟩ := clipped_side hx hw
  obtain ⟨ch_pos, -⟩ := clipped_side hy hh
  rw [← width] at cw_pos ⊢
  rw [← height] at ch_pos ⊢
  rw [State.clipped, clip]
  exact (draws cw ch _ cw_pos ch_pos).fromWork

/-! ## The events (R108 to R111) -/

/-- A filled rectangle of wd columns and ht rows at (x, y): its window, then its pixels (R108). -/
def rectEvents (p : Params) (x y : Word) (color : Word) (wd ht : Nat) : List Event :=
  paintEvents p x y (BitVec.ofNat 16 (x.toNat + wd - 1)) (BitVec.ofNat 16 (y.toNat + ht - 1)) color (wd * ht)

/-- The outline of a rectangle of wd columns and ht rows at (x, y): top, bottom (one past), left, right (one past) (R111). -/
def outlineEvents (p : Params) (x y : Word) (color : Word) (wd ht : Nat) : List Event :=
  paintEvents p x y (BitVec.ofNat 16 (x.toNat + wd - 1)) y color wd ++
  paintEvents p x (BitVec.ofNat 16 (y.toNat + ht)) (BitVec.ofNat 16 (x.toNat + wd - 1))
    (BitVec.ofNat 16 (y.toNat + ht)) color wd ++
  paintEvents p x y x (BitVec.ofNat 16 (y.toNat + ht - 1)) color ht ++
  paintEvents p (BitVec.ofNat 16 (x.toNat + wd)) y (BitVec.ofNat 16 (x.toNat + wd))
    (BitVec.ofNat 16 (y.toNat + ht - 1)) color ht

/-- The last column or row of a span, whether it is reckoned in ℕ or in 16 bits (R11). -/
theorem ofNat_last (x w : Word) (pos : 0 < w.toNat) : BitVec.ofNat 16 (x.toNat + w.toNat - 1) = x + w - 1 := by
  bv_omega

/-- A window at (x, y) that is w by h, and a fill of it, is a filled rectangle. -/
theorem paintEvents_eq_rectEvents (p : Params) (x y color : Word) {w h : Word} (w_pos : 0 < w.toNat)
    (h_pos : 0 < h.toNat) :
    paintEvents p x y (x + w - 1) (y + h - 1) color (w.toNat * h.toNat) = rectEvents p x y color w.toNat h.toNat := by
  rw [rectEvents, ofNat_last x w w_pos, ofNat_last y h h_pos]

theorem fillWindow_draws_sized (s : State) (x y w h color : Word) :
    Draws s (paintEvents s.params x y (x + w - 1) (y + h - 1) color (w.toNat * h.toNat))
      (s.fillWindow (zext x) (zext y) (zext x + zext w - 1) (zext y + zext h - 1) color (w.toNat * h.toNat)) := by
  simpa only [lo16_zext, lo16_end] using
    fillWindow_draws s (zext x) (zext y) (zext x + zext w - 1) (zext y + zext h - 1) color (w.toNat * h.toNat)

theorem fillRect_draws {s : State} {x y w h : Word} (hx : x.toNat < s.w.toNat) (hy : y.toNat < s.h.toNat) (hw : w ≠ 0)
    (hh : h ≠ 0) (color : Word) :
    Draws s (rectEvents s.params x y color (min w.toNat (s.w.toNat - x.toNat)) (min h.toNat (s.h.toNat - y.toNat)))
      (s.fillRect x y w h color) := by
  refine clipped_draws hx hy hw hh fun cw ch wk cw_pos ch_pos => ?_
  rw [← paintEvents_eq_rectEvents s.params x y color cw_pos ch_pos]
  exact fillWindow_draws_sized _ x y cw ch color

theorem clippedOutline_draws {s : State} {x y w h : Word} (hx : x.toNat < s.w.toNat) (hy : y.toNat < s.h.toNat)
    (hw : w ≠ 0) (hh : h ≠ 0) (color : Word) :
    Draws s (outlineEvents s.params x y color (min w.toNat (s.w.toNat - x.toNat)) (min h.toNat (s.h.toNat - y.toNat)))
      (s.clipped x y w h fun cw ch s => s.outline (zext x) (zext y) (zext cw) (zext ch) color) :=
  clipped_draws hx hy hw hh fun _ _ _ cw_pos ch_pos => outline_draws_edges _ x y cw_pos ch_pos color

/-- Settles O21, by `fillRect_draws`. -/
theorem fillRectClipsToTheSurface : Obligations.FillRectClipsToTheSurface := fun _ _ _ _ _ color hx hy hw hh =>
  ⟨_, rfl, (fillRect_draws hx hy hw hh color).completes⟩

/-- Settles O22: nothing is drawn, so completion is all that happens. -/
theorem emptyRectanglesEmitNothing : Obligations.EmptyRectanglesEmitNothing := by
  intro s x y w h color empty
  refine ⟨⟨_, rfl, Draws.completes ?_⟩, ⟨_, rfl, Draws.completes ?_⟩⟩
  · rw [State.fillRect, State.clipped_noop empty]
    exact Draws.refl s
  · rw [State.clipped_noop empty]
    exact Draws.refl s

/-- Settles O23, by `fillWindow_draws_sized`. -/
theorem fillRectFastCompletes : Obligations.FillRectFastCompletes := fun s x y w h color =>
  ⟨_, rfl, (fillWindow_draws_sized s x y w h color).completes⟩

/-- Settles O24: a surface with an empty side holds no origin, and any other clips nothing. -/
theorem fillScreenFillsTheSurface : Obligations.FillScreenFillsTheSurface := by
  intro s color
  refine ⟨rfl, _, rfl, Draws.completes ?_⟩
  split
  case isTrue empty =>
    rw [State.fillRect, State.clipped_noop (.inr (.inr empty))]
    exact Draws.refl s
  case isFalse sized =>
    obtain ⟨hw, hh⟩ := not_or.1 sized
    have w_pos := BitVec.toNat_pos_of_ne_zero hw
    have h_pos := BitVec.toNat_pos_of_ne_zero hh
    have whole := paintEvents_eq_rectEvents s.params 0 0 color w_pos h_pos
    rw [zero_add, zero_add] at whole
    rw [whole]
    simpa using fillRect_draws (x := 0) (y := 0) w_pos h_pos hw hh color

/-- Settles O25, by `clippedOutline_draws`. -/
theorem drawRectangleDrawsFourEdges : Obligations.DrawRectangleDrawsFourEdges := by
  rintro s x y w h color _ _ hx hy hw hh rfl rfl
  exact ⟨_, rfl, (clippedOutline_draws hx hy hw hh color).completes⟩

/-! ## The panel -/

theorem Draws.completes_panel {s u : State} {es : List Event} (d : Draws s es u) :
    u.complete.panel = s.panel.after s.params es := d.panel

/-- The last column or row of a span that does not pass 65535. -/
theorem toNat_last {v : Word} {n : Nat} (fits : v.toNat + n ≤ 65536) :
    (BitVec.ofNat 16 (v.toNat + n - 1)).toNat = v.toNat + n - 1 := by
  rw [BitVec.toNat_ofNat]
  omega

section
variable {x y : Word} {wd ht : Nat} (wd_pos : 0 < wd) (ht_pos : 0 < ht) (columns : x.toNat + wd ≤ 65536)
  (rows : y.toNat + ht ≤ 65536)

include wd_pos ht_pos columns rows

/-- A filled rectangle of coordinates in 16 bits, where the observer is still defined after it: exactly its pixels have the
colour (R67, R69). -/
theorem Panel.after_rect_defined {p : Params} {q : Panel} {color : Word}
    (defined : (q.after p (rectEvents p x y color wd ht)).undef = false) {col row : Nat} (hc : col < 65536) :
    (q.after p (rectEvents p x y color wd ht)).pixel col row =
      if inWindow x.toNat y.toNat (x.toNat + wd - 1) (y.toNat + ht - 1) col row then some color else q.pixel col row := by
  have right := toNat_last columns
  have bottom := toNat_last rows
  rw [rectEvents, Panel.after_paint_defined (by omega) wd_pos (by omega) defined hc, right, bottom]

/-- A filled rectangle that lies on the panel keeps a settled observer as defined as it was (R67, R69). -/
theorem Panel.after_rect_undef {p : Params} {q : Panel} (settled : q.settled) (color : Word)
    (inx : x.toNat + wd ≤ p.panelW.toNat) (iny : y.toNat + ht ≤ p.panelH.toNat) :
    (q.after p (rectEvents p x y color wd ht)).undef = q.undef := by
  have right := toNat_last columns
  have bottom := toNat_last rows
  have width : (BitVec.ofNat 16 (x.toNat + wd - 1)).toNat - x.toNat + 1 = wd := by omega
  have height : (BitVec.ofNat 16 (y.toNat + ht - 1)).toNat - y.toNat + 1 = ht := by omega
  exact Panel.after_paint_undef p color settled (by omega) (by omega) (by rw [width, height]) (by omega) (by omega)

end

/-- Settles O44: the clipped rectangle ends on the surface, so its window does not pass 65535. -/
theorem fillRectPaintsTheClippedRectangle : Obligations.FillRectPaintsTheClippedRectangle := by
  intro s x y w h color hx hy hw hh
  obtain ⟨cw_pos, right⟩ := clipped_side hx hw
  obtain ⟨ch_pos, bottom⟩ := clipped_side hy hh
  have w_lt := s.w.isLt
  have h_lt := s.h.isLt
  refine ⟨_, rfl, ?_⟩
  rw [(fillRect_draws hx hy hw hh color).completes_panel]
  refine ⟨fun defined col row hc _ => ?paints, fun settled inx iny => ?keeps⟩
  case paints => exact Panel.after_rect_defined cw_pos ch_pos (by omega) (by omega) defined hc
  case keeps => exact
    Panel.after_rect_undef cw_pos ch_pos (by omega) (by omega) settled color (right.trans inx) (bottom.trans iny)

/-- A malformed window leaves the observer undefined whatever is sent into it (R66). -/
theorem Panel.after_paint_malformed (p : Params) (q : Panel) {x1 y1 x2 y2 : Word} (color : Word) (n : Nat)
    (bad : x1.toNat > x2.toNat ∨ y1.toNat > y2.toNat) :
    (q.after p (paintEvents p x1 y1 x2 y2 color n)).undef = true := by
  rw [Panel.after_paint]
  exact Panel.takePixels_stays _ (q.windowed_malformed bad)

/-- A window alone changes no pixel. -/
theorem Panel.after_paint_zero_gram (p : Params) (q : Panel) (x1 y1 x2 y2 color : Word) :
    (q.after p (paintEvents p x1 y1 x2 y2 color 0)).gram = q.gram := by
  rw [Panel.after_paint]
  rfl

/-- A window end that passes 65535 comes round before the window's start (R11). -/
theorem last_lt_of_wrap {x w : Word} (wraps : x.toNat + w.toNat > 65536) : (x + w - 1).toNat < x.toNat := by
  bv_omega

/-- Settles O45: a fill of no pixels, a filled rectangle, or a window whose end has come round. -/
theorem fillRectFastPaintsItsRectangle : Obligations.FillRectFastPaintsItsRectangle := by
  intro s x y w h color
  refine ⟨_, rfl, ?_⟩
  rw [(fillWindow_draws_sized s x y w h color).completes_panel]
  refine ⟨fun empty => ?none, fun hw hh columns rows => ?fits, fun _ _ wraps => ?malformed⟩
  case none =>
    have noPixels : w.toNat * h.toNat = 0 := by
      obtain rfl | rfl := empty <;> simp
    rw [noPixels]
    exact Panel.after_paint_zero_gram ..
  case fits =>
    have w_pos := BitVec.toNat_pos_of_ne_zero hw
    have h_pos := BitVec.toNat_pos_of_ne_zero hh
    rw [paintEvents_eq_rectEvents s.params x y color w_pos h_pos]
    intro defined col row hc _
    exact Panel.after_rect_defined w_pos h_pos columns rows defined hc
  case malformed =>
    exact Panel.after_paint_malformed _ _ _ _ (wraps.imp last_lt_of_wrap last_lt_of_wrap)

/-- The 1×1 window holds its own pixel alone. -/
theorem inWindow_point (x y col row : Nat) : inWindow x y x y col row = true ↔ col = x ∧ row = y := by
  simp only [inWindow, Bool.and_eq_true, decide_eq_true_eq]
  omega

/-- One pixel leaves the observer undefined where its window does, and off the panel (R69). -/
theorem Panel.after_point_undef_iff (p : Params) (q : Panel) (x y color : Word) :
    (q.after p (paintEvents p x y x y color 1)).undef = true ↔
      q.undef = true ∨ ¬ q.settled ∨ inPanel p x.toNat y.toNat = false := by
  have first : (q.windowed x y x y).At 1 0 := q.windowed_at x y x y rfl Nat.one_pos
  have pixel : (q.after p (paintEvents p x y x y color 1)).undef =
      ((q.windowed x y x y).undef || !inPanel p x.toNat y.toNat) := by
    rw [Panel.after_paint]
    exact Panel.takePixel_undef first color (le_refl _)
  simp [pixel, Panel.windowed_undef_iff, or_assoc]

theorem pixel_draws_point (s : State) (x y color : Word) :
    Draws s (paintEvents s.params x y x y color 1) (s.pixel (zext x) (zext y) color) := by
  simpa only [lo16_zext] using pixel_draws s (zext x) (zext y) color

/-- Settles O46: a pixel is a fill of its 1×1 window. -/
theorem drawPixelPaintsOnePixel : Obligations.DrawPixelPaintsOnePixel := by
  intro s x y color
  have draws := pixel_draws_point s x y color
  refine ⟨_, rfl, draws.completes, ?_⟩
  rw [draws.completes_panel]
  refine ⟨fun defined col row hc _ => ?_, Panel.after_point_undef_iff s.params s.panel x y color⟩
  rw [Panel.after_paint_defined (wd := 1) (ht := 1) rfl Nat.one_pos rfl defined hc]
  simp only [inWindow_point]

/-- `Panel.after_paint_frame`, of a pixel outside the window by its coordinates. -/
theorem Panel.after_paint_outside {p : Params} {q : Panel} {x1 y1 x2 y2 color : Word} {n col row : Nat} (hc : col < 65536)
    (out : ¬ (x1.toNat ≤ col ∧ col ≤ max x1.toNat x2.toNat ∧ y1.toNat ≤ row ∧ row ≤ y2.toNat)) :
    (q.after p (paintEvents p x1 y1 x2 y2 color n)).pixel col row = q.pixel col row := by
  refine Panel.after_paint_frame p q x1 y1 x2 y2 color n hc ?_
  simpa [inWindow, and_assoc] using out

/-- An outline whose bottom and right edges are in 16 bits changes no pixel off its four edges. -/
theorem Panel.after_outline_frame (p : Params) (q : Panel) {x y : Word} (color : Word) {wd ht col row : Nat}
    (wd_pos : 0 < wd) (ht_pos : 0 < ht) (columns : x.toNat + wd < 65536) (rows : y.toNat + ht < 65536)
    (hc : col < 65536) (offRows : ¬ (x.toNat ≤ col ∧ col < x.toNat + wd ∧ (row = y.toNat ∨ row = y.toNat + ht)))
    (offColumns : ¬ (y.toNat ≤ row ∧ row < y.toNat + ht ∧ (col = x.toNat ∨ col = x.toNat + wd))) :
    (q.after p (outlineEvents p x y color wd ht)).pixel col row = q.pixel col row := by
  have right := toNat_last columns.le
  have bottom := toNat_last rows.le
  have pastRight : (BitVec.ofNat 16 (x.toNat + wd)).toNat = x.toNat + wd := Nat.mod_eq_of_lt columns
  have pastBottom : (BitVec.ofNat 16 (y.toNat + ht)).toNat = y.toNat + ht := Nat.mod_eq_of_lt rows
  rw [outlineEvents, Panel.after_append, Panel.after_append, Panel.after_append, Panel.after_paint_outside hc ?right,
    Panel.after_paint_outside hc ?left, Panel.after_paint_outside hc ?bottom, Panel.after_paint_outside hc ?top]
  all_goals omega

/-- Settles O48: the clipped rectangle ends on the surface, so the edges one past it are still in 16 bits. -/
theorem outlineKeepsPixelsOffItsEdges : Obligations.OutlineKeepsPixelsOffItsEdges := by
  rintro s x y w h color _ _ col row hx hy hw hh rfl rfl hc _ offRows offColumns
  obtain ⟨cw_pos, right⟩ := clipped_side hx hw
  obtain ⟨ch_pos, bottom⟩ := clipped_side hy hh
  have w_lt := s.w.isLt
  have h_lt := s.h.isLt
  refine ⟨_, rfl, fun _ => ?_⟩
  rw [(clippedOutline_draws hx hy hw hh color).completes_panel]
  exact Panel.after_outline_frame _ _ color cw_pos ch_pos (by omega) (by omega) hc offRows offColumns

/-! ## The surface (R114, R126, R151, R162) -/

/-- An operation that checks nothing does on another surface what it does on this one. -/
theorem exec_onSurface (w h : Word) (orient : BitVec 2) {i : Instr} (ignores : i.ignoresSurface = true) (s : State) :
    ∃ t, exec i s = .next t ∧ exec i (s.onSurface w h orient) = .next (t.onSurface w h orient) := by
  have completes {u v : State} (same : u = v.onSurface w h orient) :
      (Host.Outcome.next u.complete : Host.Outcome State Fault Refusal) = .next (v.complete.onSurface w h orient) := by
    rw [same, onSurface_complete]
  have finishes {r q : Flow Unit} (same : r = q.onSurface w h orient) :
      (Host.Outcome.next r.finish : Host.Outcome State Fault Refusal) = .next (q.finish.onSurface w h orient) := by
    rw [same, Flow.onSurface_finish]
  cases i with
  | setWindow => exact ⟨_, rfl, completes (onSurface_setWindow ..)⟩
  | fillColor => exact ⟨_, rfl, completes (onSurface_fillColor ..)⟩
  | drawPixel => exact ⟨_, rfl, completes (onSurface_pixel ..)⟩
  | fillRectFast => exact ⟨_, rfl, completes (onSurface_fillWindow ..)⟩
  | drawFastHLine => exact ⟨_, rfl, completes (onSurface_hLine ..)⟩
  | drawFastVLine => exact ⟨_, rfl, completes (onSurface_vLine ..)⟩
  | drawLine => exact ⟨_, rfl, completes (onSurface_drawLine ..)⟩
  | drawChar => exact ⟨_, rfl, finishes (onSurface_drawChar ..)⟩
  | drawBitmap x y bitmap =>
    refine ⟨_, rfl, finishes ?_⟩
    rw [onSurface_bitmapAsset]
    exact Flow.onSurface_bind w h orient _ _ _ fun b u => onSurface_blit w h orient u b (zext x) (zext y)
  | _ => simp [Instr.ignoresSurface] at ignores

/-- Settles O42, by `exec_onSurface`. -/
theorem uncheckedOperationsIgnoreTheSurface : Obligations.UncheckedOperationsIgnoreTheSurface := by
  intro i s t w h orient ignores run
  obtain ⟨t', run', run_onSurface⟩ := exec_onSurface w h orient ignores s
  obtain rfl : t' = t := Host.Outcome.next.inj (run'.symm.trans run)
  exact run_onSurface

end Sys2Proof.Machine

/-! Lines (spec/43_rasterizer_line.md R115 to R126): the events of the fast lines and of DRAW_LINE, the sample points of a
sloped line, and what lines leave alone on the panel (spec/20_memory.md R67). -/

namespace Sys2Proof.Machine

/-! ## Fast lines (R115 to R118) -/

/-- Settles O26, by `hLine_draws` and `vLine_draws`. -/
theorem fastLinesComplete : Obligations.FastLinesComplete :=
  ⟨fun s x0 y0 x1 t color => ⟨_, rfl, (hLine_draws s x0 y0 x1 t.toNat color).completes⟩,
   fun s x0 y0 y1 t color => ⟨_, rfl, (vLine_draws s x0 y0 y1 t.toNat color).completes⟩⟩

/-! ## Sloped lines (R120 to R123) -/

theorem zext_inj {a b : Word} : zext a = zext b ↔ a = b := by
  rw [zext, zext, Int.natCast_inj, BitVec.toNat_inj]

section
variable (s : State) {x0 y0 x1 y1 : Word} (t : Nat) (color : Word)

/-- The shallow stepper draws the closed form, from the left endpoint (R122). -/
theorem shallow_draws (slope : (zext y1 - zext y0).natAbs ≤ (zext x1 - zext x0).natAbs) (notVertical : x0 ≠ x1) :
    Draws s
      (thickEvents s.params t color
        (if x0.toNat ≤ x1.toNat then shallowPoints (zext x0) (zext y0) (zext x1) (zext y1)
         else shallowPoints (zext x1) (zext y1) (zext x0) (zext y0)))
      (s.shallow (zext x0) (zext y0) (zext x1) (zext y1) t color) := by
  have ends : zext x0 ≠ zext x1 := zext_inj.not.2 notVertical
  have order : zext x0 > zext x1 ↔ ¬ x0.toNat ≤ x1.toNat := by simp [zext]
  unfold State.shallow
  by_cases rising : x0.toNat ≤ x1.toNat
  · rw [if_pos rising, if_neg (order.not_left.2 rising), ← shallow_points (by omega) slope]
    exact stepLine_draws ..
  · rw [if_neg rising, if_pos (order.2 rising), ← shallow_points (by omega) (by omega)]
    exact stepLine_draws ..

/-- The steep stepper draws the closed form, from the upper endpoint (R123). -/
theorem steep_draws (slope : (zext x1 - zext x0).natAbs ≤ (zext y1 - zext y0).natAbs) (notHorizontal : y0 ≠ y1) :
    Draws s
      (thickEvents s.params t color
        (if y0.toNat ≤ y1.toNat then steepPoints (zext x0) (zext y0) (zext x1) (zext y1)
         else steepPoints (zext x1) (zext y1) (zext x0) (zext y0)))
      (s.steep (zext x0) (zext y0) (zext x1) (zext y1) t color) := by
  have ends : zext y0 ≠ zext y1 := zext_inj.not.2 notHorizontal
  have order : zext y0 > zext y1 ↔ ¬ y0.toNat ≤ y1.toNat := by simp [zext]
  unfold State.steep
  by_cases rising : y0.toNat ≤ y1.toNat
  · rw [if_pos rising, if_neg (order.not_left.2 rising), ← steep_points (by omega) slope]
    exact stepLine_draws ..
  · rw [if_neg rising, if_pos (order.2 rising), ← steep_points (by omega) (by omega)]
    exact stepLine_draws ..

variable (x0 y0 x1 y1) in
/-- The dispatch of DRAW_LINE on words (R120, R121). -/
theorem drawLine_draws :
    Draws s (lineEvents s.params x0 y0 x1 y1 t color)
      (s.drawLine (zext x0) (zext y0) (zext x1) (zext y1) t color) := by
  unfold State.drawLine lineEvents linePoints
  simp only [zext_inj]
  split
  · exact vLine_draws ..
  split
  · exact hLine_draws ..
  split
  · exact shallow_draws s t color (by omega) ‹_›
  · exact steep_draws s t color (by omega) ‹_›

theorem drawLine_draws_sloped (notVertical : x0 ≠ x1) (notHorizontal : y0 ≠ y1) :
    Draws s (thickEvents s.params t color (linePoints x0 y0 x1 y1))
      (s.drawLine (zext x0) (zext y0) (zext x1) (zext y1) t color) := by
  simpa only [lineEvents, if_neg notVertical, if_neg notHorizontal] using drawLine_draws s x0 y0 x1 y1 t color

end

/-- Settles O27, by `drawLine_draws`. -/
theorem drawLineIsTheRoundedLine : Obligations.DrawLineIsTheRoundedLine := fun s x0 y0 x1 y1 t color =>
  ⟨_, rfl, (drawLine_draws s x0 y0 x1 y1 t.toNat color).completes⟩

/-! ## The order of the endpoints (R124) -/

section
variable (s : State) (x0 y0 x1 y1 : Int) (t : Nat) (color : Word)

theorem hLine_comm : s.hLine x0 y0 x1 t color = s.hLine x1 y0 x0 t color := by
  rw [State.hLine, min_comm, max_comm, State.hLine]

theorem vLine_comm : s.vLine x0 y0 y1 t color = s.vLine x0 y1 y0 t color := by
  rw [State.vLine, min_comm, max_comm, State.vLine]

theorem shallow_comm (notVertical : x0 ≠ x1) :
    s.shallow x0 y0 x1 y1 t color = s.shallow x1 y1 x0 y0 t color := by
  unfold State.shallow
  obtain rising | falling := notVertical.lt_or_gt
  · rw [if_neg rising.not_gt, if_pos rising]
  · rw [if_pos falling, if_neg falling.not_gt]

theorem steep_comm (notHorizontal : y0 ≠ y1) :
    s.steep x0 y0 x1 y1 t color = s.steep x1 y1 x0 y0 t color := by
  unfold State.steep
  obtain rising | falling := notHorizontal.lt_or_gt
  · rw [if_neg rising.not_gt, if_pos rising]
  · rw [if_pos falling, if_neg falling.not_gt]

/-- Both orders of the endpoints take the same case of the dispatch. -/
theorem drawLine_comm : s.drawLine x0 y0 x1 y1 t color = s.drawLine x1 y1 x0 y0 t color := by
  have octant : (y1 - y0).natAbs < (x1 - x0).natAbs ↔ (y0 - y1).natAbs < (x0 - x1).natAbs := by omega
  unfold State.drawLine
  simp only [eq_comm (a := x1), eq_comm (a := y1), octant]
  split
  case isTrue vertical => rw [vertical, vLine_comm]
  split
  case isTrue horizontal => rw [horizontal, hLine_comm]
  split
  · exact shallow_comm (notVertical := ‹_›) ..
  · exact steep_comm (notHorizontal := ‹_›) ..

end

/-- Settles O29, by `drawLine_comm`. -/
theorem lineEndpointOrderIsIrrelevant : Obligations.LineEndpointOrderIsIrrelevant := by
  intro s x0 y0 x1 y1 t color
  show Host.Outcome.next _ = Host.Outcome.next _
  rw [drawLine_comm]

/-! ## The sample points (R125) -/

/-- The points lead from (x0, y0) to (x1, y1) in n steps and stay in the box of these two. -/
structure Spans (pts : List (Int × Int)) (x0 y0 x1 y1 : Int) (n : Nat) : Prop where
  length : pts.length = n + 1
  head : pts.head? = some (x0, y0)
  last : pts.getLast? = some (x1, y1)
  box : ∀ q ∈ pts, min x0 x1 ≤ q.1 ∧ q.1 ≤ max x0 x1 ∧ min y0 y1 ≤ q.2 ∧ q.2 ≤ max y0 y1

theorem shallowPoints_spans {x0 x1 : Int} (lt : x0 < x1) (y0 y1 : Int) :
    Spans (shallowPoints x0 y0 x1 y1) x0 y0 x1 y1 (x1 - x0).natAbs := by
  obtain ⟨length, head, last, box⟩ := shallowPoints_spec (y0 := y0) (y1 := y1) lt
  refine ⟨length, head, last, ?_⟩
  rwa [min_eq_left lt.le, max_eq_right lt.le]

theorem steepPoints_spans {y0 y1 : Int} (lt : y0 < y1) (x0 x1 : Int) :
    Spans (steepPoints x0 y0 x1 y1) x0 y0 x1 y1 (y1 - y0).natAbs := by
  obtain ⟨length, head, last, box⟩ := shallowPoints_spans lt x0 x1
  rw [steepPoints_eq]
  refine ⟨by simpa using length, by simp [head], by simp [last], ?_⟩
  rw [List.forall_mem_map]
  intro q mem
  obtain ⟨top, bottom, left, right⟩ := box q mem
  exact ⟨left, right, top, bottom⟩

/-- A sloped line runs from its first endpoint to its second one where these rise along the major axis, and back where
they fall. -/
theorem linePoints_spans {x0 y0 x1 y1 : Word} (notVertical : x0 ≠ x1) (notHorizontal : y0 ≠ y1) {dx dy : Nat}
    (hdx : dx = (zext x1 - zext x0).natAbs) (hdy : dy = (zext y1 - zext y0).natAbs) :
    if (dy < dx ∧ x0.toNat < x1.toNat) ∨ (dx ≤ dy ∧ y0.toNat < y1.toNat) then
      Spans (linePoints x0 y0 x1 y1) (zext x0) (zext y0) (zext x1) (zext y1) (max dx dy)
    else Spans (linePoints x0 y0 x1 y1) (zext x1) (zext y1) (zext x0) (zext y0) (max dx dy) := by
  have columns : x0.toNat ≠ x1.toNat := BitVec.toNat_inj.not.2 notVertical
  have rows : y0.toNat ≠ y1.toNat := BitVec.toNat_inj.not.2 notHorizontal
  unfold linePoints
  rw [← hdx, ← hdy]
  unfold zext at *
  by_cases shallow : dy < dx
  · rw [if_pos shallow, max_eq_left shallow.le]
    by_cases rising : x0.toNat ≤ x1.toNat
    · rw [if_pos rising, if_pos (by omega), hdx]
      exact shallowPoints_spans (by omega) _ _
    · rw [if_neg rising, if_neg (by omega), hdx, ← Int.natAbs_neg, neg_sub]
      exact shallowPoints_spans (by omega) _ _
  · rw [if_neg shallow, max_eq_right (not_lt.1 shallow)]
    by_cases rising : y0.toNat ≤ y1.toNat
    · rw [if_pos rising, if_pos (by omega), hdy]
      exact steepPoints_spans (by omega) _ _
    · rw [if_neg rising, if_neg (by omega), hdy, ← Int.natAbs_neg, neg_sub]
      exact steepPoints_spans (by omega) _ _

theorem linePoints_length {x0 y0 x1 y1 : Word} (notVertical : x0 ≠ x1) (notHorizontal : y0 ≠ y1) :
    (linePoints x0 y0 x1 y1).length = max (zext x1 - zext x0).natAbs (zext y1 - zext y0).natAbs + 1 := by
  have spans := linePoints_spans notVertical notHorizontal rfl rfl
  split at spans <;> exact spans.length

theorem linePoints_box {x0 y0 x1 y1 : Word} (notVertical : x0 ≠ x1) (notHorizontal : y0 ≠ y1) :
    ∀ q ∈ linePoints x0 y0 x1 y1,
      min x0.toNat x1.toNat ≤ q.1 ∧ q.1 ≤ max x0.toNat x1.toNat ∧
        min y0.toNat y1.toNat ≤ q.2 ∧ q.2 ≤ max y0.toNat y1.toNat := by
  intro q mem
  have spans := linePoints_spans notVertical notHorizontal rfl rfl
  split at spans
  all_goals
    have box := spans.box q mem
    unfold zext at box
    omega

/-- Settles O28: the points are `linePoints`, and `linePoints_spans` says where they lead. -/
theorem lineSamplesSpanTheEndpoints : Obligations.LineSamplesSpanTheEndpoints := by
  intro s x0 y0 x1 y1 t color dx dy notVertical notHorizontal hdx hdy
  have hdx' : dx = (zext x1 - zext x0).natAbs := by unfold zext; omega
  have hdy' : dy = (zext y1 - zext y0).natAbs := by unfold zext; omega
  refine ⟨_, linePoints x0 y0 x1 y1, rfl,
    (drawLine_draws_sloped s t.toNat color notVertical notHorizontal).completes, ?length,
    linePoints_box notVertical notHorizontal, ?ends⟩
  case length => rw [linePoints_length notVertical notHorizontal, hdx', hdy']
  case ends =>
    have spans := linePoints_spans notVertical notHorizontal hdx' hdy'
    split at spans
    case isTrue rising =>
      rw [if_pos rising]
      exact ⟨spans.head, spans.last⟩
    case isFalse falling =>
      rw [if_neg falling]
      exact ⟨spans.head, spans.last⟩

/-! ## The panel -/

/-- The last column or row of a span that is not empty is never past its end, wherever it comes round (R11). -/
theorem lo16_last_le {a : Int} {n : Nat} (first : 0 ≤ a) (pos : 0 < n) : ((lo16 (a + n - 1)).toNat : Int) ≤ a + n - 1 := by
  rw [lo16, BitVec.toNat_ofInt]
  omega

theorem toNat_lo16 {a : Int} (first : 0 ≤ a) (last : a < 65536) : ((lo16 a).toNat : Int) = a := by
  rw [lo16, BitVec.toNat_ofInt]
  omega

section
variable (p : Params) (q : Panel) (color : Word) {t col row : Nat} (hc : col < 65536)
include hc

/-- A fill changes no pixel outside its window, and none at all if it is of no pixels. -/
theorem Panel.after_fill_outside {x1 y1 x2 y2 : Word} {n : Nat}
    (out : n ≠ 0 → ¬ (x1.toNat ≤ col ∧ col ≤ max x1.toNat x2.toNat ∧ y1.toNat ≤ row ∧ row ≤ y2.toNat)) :
    (q.after p (paintEvents p x1 y1 x2 y2 color n)).pixel col row = q.pixel col row := by
  obtain rfl | sized := eq_or_ne n 0
  · exact Panel.after_paint_none ..
  · exact Panel.after_paint_outside hc (out sized)

theorem Panel.after_hLine_outside {x0 y0 x1 : Word}
    (out : inWindow (lower x0 x1).toNat y0.toNat (upper x0 x1).toNat (y0.toNat + t - 1) col row = false) :
    (q.after p (hLineEvents p x0 y0 x1 t color)).pixel col row = q.pixel col row := by
  refine Panel.after_fill_outside p q color hc fun sized inside => ?_
  have ordered := lower_le_upper x0 x1
  have thick : 0 < t := Nat.pos_of_ne_zero (right_ne_zero_of_mul sized)
  have last := lo16_last_le (a := zext y0) (Int.natCast_nonneg _) thick
  simp only [inWindow, Bool.and_eq_false_iff, decide_eq_false_iff_not] at out
  unfold zext at *
  omega

theorem Panel.after_vLine_outside {x0 y0 y1 : Word}
    (out : inWindow x0.toNat (lower y0 y1).toNat (x0.toNat + t - 1) (upper y0 y1).toNat col row = false) :
    (q.after p (vLineEvents p x0 y0 y1 t color)).pixel col row = q.pixel col row := by
  refine Panel.after_fill_outside p q color hc fun sized inside => ?_
  have thick : 0 < t := Nat.pos_of_ne_zero (right_ne_zero_of_mul sized)
  have last := lo16_last_le (a := zext x0) (Int.natCast_nonneg _) thick
  simp only [inWindow, Bool.and_eq_false_iff, decide_eq_false_iff_not] at out
  unfold zext at *
  omega

/-- Thick pixels at points in 16 bits change no pixel outside their blocks. -/
theorem Panel.after_thick_outside {pts : List (Int × Int)}
    (words : ∀ a ∈ pts, 0 ≤ a.1 ∧ a.1 < 65536 ∧ 0 ≤ a.2 ∧ a.2 < 65536)
    (out : ∀ a ∈ pts, ¬ (a.1 ≤ col ∧ col < a.1 + t ∧ a.2 ≤ row ∧ row < a.2 + t)) :
    (q.after p (thickEvents p t color pts)).pixel col row = q.pixel col row := by
  refine Panel.after_flatMap_pixel p _ pts q fun a mem q => ?_
  obtain ⟨left, right, top, bottom⟩ := words a mem
  refine Panel.after_fill_outside p q color hc fun sized inside => out a mem ?_
  have thick : 0 < t := Nat.pos_of_ne_zero (right_ne_zero_of_mul sized)
  have firstColumn := toNat_lo16 left right
  have firstRow := toNat_lo16 top bottom
  have lastColumn := lo16_last_le left thick
  have lastRow := lo16_last_le top thick
  omega

end

/-- Settles O47: a window end that comes round lies before the end of its block, so no window reaches past its block. -/
theorem linesKeepPixelsOutsideTheirBlocks : Obligations.LinesKeepPixelsOutsideTheirBlocks := by
  intro s t color col row hc _
  refine ⟨fun x0 y0 x1 out => ⟨_, rfl, fun _ => ?horizontal⟩, fun x0 y0 y1 out => ⟨_, rfl, fun _ => ?vertical⟩,
    fun x0 y0 x1 y1 notVertical notHorizontal out => ⟨_, rfl, fun _ => ?sloped⟩⟩
  case horizontal =>
    rw [(hLine_draws s x0 y0 x1 t.toNat color).completes_panel]
    exact Panel.after_hLine_outside _ _ color hc out
  case vertical =>
    rw [(vLine_draws s x0 y0 y1 t.toNat color).completes_panel]
    exact Panel.after_vLine_outside _ _ color hc out
  case sloped =>
    rw [(drawLine_draws_sloped s t.toNat color notVertical notHorizontal).completes_panel]
    refine Panel.after_thick_outside _ _ color hc (fun q mem => ?_) out
    have box := linePoints_box notVertical notHorizontal q mem
    have words := And.intro (And.intro x0.isLt x1.isLt) (And.intro y0.isLt y1.isLt)
    omega

end Sys2Proof.Machine

/-! Glyphs and strings (spec/44_glyph_string.md R142 to R150): what DRAW_CHAR and DRAW_STRING_MAIN draw and the faults they
and DRAW_BITMAP raise (spec/60_exceptions.md R178 to R181), font lookup, and what text leaves alone on the panel
(spec/20_memory.md R67). -/

namespace Sys2Proof.Machine

/-! ## Font lookup (R145) -/

/-- Settles O32, by induction on the entries: an entry with the code is the match itself, and any other one is passed over. -/
theorem fontLookupTakesTheFirstMatch : Obligations.FontLookupTakesTheFirstMatch := by
  intro entries c gh
  induction entries with
  | nil => simp [fontLookup]
  | cons entry rest ih =>
    obtain ⟨code, found⟩ := entry
    rw [fontLookup]
    by_cases same : code = c
    case pos =>
      rw [if_pos same, Option.some_inj]
      refine ⟨fun is => ⟨0, by simp [same, is], by simp⟩, fun ⟨k, at_k, earlier⟩ => ?_⟩
      cases k with
      | zero => simpa [same] using at_k
      | succ k => exact absurd same (earlier 0 k.succ_pos _ rfl)
    case neg =>
      rw [if_neg same, ih]
      refine ⟨fun ⟨k, at_k, earlier⟩ => ⟨k + 1, at_k, fun j lt e at_j => ?_⟩, fun ⟨k, at_k, earlier⟩ => ?_⟩
      · cases j with
        | zero => simpa [← Option.some_inj.1 at_j] using same
        | succ j => exact earlier j (Nat.lt_of_succ_lt_succ lt) e at_j
      · cases k with
        | zero => simp [same] at at_k
        | succ k => exact ⟨k, at_k, fun j lt e at_j => earlier (j + 1) (Nat.succ_lt_succ lt) e at_j⟩

/-! ## DRAW_CHAR (R142 to R144, R150) -/

theorem drawChar_of_glyph {s : State} {glyph : Handle} {g : Glyph} (isGlyph : s.resolve glyph = some (.glyph g))
    (a : CharArgs) : s.drawChar glyph a = s.drawGlyph g a := by
  rw [State.drawChar, State.glyphAsset, isGlyph, Flow.bind_ok]

/-- Settles O30, by `drawGlyph_draws`. -/
theorem drawCharDrawsTheClosedForm : Obligations.DrawCharDrawsTheClosedForm := by
  intro s x y fg bg glyph hasBg g isGlyph ok
  obtain ⟨u, run, draws⟩ := drawGlyph_draws ⟨zext x, zext y, fg, bg, hasBg⟩ s ok
  refine ⟨_, rfl, ?_⟩
  rw [drawChar_of_glyph isGlyph, run]
  exact draws.draws.completes

theorem lo16_zext_add (v : Word) (n : Nat) : lo16 (zext v + n) = BitVec.ofNat 16 (v.toNat + n) := by
  rw [zext, ← Nat.cast_add, lo16_natCast]

/-- The first column's bits within the first byte are that byte's, from the top down, with realignment and without. -/
theorem glyphPlace_first_byte (realign : Bool) {g : Glyph} {j : Nat} (within : j < g.bpr.toNat) :
    glyphPlace realign g 0 j = (0, j) := by
  simp [glyphPlace, Nat.div_eq_of_lt within, Nat.mod_eq_of_lt within]

/-- A first byte 0xFF makes the first column's bits within it 1. -/
theorem glyphBit_full_byte (realign : Bool) {g : Glyph} (full : g.bits[0]? = some 0xFF) {j : Nat}
    (within : j < g.bpr.toNat) : glyphBit realign g 0 j = true := by
  have ones : ∀ k < 8, (0xFF : Byte).getLsbD k = true := by decide
  rw [glyphBit, glyphPlace_first_byte realign within, full]
  exact ones (7 - j) (by omega)

/-- Settles O31: all the column's bits lie within the one byte, so every one of them is a background pixel. -/
theorem fullByteIsAFullColumn : Obligations.FullByteIsAFullColumn := by
  intro s x y fg bg glyph hasBg g isGlyph ok oneColumn full oneByte
  have within : g.h.toNat ≤ g.bpr.toNat := by
    split at oneByte
    · exact oneByte
    · exact oneByte.ge
  have column : glyphEvents s.params g ⟨zext x, zext y, fg, bg, hasBg⟩ =
      (if hasBg then (List.range g.h.toNat).flatMap fun j =>
        paintEvents s.params x (BitVec.ofNat 16 (y.toNat + j)) x (BitVec.ofNat 16 (y.toNat + j)) bg 1 else []) := by
    have background : ∀ j ∈ List.range g.h.toNat, glyphBit s.params.glyphColumnRealign g 0 j = true := fun j mem =>
      glyphBit_full_byte _ full ((List.mem_range.1 mem).trans_le within)
    have width : g.w.toNat = 1 := by rw [oneColumn]; rfl
    rw [glyphEvents, width, List.range_one, List.flatMap_singleton]
    cases hasBg with
    | true =>
      refine List.flatMap_congr fun j mem => ?_
      simp [background j mem, lo16_zext_add]
    | false =>
      refine List.flatMap_eq_nil_iff.2 fun j mem => ?_
      simp [background j mem]
  rw [← column]
  exact drawCharDrawsTheClosedForm s x y fg bg glyph hasBg g isGlyph ok

/-! ## DRAW_STRING_MAIN (R147 to R149) -/

theorem drawString_completes {s : State} {x y : Word} {str font : Handle} {bytes : List Byte} {f : Font} (st : TextStyle)
    (isString : s.resolve str = some (.string bytes)) (isFont : s.resolve font = some (.font f))
    (noFault : (s.stringPlan f bytes x y).fault = none) :
    Completes s (planEvents s.params st.fg st.bg st.hasBg (s.stringPlan f bytes x y).drawn)
      (s.drawString x y str font st).finish := by
  obtain ⟨u, run, draws⟩ := drawString_draws x y st isString isFont
  rw [run, StringPlan.flow, noFault]
  exact draws.completes

/-- Settles O33, by `drawString_completes`. -/
theorem drawStringFollowsTheLayout : Obligations.DrawStringFollowsTheLayout :=
  fun _ _ _ _ fg bg _ _ _ isString isFont noFault =>
    ⟨fun hasBg => ⟨_, rfl, drawString_completes ⟨fg, bg, hasBg⟩ isString isFont noFault⟩,
     ⟨_, rfl, drawString_completes ⟨fg, bg, false⟩ isString isFont noFault⟩,
     ⟨_, rfl, drawString_completes ⟨fg, bg, true⟩ isString isFont noFault⟩⟩

/-! ## Faults (R178, R180, R181) -/

/-- An operation that raises a fault takes it, after exactly the events before it. -/
theorem exec_faults {s : State} {i : Instr} {c : FaultCode} {es : List Event} (noFault : s.status.fault = false)
    (raises : s.operationRaises i = some (c, es)) : ∃ t, exec i s = .next t ∧ Faults s es c t := by
  obtain ⟨t, run, ends⟩ := exec_endsAs i s
  rw [raises] at ends
  obtain ⟨u, draws, rfl⟩ := ends
  exact ⟨_, run, draws.faults noFault c⟩

theorem glyphOrFault_of_not_glyph {s : State} {glyph : Handle} (notGlyph : ∀ g, s.resolve glyph ≠ some (.glyph g)) :
    s.glyphOrFault glyph = .error .badAsset := by
  rw [State.glyphOrFault]
  split
  case h_1 g isGlyph => exact absurd isGlyph (notGlyph g)
  all_goals rfl

theorem glyphOrFault_of_glyph {s : State} {glyph : Handle} {g : Glyph} (isGlyph : s.resolve glyph = some (.glyph g)) :
    s.glyphOrFault glyph = .ok g := by
  rw [State.glyphOrFault, isGlyph]

theorem charRaises_of_not_glyph {s : State} {glyph : Handle} (notGlyph : ∀ g, s.resolve glyph ≠ some (.glyph g)) :
    s.charRaises glyph = some (.badAsset, []) := by
  rw [State.charRaises, glyphOrFault_of_not_glyph notGlyph]

theorem charRaises_of_glyphFault {s : State} {glyph : Handle} {g : Glyph} {c : FaultCode}
    (isGlyph : s.resolve glyph = some (.glyph g)) (bad : glyphFault s.params g = some c) :
    s.charRaises glyph = some (c, []) := by
  rw [State.charRaises, glyphOrFault_of_glyph isGlyph]
  simp [bad]

theorem bitmapRaises_of_not_bitmap {s : State} {bitmap : Handle} (notBitmap : ∀ b, s.resolve bitmap ≠ some (.bitmap b)) :
    s.bitmapRaises bitmap = some (.badAsset, []) := by
  rw [State.bitmapRaises]
  split
  case h_1 b isBitmap => exact absurd isBitmap (notBitmap b)
  all_goals rfl

theorem bitmapRaises_of_short {s : State} {bitmap : Handle} {b : Bitmap} (isBitmap : s.resolve bitmap = some (.bitmap b))
    (short : b.data.length < 2 * b.w.toNat * b.h.toNat) : s.bitmapRaises bitmap = some (.assetRange, []) := by
  rw [State.bitmapRaises, isBitmap]
  exact if_pos short

/-- Settles O36: in each case `State.operationRaises` gives the fault, with no event before it. -/
theorem assetFaultsComeBeforeAnyEvent : Obligations.AssetFaultsComeBeforeAnyEvent := by
  intro s x y fg bg hd hasBg noFault
  refine ⟨fun notGlyph => ?_, fun g isGlyph badFormat => ?_, fun g isGlyph bpr_pos bpr_le short => ?_,
    fun notBitmap => ?_, fun b isBitmap short => ?_⟩ <;> refine exec_faults noFault ?_
  · exact charRaises_of_not_glyph notGlyph
  · exact charRaises_of_glyphFault isGlyph (if_pos (by omega))
  · have need : g.bits.length < glyphNeed s.params.glyphColumnRealign g := short
    refine charRaises_of_glyphFault isGlyph ?_
    rw [glyphFault, if_neg (by omega), if_pos need]
  · exact bitmapRaises_of_not_bitmap notBitmap
  · exact bitmapRaises_of_short isBitmap short

/-- Without a space glyph, a string whose first character asks for its height draws nothing and faults (R146). -/
theorem stringPlan_noSpaceGlyph {s : State} {f : Font} (noSpace : fontLookup f.entries 0x20 = none) {c : Byte}
    (asks : c = 0x0A ∨ c = 0x09) (rest : List Byte) (x y : Word) :
    s.stringPlan f (c :: rest) x y = ⟨[], some .noSpaceGlyph⟩ := by
  have unit : s.spaceUnit f = .error .noSpaceGlyph := by
    rw [State.spaceUnit, State.lookGlyph, noSpace, Option.map_none]
  rw [State.stringPlan, unit]
  obtain rfl | rfl := asks <;> rfl

theorem stringRaises_badAsset {s : State} {str font : Handle} (x y fg bg : Word) (hasBg : Bool)
    (bad : (∀ bytes, s.resolve str ≠ some (.string bytes)) ∨ ∀ f, s.resolve font ≠ some (.font f)) :
    s.stringRaises x y str fg bg font hasBg = some (.badAsset, []) := by
  rw [State.stringRaises]
  split
  case h_1 bytes f isString isFont => exact (bad.elim (· bytes isString) (· f isFont)).elim
  case h_2 => rfl

theorem stringRaises_of_plan {s : State} {str font : Handle} {bytes : List Byte} {f : Font} {x y : Word} (fg bg : Word)
    (hasBg : Bool) {c : FaultCode} (isString : s.resolve str = some (.string bytes))
    (isFont : s.resolve font = some (.font f)) (fault : (s.stringPlan f bytes x y).fault = some c) :
    s.stringRaises x y str fg bg font hasBg =
      some (c, planEvents s.params fg bg hasBg (s.stringPlan f bytes x y).drawn) := by
  rw [State.stringRaises, isString, isFont]
  simp [fault]

/-- Settles O34: the fault of the assets, or the fault of the plan after the events of what it draws. -/
theorem drawStringFaults : Obligations.DrawStringFaults := by
  intro s x y str fg bg font hasBg noFault
  refine ⟨fun bad => ?_, fun c rest f asks isString isFont noSpace => ?_, fun bytes f c isString isFont fault => ?_⟩ <;>
    refine exec_faults noFault ?_
  · exact stringRaises_badAsset x y fg bg hasBg bad
  · have plan := stringPlan_noSpaceGlyph (s := s) noSpace asks rest x y
    have raises := stringRaises_of_plan fg bg hasBg isString isFont (congrArg StringPlan.fault plan)
    rwa [plan] at raises
  · exact stringRaises_of_plan fg bg hasBg isString isFont fault

/-! ## The panel -/

/-- A pixel changes no other pixel, its coordinates reduced modulo 2^16 (R11, R67). -/
theorem Panel.after_point_outside {p : Params} {q : Panel} {x y color : Word} {i j col row : Nat} (hc : col < 65536)
    (out : ¬ (col = (x.toNat + i) % 65536 ∧ row = (y.toNat + j) % 65536)) :
    (q.after p (paintEvents p (lo16 (zext x + i)) (lo16 (zext y + j)) (lo16 (zext x + i)) (lo16 (zext y + j)) color 1)).pixel
      col row = q.pixel col row := by
  refine Panel.after_paint_outside hc ?_
  rw [lo16_zext_add, lo16_zext_add, BitVec.toNat_ofNat, BitVec.toNat_ofNat]
  omega

/-- A glyph changes no pixel outside its cell. -/
theorem Panel.after_glyph_outside (p : Params) (q : Panel) {g : Glyph} {x y : Word} (fg bg : Word) (hasBg : Bool)
    {col row : Nat} (hc : col < 65536)
    (out : ∀ i < g.w.toNat, ∀ j < g.h.toNat, ¬ (col = (x.toNat + i) % 65536 ∧ row = (y.toNat + j) % 65536)) :
    (q.after p (glyphEvents p g ⟨zext x, zext y, fg, bg, hasBg⟩)).pixel col row = q.pixel col row := by
  refine Panel.after_flatMap_pixel p _ _ q fun i inColumns q => Panel.after_flatMap_pixel p _ _ q fun j inRows q => ?_
  have off := out i (List.mem_range.1 inColumns) j (List.mem_range.1 inRows)
  split
  case isTrue =>
    split
    · exact Panel.after_point_outside hc off
    · rfl
  case isFalse => exact Panel.after_point_outside hc off

/-- DRAW_CHAR of a glyph leaves the panel as its events do, or, where the glyph fails its checks, as it was. -/
theorem drawGlyph_finish_panel (s : State) (g : Glyph) (a : CharArgs) :
    (s.drawGlyph g a).finish.panel = s.panel.after s.params (glyphEvents s.params g a) ∨
      (s.drawGlyph g a).finish.panel = s.panel := by
  obtain ⟨u, run, draws⟩ | ⟨c, run⟩ := drawGlyph_cases g a s
  · exact .inl (by rw [run]; exact draws.draws.panel)
  · exact .inr (by rw [run]; rfl)

theorem StringPlan.flow_finish_panel (plan : StringPlan) (t : State) : (plan.flow t).finish.panel = t.panel := by
  rw [StringPlan.flow]
  cases plan.fault <;> rfl

theorem drawString_finish_panel {s : State} {str font : Handle} {bytes : List Byte} {f : Font} (x y : Word) (st : TextStyle)
    (isString : s.resolve str = some (.string bytes)) (isFont : s.resolve font = some (.font f)) :
    (s.drawString x y str font st).finish.panel =
      s.panel.after s.params (planEvents s.params st.fg st.bg st.hasBg (s.stringPlan f bytes x y).drawn) := by
  obtain ⟨u, run, draws⟩ := drawString_draws x y st isString isFont
  rw [run, StringPlan.flow_finish_panel]
  exact draws.panel

/-- Settles O49: each glyph keeps to its cell, and assets that do not resolve fault before any event. -/
theorem textKeepsPixelsOutsideItsCells : Obligations.TextKeepsPixelsOutsideItsCells := by
  intro s x y fg bg hasBg col row hc _
  refine ⟨fun glyph out => ⟨_, rfl, fun _ => ?char⟩, fun str font out => ⟨_, rfl, fun _ => ?string⟩⟩
  case char =>
    by_cases isGlyph : ∃ g, s.resolve glyph = some (.glyph g)
    · obtain ⟨g, isGlyph⟩ := isGlyph
      rw [drawChar_of_glyph isGlyph]
      obtain panel | panel := drawGlyph_finish_panel s g ⟨zext x, zext y, fg, bg, hasBg⟩
      · rw [panel]
        exact Panel.after_glyph_outside _ _ fg bg hasBg hc (out g isGlyph)
      · rw [panel]
    · rw [State.drawChar, glyphAsset_spec, glyphOrFault_of_not_glyph (not_exists.1 isGlyph)]
      rfl
  case string =>
    by_cases bad : (∀ bytes, s.resolve str ≠ some (.string bytes)) ∨ ∀ f, s.resolve font ≠ some (.font f)
    · rw [drawString_badAsset x y _ bad]
      rfl
    · simp only [not_or, not_forall, not_not] at bad
      obtain ⟨⟨bytes, isString⟩, f, isFont⟩ := bad
      rw [drawString_finish_panel x y _ isString isFont]
      exact Panel.after_flatMap_pixel _ _ _ _ fun q drawn panel =>
        Panel.after_glyph_outside _ panel fg bg hasBg hc (out bytes f isString isFont q drawn)

end Sys2Proof.Machine

/-! Bitmaps (spec/45_bitmap.md R160, R161): the events of DRAW_BITMAP, and where its pixels land on the panel
(spec/20_memory.md R67, R69). -/

namespace Sys2Proof.Machine

/-! ## The events (R57, R160) -/

/-- The events of a bitmap at (x, y): its window, then the bytes it reads, as one group. -/
def bitmapEvents (p : Params) (x y : Word) (b : Bitmap) : List Event :=
  windowEvents p x y (x + b.w - 1) (y + b.h - 1) ++ bytesEvents p (b.data.take (bitmapBytes b))

theorem writeData_draws (s : State) (bs : List Byte) : Draws s (bytesEvents s.params bs) (s.writeData bs) := by
  rw [State.writeData, dataGroup_eq]
  exact draws_emitAll s _

theorem blit_draws (s : State) (x y : Word) {b : Bitmap} (enough : bitmapBytes b ≤ b.data.length) :
    ∃ u, s.blit b (zext x) (zext y) = .ok () u ∧ Draws s (bitmapEvents s.params x y b) u := by
  have window := setWindow_draws s (zext x) (zext y) (zext x + zext b.w - 1) (zext y + zext b.h - 1)
  have bytes := writeData_draws (s.setWindow (zext x) (zext y) (zext x + zext b.w - 1) (zext y + zext b.h - 1))
    (b.data.take (bitmapBytes b))
  rw [lo16_zext, lo16_zext, lo16_end, lo16_end] at window
  rw [window.params] at bytes
  exact ⟨_, if_neg (Nat.not_lt.2 enough), (window.trans bytes).withWork _⟩

theorem exec_drawBitmap (x y : Word) (bitmap : Handle) (s : State) :
    exec (.drawBitmap x y bitmap) s =
      .next ((s.bitmapAsset bitmap).bind fun b s => s.blit b (zext x) (zext y)).finish := rfl

theorem drawBitmap_draws {s : State} {bitmap : Handle} {b : Bitmap} (x y : Word)
    (isBitmap : s.resolve bitmap = some (.bitmap b)) (enough : bitmapBytes b ≤ b.data.length) :
    ∃ u, exec (.drawBitmap x y bitmap) s = .next u.complete ∧ Draws s (bitmapEvents s.params x y b) u := by
  obtain ⟨u, run, draws⟩ := blit_draws s x y enough
  refine ⟨u, ?_, draws⟩
  rw [exec_drawBitmap, State.bitmapAsset, isBitmap, Flow.bind_ok, run, Flow.finish_ok]

/-- Settles O35, by `drawBitmap_draws`. -/
theorem drawBitmapStreamsItsBytes : Obligations.DrawBitmapStreamsItsBytes := by
  intro s x y bitmap b isBitmap enough
  obtain ⟨u, run, draws⟩ := drawBitmap_draws x y isBitmap enough
  exact ⟨_, run, draws.completes⟩

/-! ## The pixels (R92) -/

/-- The pixels that DRAW_BITMAP sends, row by row. -/
def Bitmap.pixels (b : Bitmap) : List Word := pairUp (b.data.take (bitmapBytes b))

section
variable {b : Bitmap} (enough : bitmapBytes b ≤ b.data.length)

include enough

theorem Bitmap.length_sent : (b.data.take (bitmapBytes b)).length = 2 * (b.w.toNat * b.h.toNat) := by
  rw [List.length_take_of_le enough, bitmapBytes, Nat.mul_assoc]

theorem Bitmap.length_pixels : b.pixels.length = b.w.toNat * b.h.toNat :=
  (pairUp_spec _ _ (Bitmap.length_sent enough)).1

theorem Bitmap.pixels_get {k : Nat} (lt : k < b.w.toNat * b.h.toNat) {hi lo : Byte} (high : b.data[2 * k]? = some hi)
    (low : b.data[2 * k + 1]? = some lo) : b.pixels[k]? = some (hi ++ lo) := by
  have sent : 2 * k + 1 < bitmapBytes b := by
    rw [bitmapBytes, Nat.mul_assoc]
    omega
  obtain ⟨-, -, get⟩ := pairUp_spec _ _ (Bitmap.length_sent enough)
  exact get k lt hi lo (by rwa [List.getElem?_take_of_lt (by omega)]) (by rwa [List.getElem?_take_of_lt sent])

theorem Panel.after_bitmap (p : Params) (q : Panel) (x y : Word) :
    q.after p (bitmapEvents p x y b) = (q.windowed x y (x + b.w - 1) (y + b.h - 1)).takePixels p b.pixels := by
  rw [bitmapEvents, Panel.after_append, Panel.after_window_eq,
    Panel.after_bytes p (q.windowed_ready ..) (Bitmap.length_sent enough), Bitmap.pixels]

/-- A bitmap of no columns or no rows is a window alone, which changes no pixel. -/
theorem Panel.after_bitmap_empty (p : Params) (q : Panel) (x y : Word) (empty : b.w.toNat * b.h.toNat = 0)
    (col row : Nat) : (q.after p (bitmapEvents p x y b)).pixel col row = q.pixel col row := by
  have none : b.pixels = [] := List.length_eq_zero_iff.1 ((Bitmap.length_pixels enough).trans empty)
  rw [Panel.after_bitmap enough, none]
  rfl

end

/-! ## The panel (R161) -/

theorem index_lt_area {wd ht i j : Nat} (column : i < wd) (line : j < ht) : j * wd + i < wd * ht := by
  have whole : (j + 1) * wd ≤ ht * wd := Nat.mul_le_mul_right wd line
  rw [Nat.succ_mul, Nat.mul_comm ht] at whole
  omega

/-- A window filled whole, where the observer is still defined after it: each cell holds its own pixel of the stream, row by
row. -/
theorem Panel.takePixels_cell {p : Params} {q : Panel} {colors : List Word} {wd ht : Nat} (first : q.At wd 0)
    (height : q.ys.toNat + ht = q.ye.toNat + 1) (all : colors.length = wd * ht)
    (defined : (q.takePixels p colors).undef = false) {i j : Nat} (column : i < wd) (line : j < ht) :
    (q.takePixels p colors).pixel (q.xs.toNat + i) (q.ys.toNat + j) = colors[j * wd + i]? := by
  have lt : j * wd + i < colors.length := by
    rw [all]
    exact index_lt_area column line
  have room : 0 + colors.length ≤ wd * ht := by omega
  have width := first.width
  have right := q.xe.isLt
  have index : pixelIndex q.xs.toNat q.ys.toNat wd (q.xs.toNat + i) (q.ys.toNat + j) = j * wd + i := by
    simp [pixelIndex]
  obtain ⟨at_column, at_row⟩ :=
    (pixelIndex_eq first.pos (Nat.le_add_right _ i) (Nat.add_lt_add_left column _) (Nat.le_add_right _ j)).1 index
  have panel := Panel.takePixels_inPanel colors first height room defined _ lt
  rw [Nat.zero_add, ← at_column, ← at_row] at panel
  have window : inWindow q.xs.toNat q.ys.toNat q.xe.toNat q.ye.toNat (q.xs.toNat + i) (q.ys.toNat + j) = true := by
    simp only [inWindow, Bool.and_eq_true, decide_eq_true_eq]
    omega
  rw [Panel.takePixels_pixel colors first height room (by omega), if_pos ⟨window, panel, Nat.zero_le _⟩, index,
    Nat.sub_zero, List.getElem?_eq_getElem lt, Option.some_or]

/-- The last column or row of a span that does not pass 65535, reckoned in 16 bits. -/
theorem toNat_end {v n : Word} (pos : 0 < n.toNat) (fits : v.toNat + n.toNat ≤ 65536) :
    v.toNat + n.toNat = (v + n - 1).toNat + 1 := by
  bv_omega

section
variable {p : Params} {q : Panel} {x y : Word} {b : Bitmap} (enough : bitmapBytes b ≤ b.data.length)
  (columns : x.toNat + b.w.toNat ≤ 65536) (rows : y.toNat + b.h.toNat ≤ 65536)

include enough columns rows

theorem Panel.after_bitmap_cell (defined : (q.after p (bitmapEvents p x y b)).undef = false) {i j : Nat}
    (column : i < b.w.toNat) (line : j < b.h.toNat) :
    (q.after p (bitmapEvents p x y b)).pixel (x.toNat + i) (y.toNat + j) = b.pixels[j * b.w.toNat + i]? := by
  have w_pos : 0 < b.w.toNat := by omega
  have h_pos : 0 < b.h.toNat := by omega
  rw [Panel.after_bitmap enough] at defined ⊢
  exact Panel.takePixels_cell (q.windowed_at _ _ _ _ (toNat_end w_pos columns) w_pos) (toNat_end h_pos rows)
    (Bitmap.length_pixels enough) defined column line

theorem Panel.after_bitmap_outside {col row : Nat} (hc : col < 65536)
    (out : ¬ (x.toNat ≤ col ∧ col < x.toNat + b.w.toNat ∧ y.toNat ≤ row ∧ row < y.toNat + b.h.toNat)) :
    (q.after p (bitmapEvents p x y b)).pixel col row = q.pixel col row := by
  obtain empty | sized := Nat.eq_zero_or_pos (b.w.toNat * b.h.toNat)
  case inl => exact Panel.after_bitmap_empty enough p q x y empty col row
  case inr =>
    have w_pos := Nat.pos_of_mul_pos_right sized
    have h_pos := Nat.pos_of_mul_pos_left sized
    have right := toNat_end w_pos columns
    have bottom := toNat_end h_pos rows
    have off : inWindow x.toNat y.toNat (max x.toNat (x + b.w - 1).toNat) (y + b.h - 1).toNat col row = false := by
      simp only [inWindow, Bool.and_eq_false_iff, decide_eq_false_iff_not]
      omega
    rw [Panel.after_bitmap enough, Panel.takePixels_inside _ ⟨le_refl _, le_max_left _ _, le_refl _⟩ hc off,
      Panel.windowed_pixel]

theorem Panel.after_bitmap_undef (settled : q.settled) (w_pos : 0 < b.w.toNat) (h_pos : 0 < b.h.toNat)
    (inx : x.toNat + b.w.toNat ≤ p.panelW.toNat) (iny : y.toNat + b.h.toNat ≤ p.panelH.toNat) :
    (q.after p (bitmapEvents p x y b)).undef = q.undef := by
  have right := toNat_end w_pos columns
  have bottom := toNat_end h_pos rows
  have room : 0 + b.pixels.length ≤ b.w.toNat * b.h.toNat := by rw [Bitmap.length_pixels enough, Nat.zero_add]
  have lastColumn : (x + b.w - 1).toNat < p.panelW.toNat := by omega
  have lastRow : (y + b.h - 1).toNat < p.panelH.toNat := by omega
  rw [Panel.after_bitmap enough,
    Panel.takePixels_undef _ (q.windowed_at _ _ _ _ right w_pos) bottom room lastColumn lastRow,
    Panel.windowed_undef settled (by omega) (by omega)]

end

/-- Settles O51: the bitmap is a stream of pixels into a window of its own size (D29). -/
theorem bitmapPixelsLandInPlace : Obligations.BitmapPixelsLandInPlace := by
  intro s x y bitmap b isBitmap enough columns rows
  obtain ⟨u, run, draws⟩ := drawBitmap_draws x y isBitmap enough
  refine ⟨_, run, ?_⟩
  rw [draws.completes_panel]
  refine ⟨fun defined i column j line hi lo high low => ?lands, fun _ col row hc _ out => ?frame,
    fun settled hw hh inx iny => ?keeps⟩
  case lands =>
    rw [Panel.after_bitmap_cell enough columns rows defined column line]
    exact Bitmap.pixels_get enough (index_lt_area column line) high low
  case frame => exact Panel.after_bitmap_outside enough columns rows hc out
  case keeps =>
    exact Panel.after_bitmap_undef enough columns rows settled (BitVec.toNat_pos_of_ne_zero hw)
      (BitVec.toNat_pos_of_ne_zero hh) inx iny

end Sys2Proof.Machine

/-! Orientation (spec/46_orientation.md R163 to R167): the mode of a rotation operand, its data byte and its dimensions, and
what ROTATE_DISPLAY sends and sets. -/

namespace Sys2Proof.Machine

/-! ## The mode (R163 to R167) -/

/-- The two low bits of the operand are its remainder (R164). -/
theorem toNat_rotMode (rotation : Byte) : (rotMode rotation).toNat = rotation.toNat % 4 :=
  BitVec.toNat_setWidth 2 rotation

theorem rotMode_mod_four (rotation : Byte) : rotMode (rotation % 4) = rotMode rotation := by
  apply BitVec.eq_of_toNat_eq
  rw [toNat_rotMode, toNat_rotMode, BitVec.toNat_umod]
  exact Nat.mod_mod _ _

theorem madctl_eq_getD (p : Params) (r : BitVec 2) : madctl p r = (p.madctlPat.toList[r.toNat]?).getD 0 := by
  simp [madctl, r.isLt]

/-- An even mode keeps the panel's dimensions and an odd mode swaps them (R166). -/
theorem rotDims_eq_ite_even (p : Params) (r : BitVec 2) :
    rotDims p r = if r.toNat % 2 = 0 then (p.panelW, p.panelH) else (p.panelH, p.panelW) := by
  have even : (r = 0 ∨ r = 2) ↔ r.toNat % 2 = 0 := by bv_omega
  simp only [rotDims, even]

/-! ## ROTATE_DISPLAY -/

theorem exec_rotateDisplay (rotation : Byte) (s : State) :
    exec (.rotateDisplay rotation) s =
      .next ((s.wireCommand 0x36 [madctl s.params (rotMode rotation)]).setOrient (rotMode rotation)).complete := rfl

/-- With the surface registers put back, what ROTATE_DISPLAY leaves is what its wire command alone leaves. -/
theorem memoryAccessControl_setOrient_completes (s : State) (pat : Byte) (r : BitVec 2) :
    Completes s (bracketed s.params [.cmd 0x36] ++ bracketed s.params [.dat pat])
      { ((s.wireCommand 0x36 [pat]).setOrient r).complete with orient := s.orient, w := s.w, h := s.h } :=
  wireCommand_completes s 0x36 [pat]

/-- Settles O37: the registers by the mode's own lemmas, and the rest by the completion of the wire command. -/
theorem rotateDisplaySetsTheOrientation : Obligations.RotateDisplaySetsTheOrientation := by
  intro s rotation
  have even : rotation.toNat % 4 % 2 = rotation.toNat % 2 := Nat.mod_mod_of_dvd _ (by decide)
  refine ⟨_, exec_rotateDisplay rotation s, toNat_rotMode rotation, ?dimensions, ?completes⟩
  case dimensions =>
    rw [← even, ← toNat_rotMode]
    exact rotDims_eq_ite_even s.params (rotMode rotation)
  case completes =>
    rw [← toNat_rotMode, ← madctl_eq_getD]
    exact memoryAccessControl_setOrient_completes s _ _

/-- Settles O38: the operand is used only through its mode. -/
theorem rotationIsModuloFour : Obligations.RotationIsModuloFour := by
  intro s rotation
  rw [exec_rotateDisplay, exec_rotateDisplay, rotMode_mod_four]

end Sys2Proof.Machine

/-! HALTED, the host's actions and fault entry (spec/60_exceptions.md R178 to R184, R194), from `step_cases` and
`runLatched_endsAs`. -/

namespace Sys2Proof.Machine

/-! ## What the host has pending -/

/-- Offers alone leave nothing pending in HALTED. -/
theorem pending_eq_nil_of_offers {s : State} (halted : s.seq = .halted)
    (offers : s.host.all HostAction.isOffer = true) : s.pending = [] := by
  have none := passOffers_append offers []
  rw [List.append_nil] at none
  simpa [State.pending, halted, passOffers] using none

/-- With nothing but offers, HALTED is stuck (R183). -/
theorem step_eq_stuck {s : State} (halted : s.seq = .halted) (offers : s.host.all HostAction.isOffer = true) :
    step s = .fault .halted := by
  simp [step, State.advance, pending_eq_nil_of_offers halted offers, halted]

/-- What is left once offers are passed over stands behind offers alone. -/
theorem passOffers_eq_cons {actions rest : List HostAction} {a : HostAction} (left : passOffers actions = a :: rest) :
    ∃ offers, actions = offers ++ a :: rest ∧ offers.all HostAction.isOffer = true := by
  induction actions with
  | nil => simp [passOffers] at left
  | cons b later ih =>
    cases b with
    | offer words =>
      obtain ⟨offers, rfl, all⟩ := ih left
      exact ⟨.offer words :: offers, rfl, all⟩
    | readReg | blockReset | putAsset | wait => exact ⟨[], left, rfl⟩

theorem host_of_pending_halted {s : State} {a : HostAction} {rest : List HostAction} (halted : s.seq = .halted)
    (hp : s.pending = a :: rest) : ∃ offers, s.host = offers ++ a :: rest ∧ offers.all HostAction.isOffer = true :=
  passOffers_eq_cons (by rwa [State.pending, halted] at hp)

/-- Settles O3: the pending action is the first that is no offer, and of `step_cases` only the reset writes SEQ, STATUS,
FAULT_CODE or TRACE in HALTED. -/
theorem onlyBlockResetLeavesHalted : Obligations.OnlyBlockResetLeavesHalted := by
  intro s halted
  refine ⟨step_eq_stuck halted, fun t run => ?_⟩
  obtain ⟨rest, hp, rfl⟩ | ⟨k, rest, hp, rfl⟩ | ⟨ws, rest, -, idle, -⟩ | ⟨hd, v, rest, hp, -, rfl⟩ |
    ⟨rest, hp, -, rfl⟩ | ⟨-, idle, -⟩ | ⟨busy, -, -⟩ := step_cases run
  · obtain ⟨offers, host, all⟩ := host_of_pending_halted halted hp
    exact ⟨offers, _, rest, host, all, rfl, .inl ⟨rfl, rfl⟩⟩
  · obtain ⟨offers, host, all⟩ := host_of_pending_halted halted hp
    refine ⟨offers, _, rest, host, all, rfl, .inr ⟨.inl ⟨k, rfl⟩, ?_⟩⟩
    rw [readRegister_frame]
    exact ⟨halted, rfl, rfl, rfl⟩
  · simp [halted] at idle
  · obtain ⟨offers, host, all⟩ := host_of_pending_halted halted hp
    exact ⟨offers, _, rest, host, all, rfl, .inr ⟨.inr (.inl ⟨hd, v, rfl⟩), halted, rfl, rfl, rfl⟩⟩
  · obtain ⟨offers, host, all⟩ := host_of_pending_halted halted hp
    exact ⟨offers, _, rest, host, all, rfl, .inr ⟨.inr (.inr rfl), halted, rfl, rfl, rfl⟩⟩
  · simp [halted] at idle
  · simp [halted] at busy

/-! ## Offers, asset changes and waits -/

theorem runLatched_host_assets {s t : State} (run : s.runLatched = .next t) : t.host = s.host ∧ t.assets = s.assets := by
  obtain ⟨i, e⟩ | rfl := runLatched_next run
  · obtain ⟨t', e', -, assets, host, -⟩ := operationsKeepWhatTheyDoNotWrite i s
    obtain rfl : t' = t := Host.Outcome.next.inj (e'.symm.trans e)
    exact ⟨host, assets⟩
  · exact ⟨rfl, rfl⟩

theorem Concludes.not_busy {s t : State} (conc : Concludes s t) : t.seq ≠ .busy := by
  cases conc with
  | completed seq => simp [seq]
  | faulted _ seq => simp [seq]

/-- A running operation runs to its end before the host's next action, unless that is a reset or a read; the action and
the assets stay as they are (R74, R183, R194). -/
theorem step_busy {s : State} (busy : s.seq = .busy) (waits : s.hostWaits) :
    ∃ t, step s = .next t ∧ t.host = s.host ∧ t.assets = s.assets ∧ t.seq ≠ .busy := by
  obtain ⟨t, run, -⟩ := runLatched_cases s
  obtain ⟨host, assets⟩ := runLatched_host_assets run
  exact ⟨t, (step_runs busy waits).trans run, host, assets, (runLatched_concludes run).not_busy⟩

/-- The host waits when what it does next is neither a reset nor a read. -/
theorem hostWaits_of_host {s : State} {a : HostAction} {rest : List HostAction} (host : s.host = a :: rest)
    (notReset : a ≠ .blockReset) (notRead : ∀ k, a ≠ .readReg k) : s.hostWaits := by
  simp [State.hostWaits, host, notReset, notRead]

theorem step_offer_idle {s : State} {ws : List Word} {rest : List HostAction} (idle : s.seq = .idle)
    (host : s.host = .offer ws :: rest) : step s = .next { s.accept ws with host := rest } := by
  simp [step, State.advance, pending_idle idle, host, idle]

theorem step_putAsset {s : State} {hd : Handle} {v : Option Asset} {rest : List HostAction} (rests : s.seq ≠ .busy)
    (hp : s.pending = .putAsset hd v :: rest) : step s = .next { s.putAsset hd v with host := rest } := by
  cases hq : s.seq with
  | busy => exact absurd hq rests
  | idle => simp [step, State.advance, hp, hq]
  | halted => simp [step, State.advance, hp, hq]

theorem step_wait {s : State} {rest : List HostAction} (rests : s.seq ≠ .busy) (hp : s.pending = .wait :: rest) :
    step s = .next { s with host := rest } := by
  cases hq : s.seq with
  | busy => exact absurd hq rests
  | idle => simp [step, State.advance, hp, hq]
  | halted => simp [step, State.advance, hp, hq]

/-- No step leads from HALTED to BUSY: an offer is never accepted there (R183). -/
theorem step_halted_not_busy {s t : State} (halted : s.seq = .halted) (run : step s = .next t) : t.seq ≠ .busy := by
  obtain ⟨-, steps⟩ := onlyBlockResetLeavesHalted s halted
  obtain ⟨-, -, -, -, -, -, ⟨-, seq⟩ | ⟨-, seq, -⟩⟩ := steps t run
  · simp [seq]
  · simp [seq]

/-- An asset change makes its handle, and no other, resolve to what it says (R47). -/
theorem putAsset_resolve {s : State} (wf : Memory.wf s.assets = true) (hd : Handle) (v : Option Asset) (k : Handle) :
    (s.putAsset hd v).resolve k = if k = hd then v else s.resolve k := by
  simp only [State.resolve, State.putAsset_assets, Memory.read_put _ _ wf, BitVec.toNat_inj]

/-- Settles O5: an action that can be taken is taken by its own step lemma, and one behind a running operation stays. -/
theorem hostOffersAssetChangesAndWaits : Obligations.HostOffersAssetChangesAndWaits := by
  refine ⟨fun s ws rest host => ⟨fun idle => ?accepted, fun busy => ?held, fun halted => ?never⟩,
    fun s hd v rest hp => ⟨fun rests wf => ?changed, fun busy => ?pending⟩,
    fun s rest hp => ⟨fun rests => step_wait rests hp, fun busy => ?waiting⟩⟩
  case accepted => exact ⟨_, step_offer_idle idle host, rfl, rfl, rfl, rfl, rfl⟩
  case held =>
    obtain ⟨t, run, kept, -⟩ := step_busy busy (hostWaits_of_host host (by simp) (by simp))
    exact ⟨t, run, kept.trans host⟩
  case never =>
    exact ⟨fun offers => step_eq_stuck halted (by simpa [host, HostAction.isOffer] using offers),
      fun t => step_halted_not_busy halted⟩
  case changed => exact ⟨_, step_putAsset rests hp, rfl, putAsset_resolve wf hd v⟩
  case pending =>
    rw [pending_busy busy] at hp
    obtain ⟨t, run, kept, assets, -⟩ := step_busy busy (hostWaits_of_host hp (by simp) (by simp))
    exact ⟨t, run, kept, assets⟩
  case waiting =>
    rw [pending_busy busy] at hp
    obtain ⟨t, run, kept, -, ended⟩ := step_busy busy (hostWaits_of_host hp (by simp) (by simp))
    exact ⟨t, run, kept, ended⟩

/-! ## Fault entry (R180) -/

theorem EndsAs.faults {s t : State} {c : FaultCode} {es : List Event} (ends : EndsAs s t (some (c, es)))
    (noFault : s.status.fault = false) : Faults s es c t := by
  obtain ⟨u, draws, rfl⟩ := ends
  exact draws.faults noFault c

theorem EndsAs.finishes {s t : State} (ends : EndsAs s t none) : Finishes s t := ends

/-- What was accepted ends HALTED only by raising a fault. -/
theorem EndsAs.raised {s t : State} {r : Option (FaultCode × List Event)} (ends : EndsAs s t r)
    (halted : t.seq = .halted) : r ≠ none := by
  rintro rfl
  simp [ends.finishes.seq] at halted

/-- A step enters HALTED only by the run of what was accepted (R178). -/
theorem runLatched_of_enters_halted {s t : State} (before : s.seq ≠ .halted) (run : step s = .next t)
    (halted : t.seq = .halted) : s.seq = .busy ∧ s.hostWaits ∧ s.runLatched = .next t := by
  obtain ⟨rest, -, rfl⟩ | ⟨keeps, -⟩ | ⟨ws, rest, -, -, rfl⟩ | runs := step_registers run
  · simp at halted
  · exact absurd (keeps.seq.symm.trans halted) before
  · simp at halted
  · exact runs

/-- Settles O10: the run of what was accepted ends as `State.raises` says, by `runLatched_endsAs`. -/
theorem faultEntryIsPrecise : Obligations.FaultEntryIsPrecise := by
  refine ⟨fun s busy waits noFault => ⟨fun c es raises => ?faults, fun none => ?finishes⟩,
    fun s t before run halted => ?onlyFaults⟩
  case faults =>
    obtain ⟨t, run, ends⟩ := runLatched_endsAs s
    rw [raises] at ends
    exact ⟨t, (step_runs busy waits).trans run, ends.faults noFault⟩
  case finishes =>
    obtain ⟨t, run, ends⟩ := runLatched_endsAs s
    rw [none] at ends
    obtain ⟨seq, notBusy, fault, code⟩ := ends.finishes
    exact ⟨t, (step_runs busy waits).trans run, seq, notBusy, fault.trans noFault, code⟩
  case onlyFaults =>
    obtain ⟨busy, waits, run⟩ := runLatched_of_enters_halted before run halted
    obtain ⟨t', run', ends⟩ := runLatched_endsAs s
    obtain rfl : t' = t := Host.Outcome.next.inj (run'.symm.trans run)
    exact ⟨busy, waits, ends.raised halted⟩

end Sys2Proof.Machine

/-! INIT (spec/70_reset_and_hazards.md R202 to R209): its fixed sequence, what it leaves, and that it alone settles. -/

namespace Sys2Proof.Machine

/-! ## The fixed sequence (R202, R203) -/

theorem exec_init (s : State) : exec .init s = .next (s.emitAll (initEvents s.params)).afterInit.complete := by
  rw [← initSequence_emits]
  rfl

/-- The last byte of the sequence is a command, so DC is left low (R33). -/
theorem initEvents_dc (p : Params) (dc : Bool) : (initEvents p).foldl dcAfter dc = false := by
  unfold initEvents bracketed csEdge
  cases p.csMode <;> rfl

/-- In PER_GROUP mode the sequence leaves the line released, and in NONE mode it does not drive it (R34). -/
theorem initEvents_cs (p : Params) (cs : CsLevel) :
    (initEvents p).foldl csAfter cs = if p.csMode = .perGroup then .released else cs := by
  unfold initEvents bracketed csEdge
  cases p.csMode <;> rfl

/-- What `Panel.afterInit` makes of the observer, whatever the sequence has shown it (R204). -/
theorem Panel.afterInit_unknown (q : Panel) (n : Nat) :
    (q.afterInit n).undef = false ∧ (q.afterInit n).armed = false ∧ (q.afterInit n).gram = [] := ⟨rfl, rfl, rfl⟩

/-- Settles O39: INIT emits `initEvents`, and the field laws of `afterInit` and `complete` say the rest. -/
theorem initRunsTheFixedSequence : Obligations.InitRunsTheFixedSequence := by
  intro s
  refine ⟨_, exec_init s, rfl, ?_⟩
  simp [initEvents_dc, initEvents_cs, Panel.afterInit_unknown]

/-! ## Settle gaps and XportEnable (R208, R209) -/

/-- Whether an event can stand in a chip-select group: a byte or an edge of the line. -/
def Event.inGroup : Event → Bool
  | .cmd _ | .dat _ | .csAssert | .csRelease => true
  | .settle | .xportEnable => false

theorem bracketed_inGroup {p : Params} {es : List Event} (inside : es.all Event.inGroup = true) :
    (bracketed p es).all Event.inGroup = true := by
  unfold bracketed
  cases p.csMode with
  | none => exact inside
  | perGroup => simpa [Event.inGroup] using inside

theorem Grouped.inGroup {p : Params} {es : List Event} (grouped : Grouped p es) : es.all Event.inGroup = true := by
  induction grouped with
  | nil => rfl
  | command c _ ih => rw [List.all_append, bracketed_inGroup rfl, ih, Bool.and_self]
  | data b bs _ ih => rw [List.all_append, bracketed_inGroup (by simp [Event.inGroup]), ih, Bool.and_self]

theorem Paints.count_trace {s u : State} (paints : Paints s u) {e : Event} (outside : e.inGroup = false) :
    u.trace.count e = s.trace.count e := by
  obtain ⟨es, grouped, draws⟩ := paints
  have absent : e ∉ es := fun mem => by
    have inside := List.all_eq_true.1 grouped.inGroup e mem
    simp [outside] at inside
  rw [draws.trace, List.count_append, List.count_eq_zero.2 absent, Nat.add_zero]

/-- Completion and fault entry emit nothing. -/
theorem Ends.count_trace {s t : State} (ends : Ends s t) {e : Event} (outside : e.inGroup = false) :
    t.trace.count e = s.trace.count e := by
  obtain ⟨u, paints, rfl | ⟨c, rfl⟩⟩ := ends
  · exact paints.count_trace outside
  · exact paints.count_trace outside

/-- An event of no group comes from INIT alone, as often as its fixed sequence has it. -/
theorem exec_count_trace {i : Instr} {s t : State} (run : exec i s = .next t) {e : Event} (outside : e.inGroup = false) :
    t.trace.count e = s.trace.count e + if i = .init then (initEvents s.params).count e else 0 := by
  obtain ⟨t', run', kind⟩ := exec_cases i s
  obtain rfl : t' = t := Host.Outcome.next.inj (run'.symm.trans run)
  obtain ⟨rfl, rfl⟩ | ⟨rotation, rfl, u, paints, rfl⟩ | ⟨notInit, -, ends⟩ := kind
  · simp
  · simpa using paints.count_trace outside
  · rw [if_neg notInit, ends.count_trace outside, Nat.add_zero]

/-- Seven commands of the sequence are each followed by one gap (R208). -/
theorem initEvents_count_settle (p : Params) : (initEvents p).count .settle = 7 := by
  unfold initEvents bracketed csEdge
  cases p.csMode <;> rfl

theorem initEvents_count_xportEnable (p : Params) : (initEvents p).count .xportEnable = 1 := by
  unfold initEvents bracketed csEdge
  cases p.csMode <;> rfl

/-- Settles O40: neither event stands in a group, and every operation but INIT emits whole groups. -/
theorem onlyInitSettles : Obligations.OnlyInitSettles := by
  intro i s t run
  have settles := exec_count_trace run (e := .settle) rfl
  have enables := exec_count_trace run (e := .xportEnable) rfl
  rw [initEvents_count_settle] at settles
  rw [initEvents_count_xportEnable] at enables
  exact ⟨settles, enables⟩

end Sys2Proof.Machine

/-! Commands end the stream (spec/70_reset_and_hazards.md R218; spec/20_memory.md R67, R68): after INIT, and after every
operation whose last byte is data, the observer takes no further pixel. -/

namespace Sys2Proof.Machine

/-! ## Windows that their pixels fill (R66, R67) -/

/-- Reckoned in 16 bits, the last of t columns or rows from a (R11). -/
theorem lo16_last (a : Int) (t : Nat) : lo16 (a + t - 1) = lo16 a + BitVec.ofNat 16 t - 1 := by
  apply BitVec.eq_of_toNat_eq
  simp [lo16, BitVec.toNat_ofInt, BitVec.toNat_sub, BitVec.toNat_add]
  omega

/-- A thick pixel fills its window, wherever that comes round. -/
theorem fills_thick (a b : Int) {t : Nat} (byte : t < 256) :
    fills (lo16 a) (lo16 b) (lo16 (a + t - 1)) (lo16 (b + t - 1)) (t * t) := by
  have side : (BitVec.ofNat 16 t).toNat = t := Nat.mod_eq_of_lt (by omega)
  have fill := fills_unchecked (lo16 a) (lo16 b) (BitVec.ofNat 16 t) (BitVec.ofNat 16 t)
  rwa [side, ← lo16_last, ← lo16_last] at fill

/-- A band of t rows fills its window: it has no rows, it passes row 65535, or it is a rectangle (R115). -/
theorem fills_band {x1 x2 : Word} (ordered : x1.toNat ≤ x2.toNat) (y : Word) {t : Nat} (byte : t < 256) :
    fills x1 y x2 (lo16 (zext y + t - 1)) ((x2.toNat - x1.toNat + 1) * t) := by
  have last : (lo16 (zext y + t - 1)).toNat = (y.toNat + t + 65535) % 65536 := by
    simp only [lo16, zext, BitVec.toNat_ofInt]
    omega
  obtain rfl | thick := Nat.eq_zero_or_pos t
  · exact .inl (Nat.mul_zero _)
  by_cases passes : y.toNat + t > 65536
  · exact .inr (.inr (.inl (by omega)))
  · exact fills_area (by omega) (by omega)

/-- A row of wd pixels fills its window. -/
theorem fills_row {x : Word} {wd : Nat} (pos : 0 < wd) (fits : x.toNat + wd ≤ 65536) (y : Word) :
    fills x y (BitVec.ofNat 16 (x.toNat + wd - 1)) y wd := by
  have last := toNat_last fits
  simpa using fills_area (x1 := x) (y1 := y) (y2 := y) (b := 1) (a := wd) (by omega) rfl

theorem hLineEvents_filled (p : Params) (x0 y0 x1 : Word) (t : Byte) (color : Word) :
    Filled p (hLineEvents p x0 y0 x1 t.toNat color) :=
  .one _ _ _ _ _ _ (fills_band (lower_le_upper x0 x1) y0 t.isLt)

theorem vLineEvents_filled (p : Params) (x0 y0 y1 : Word) (t : Byte) (color : Word) :
    Filled p (vLineEvents p x0 y0 y1 t.toNat color) :=
  .one _ _ _ _ _ _ (fills_swap (fills_band (lower_le_upper y0 y1) x0 t.isLt))

theorem lineEvents_filled (p : Params) (x0 y0 x1 y1 : Word) (t : Byte) (color : Word) :
    Filled p (lineEvents p x0 y0 x1 y1 t.toNat color) := by
  unfold lineEvents
  split
  · exact vLineEvents_filled ..
  split
  · exact hLineEvents_filled ..
  · exact .flatMap _ _ fun q _ => .one _ _ _ _ _ _ (fills_thick q.1 q.2 t.isLt)

theorem outlineEvents_filled (p : Params) {x y : Word} (color : Word) {wd ht : Nat} (wd_pos : 0 < wd) (ht_pos : 0 < ht)
    (columns : x.toNat + wd ≤ 65536) (rows : y.toNat + ht ≤ 65536) : Filled p (outlineEvents p x y color wd ht) := by
  have row := fills_row wd_pos columns
  have column := fun u => fills_swap (fills_row ht_pos rows u)
  exact (((Filled.one _ _ _ _ _ _ (row _)).append (.one _ _ _ _ _ _ (row _))).append
    (.one _ _ _ _ _ _ (column _))).append (.one _ _ _ _ _ _ (column _))

theorem rectEvents_filled (p : Params) {x y : Word} (color : Word) {wd ht : Nat} (wd_pos : 0 < wd) (ht_pos : 0 < ht)
    (columns : x.toNat + wd ≤ 65536) (rows : y.toNat + ht ≤ 65536) : Filled p (rectEvents p x y color wd ht) := by
  have right := toNat_last columns
  have bottom := toNat_last rows
  exact .one _ _ _ _ _ _ (fills_area (by omega) (by omega))

/-- A window alone is one with no pixels. -/
theorem windowEvents_filled (p : Params) (x1 y1 x2 y2 : Word) : Filled p (windowEvents p x1 y1 x2 y2) := by
  simpa [paintEvents, pixelsEvents] using Filled.one (p := p) x1 y1 x2 y2 0 0 (.inl rfl)

/-! ## Drawing that leaves the stream nowhere to go (R68) -/

/-- If the last byte of the events is data, the observer takes no further pixel after them. -/
def EndsSpent (p : Params) (es : List Event) : Prop := endsInData es → ∀ q : Panel, (q.after p es).Spent

theorem Filled.endsSpent {p : Params} {es : List Event} (filled : Filled p es) : EndsSpent p es := filled.spent

/-- One pixel or more that leave nothing of a window, of whatever colours. -/
theorem Panel.takePixels_spent (p : Params) (q : Panel) {x1 y1 x2 y2 : Word} {colors : List Word} (sent : colors ≠ [])
    (leaves : fills x1 y1 x2 y2 colors.length) : ((q.windowed x1 y1 x2 y2).takePixels p colors).Spent := by
  have sized : colors.length ≠ 0 := List.length_eq_zero_iff.not.2 sent
  by_cases malformed : x1.toNat > x2.toNat ∨ y1.toNat > y2.toNat
  · exact .inl (Panel.takePixels_stays _ (Panel.windowed_malformed q malformed))
  · have whole : colors.length = (x2.toNat + 1 - x1.toNat) * (y2.toNat + 1 - y1.toNat) := by
      simpa [fills, sized, ← or_assoc, malformed] using leaves
    have first := q.windowed_at x1 y1 x2 y2 (wd := x2.toNat + 1 - x1.toNat) (by omega) (by omega)
    exact Panel.takePixels_full (ht := y2.toNat + 1 - y1.toNat) _ first
      (by simp only [Panel.windowed_ys, Panel.windowed_ye]; omega) (by rwa [Nat.zero_add])

theorem bitmapEvents_endsSpent (p : Params) (x y : Word) {b : Bitmap} (enough : bitmapBytes b ≤ b.data.length) :
    EndsSpent p (bitmapEvents p x y b) := by
  intro data q
  rw [Panel.after_bitmap enough]
  refine Panel.takePixels_spent p q ?sent ?leaves
  case sent =>
    intro none
    have empty : b.data.take (bitmapBytes b) = [] := by
      rw [← List.length_eq_zero_iff, Bitmap.length_sent enough, ← Bitmap.length_pixels enough, none]
      rfl
    rw [bitmapEvents, empty] at data
    exact not_endsInData_window [] p _ _ _ _ (by simpa [bytesEvents] using data)
  case leaves =>
    rw [Bitmap.length_pixels enough]
    exact fills_unchecked x y b.w b.h

/-- t is how s ends, completed or faulted, after events that leave the observer no further pixel if their last byte is
data. -/
def DrawsSpent (s t : State) : Prop :=
  ∃ es u, Draws s es u ∧ EndsSpent s.params es ∧ (t = u.complete ∨ ∃ c, t = u.raiseFault c)

theorem Draws.completesSpent {s u : State} {es : List Event} (draws : Draws s es u) (filled : Filled s.params es) :
    DrawsSpent s u.complete := ⟨es, u, draws, filled.endsSpent, .inl rfl⟩

theorem Draws.raisesSpent {s u : State} {es : List Event} (draws : Draws s es u) (filled : Filled s.params es)
    (c : FaultCode) : DrawsSpent s (u.raiseFault c) := ⟨es, u, draws, filled.endsSpent, .inr ⟨c, rfl⟩⟩

/-- What is drawn of a rectangle clipped to the surface, where nothing is left of it as well. -/
theorem clipped_drawsSpent {s : State} {x y w h : Word} {draw : Word → Word → State → State}
    {es : Nat → Nat → List Event}
    (draws : x.toNat < s.w.toNat → y.toNat < s.h.toNat → w ≠ 0 → h ≠ 0 →
      Draws s (es (min w.toNat (s.w.toNat - x.toNat)) (min h.toNat (s.h.toNat - y.toNat))) (s.clipped x y w h draw))
    (filled : ∀ {wd ht : Nat}, 0 < wd → 0 < ht → x.toNat + wd ≤ 65536 → y.toNat + ht ≤ 65536 →
      Filled s.params (es wd ht)) : DrawsSpent s (s.clipped x y w h draw).complete := by
  by_cases empty : s.w.toNat ≤ x.toNat ∨ s.h.toNat ≤ y.toNat ∨ w = 0 ∨ h = 0
  · rw [State.clipped_noop empty]
    exact (Draws.refl s).completesSpent .nil
  · simp only [not_or, Nat.not_le] at empty
    obtain ⟨hx, hy, hw, hh⟩ := empty
    obtain ⟨wd_pos, columns⟩ := clipped_side hx hw
    obtain ⟨ht_pos, rows⟩ := clipped_side hy hh
    exact (draws hx hy hw hh).completesSpent (filled wd_pos ht_pos (by omega) (by omega))

theorem fillRect_drawsSpent (s : State) (x y w h color : Word) : DrawsSpent s (s.fillRect x y w h color).complete :=
  clipped_drawsSpent (fun hx hy hw hh => fillRect_draws hx hy hw hh color) (rectEvents_filled s.params color)

theorem drawChar_drawsSpent (s : State) (glyph : Handle) (a : CharArgs) : DrawsSpent s (s.drawChar glyph a).finish := by
  rw [State.drawChar, glyphAsset_spec]
  cases s.glyphOrFault glyph with
  | error c => exact (Draws.refl s).raisesSpent .nil c
  | ok g =>
    change DrawsSpent s (s.drawGlyph g a).finish
    obtain ⟨u, run, draws⟩ | ⟨c, run⟩ := drawGlyph_cases g a s
    · rw [run]
      exact draws.draws.completesSpent (glyphEvents_filled ..)
    · rw [run]
      exact (Draws.refl s).raisesSpent .nil c

theorem drawString_drawsSpent (s : State) (x y : Word) (str font : Handle) (st : TextStyle) :
    DrawsSpent s (s.drawString x y str font st).finish := by
  by_cases bad : (∀ bytes, s.resolve str ≠ some (.string bytes)) ∨ ∀ f, s.resolve font ≠ some (.font f)
  · rw [drawString_badAsset x y st bad]
    exact (Draws.refl s).raisesSpent .nil .badAsset
  · simp only [not_or, not_forall, not_not] at bad
    obtain ⟨⟨bytes, isString⟩, f, isFont⟩ := bad
    obtain ⟨u, run, draws⟩ := drawString_draws x y st isString isFont
    rw [run, StringPlan.flow]
    cases (s.stringPlan f bytes x y).fault with
    | none => exact draws.completesSpent (planEvents_filled ..)
    | some c => exact draws.raisesSpent (planEvents_filled ..) c

theorem drawBitmap_drawsSpent (s : State) (x y : Word) (bitmap : Handle) :
    DrawsSpent s ((s.bitmapAsset bitmap).bind fun b s => s.blit b (zext x) (zext y)).finish := by
  unfold State.bitmapAsset
  split
  case h_1 b isBitmap =>
    rw [Flow.bind_ok]
    by_cases short : b.data.length < bitmapBytes b
    · rw [State.blit, if_pos short]
      exact (Draws.refl s).raisesSpent .nil .assetRange
    · obtain ⟨u, run, draws⟩ := blit_draws s x y (Nat.not_lt.1 short)
      rw [run]
      exact ⟨_, u, draws, bitmapEvents_endsSpent s.params x y (Nat.not_lt.1 short), .inl rfl⟩
  all_goals exact (Draws.refl s).raisesSpent .nil .badAsset

/-- Every operation but FILL_COLOR, INIT and ROTATE_DISPLAY draws windows with pixels that leave nothing of them. -/
theorem exec_drawsSpent {i : Instr} (notWire : i.isWire = false) (notFill : ∀ c m, i ≠ .fillColor c m)
    (notInit : i ≠ .init) (notRotate : ∀ r, i ≠ .rotateDisplay r) (s : State) :
    ∃ t, exec i s = .next t ∧ DrawsSpent s t := by
  cases i with
  | init => exact absurd rfl notInit
  | fillColor c m => exact absurd rfl (notFill c m)
  | rotateDisplay r => exact absurd rfl (notRotate r)
  | setWindow => exact ⟨_, rfl, (setWindow_draws ..).completesSpent (windowEvents_filled ..)⟩
  | drawPixel => exact ⟨_, rfl, (pixel_draws ..).completesSpent (.one _ _ _ _ _ _ (fills_pixel _ _))⟩
  | fillRect => exact ⟨_, rfl, fillRect_drawsSpent ..⟩
  | fillScreen => exact ⟨_, rfl, fillRect_drawsSpent ..⟩
  | fillRectFast x y w h =>
    exact ⟨_, rfl, (fillWindow_draws_sized ..).completesSpent (.one _ _ _ _ _ _ (fills_unchecked x y w h))⟩
  | drawRectangle x y w h color =>
    exact ⟨_, rfl, clipped_drawsSpent (fun hx hy hw hh => clippedOutline_draws hx hy hw hh color)
      (outlineEvents_filled s.params color)⟩
  | drawFastHLine => exact ⟨_, rfl, (hLine_draws ..).completesSpent (hLineEvents_filled ..)⟩
  | drawFastVLine => exact ⟨_, rfl, (vLine_draws ..).completesSpent (vLineEvents_filled ..)⟩
  | drawLine => exact ⟨_, rfl, (drawLine_draws ..).completesSpent (lineEvents_filled ..)⟩
  | drawChar => exact ⟨_, rfl, drawChar_drawsSpent ..⟩
  | drawStringMain => exact ⟨_, rfl, drawString_drawsSpent ..⟩
  | drawString => exact ⟨_, rfl, drawString_drawsSpent ..⟩
  | drawStringWithbg => exact ⟨_, rfl, drawString_drawsSpent ..⟩
  | drawBitmap => exact ⟨_, rfl, drawBitmap_drawsSpent ..⟩
  | _ => simp [Instr.isWire] at notWire

/-! ## One more pixel (R218) -/

theorem DrawsSpent.spent {s t : State} (drawn : DrawsSpent s t) {es : List Event} (trace : t.trace = s.trace ++ es)
    (data : endsInData es) : t.panel.Spent := by
  obtain ⟨fs, u, draws, spent, rfl | ⟨c, rfl⟩⟩ := drawn
  all_goals
    obtain rfl : fs = es := List.append_cancel_left (draws.trace.symm.trans trace)
    have panel := spent data s.panel
    rwa [← draws.panel] at panel

/-- INIT's last command waits for no data, and INIT leaves no memory write in progress (R204). -/
theorem afterInit_spent (p : Params) (q : Panel) (n : Nat) : ((q.after p (initEvents p)).afterInit n).Spent := by
  refine .inr (.inl ⟨rfl, ?_⟩)
  simp only [Panel.afterInit, initEvents, Panel.after_append, Panel.after_bracketed]
  simp [Panel.after, Panel.observe, Panel.takeCmd, Panel.startCmd, dataCount]

theorem memoryAccessControl_panel (s : State) (pat : Byte) :
    (s.memoryAccessControl pat).panel = (s.panel.takeCmd 0x36).takeDat s.params pat := by
  change (s.wireCommand 0x36 [pat]).panel = _
  rw [wireCommand_panel]
  exact Panel.after_bracketed ..

/-- Memory-access-control has its one data byte, and disarms (R65, R68). -/
theorem memoryAccessControl_spent (s : State) (pat : Byte) : (s.memoryAccessControl pat).panel.Spent := by
  rw [memoryAccessControl_panel]
  refine .inr (.inl ?_)
  simp [Panel.takeCmd, Panel.startCmd, Panel.takeDat, dataCount, Panel.setWindowRegs]

theorem fillColor_undef {s : State} (spent : s.panel.Spent) (color : Word) {n : Nat} (pixels : n ≠ 0) :
    (s.fillColor color n).panel.undef = true := by
  rw [(fillColor_draws s color n).panel]
  exact Panel.after_pixels_spent s.params color pixels spent

/-- Settles O52: INIT, ROTATE_DISPLAY and whatever has drawn leave an observer that takes no further pixel. -/
theorem commandsEndTheStream : Obligations.CommandsEndTheStream := by
  intro i s t es color n notWire notFill run trace ends some_pixel
  have pixels : n.toNat ≠ 0 := (BitVec.toNat_pos_of_ne_zero some_pixel).ne'
  refine ⟨_, exec_fillColor color n t, fillColor_undef ?_ color pixels⟩
  obtain ⟨-, panel⟩ | ⟨notInit, -⟩ := exec_panel run
  · rw [panel]
    exact afterInit_spent ..
  by_cases rotates : ∃ r, i = .rotateDisplay r
  · obtain ⟨r, rfl⟩ := rotates
    obtain rfl := Host.Outcome.next.inj run
    exact memoryAccessControl_spent ..
  · obtain ⟨t', run', drawn⟩ := exec_drawsSpent notWire notFill notInit (not_exists.1 rotates) s
    obtain rfl : t' = t := Host.Outcome.next.inj (run'.symm.trans run)
    exact drawn.spent trace (ends.resolve_left notInit)

end Sys2Proof.Machine
